-- ==== Sys2Proof/Word.lean ====
section
/-! DEFINITION. The word types of TSPP (spec 00_scope.md R9: a byte is 8 bits, bit 7 the most significant; every value
is unsigned). -/

namespace Sys2Proof

/-- One byte of the packet buffer (R9, R21). -/
abbrev Byte := BitVec 8

/-- The 9-bit command word `CMD9` (30_encoding.md R110). -/
abbrev Cmd := BitVec 9

/-- A one-bit field as a one-bit string, for concatenation `a ++ b` (R9). -/
abbrev bit (b : Bool) : BitVec 1 := BitVec.ofBool b

/-- `v[hi:lo]`, the slice of R9 that the layout tables of 30_encoding.md are written in. -/
abbrev slice {w : Nat} (hi lo : Nat) (v : BitVec w) : BitVec (hi - lo + 1) := v.extractLsb hi lo

end Sys2Proof
end

