-- ==== Sys2Proof/Syntax.lean ====
section
/-! DEFINITION. The instructions of TSPP: one constructor for each row of spec/opcode_table.json. A command row carries
its whole 5-bit field `n`, also where the operation ignores it, and a wire row carries every bit of its region, also
those that are read and discarded, so that no bit of an encoding is dropped. -/

namespace Sys2Proof

/-- The ten region formats of the packet, in wire order (30_encoding.md R90, R115). -/
inductive Region where
  /-- TSH32, the packet header (R91). -/
  | tsh
  /-- AFH16, length and flags of the adaptation field (R93). -/
  | afHead
  /-- PCR48 (R94). -/
  | pcr
  /-- OPCR48 (R94). -/
  | opcr
  /-- SPL8 (R95). -/
  | spl
  /-- TPD, a length byte and that many bytes (R96). -/
  | tpd
  /-- AFXH16, length and flags of the extension (R97). -/
  | afxHead
  /-- LTW16 (R98). -/
  | ltw
  /-- PWR24 (R99). -/
  | pwr
  /-- SMS40 (R100). -/
  | sms
deriving DecidableEq, Repr

/-- The fields of a header TSH32 other than the two selector bits (R91). -/
structure Tsh where
  sync : Byte
  tei : Bool
  pusi : Bool
  tpri : Bool
  pid : BitVec 13
  tsc : BitVec 2
  cc : BitVec 4
deriving DecidableEq, Repr

/-- The fields of AFH16 (R93): `field_length`, three indicators, five presence flags. -/
structure AfHead where
  len : Byte
  di : Bool
  rai : Bool
  espi : Bool
  pcr : Bool
  opcr : Bool
  spl : Bool
  tpd : Bool
  afx : Bool
deriving DecidableEq, Repr

/-- The fields of AFXH16 (R97): the length, three flags, five reserved bits of any value. -/
structure AfxHead where
  len : Byte
  ltw : Bool
  pwr : Bool
  sms : Bool
  reserved : BitVec 5
deriving DecidableEq, Repr

/-- The fields of SMS40 (R100): the splice type, the three parts of the DTS and the marker bit after each. -/
structure Sms where
  splt : BitVec 4
  d2 : BitVec 3
  m2 : Bool
  d1 : BitVec 15
  m1 : Bool
  d0 : BitVec 15
  m0 : Bool
deriving DecidableEq, Repr

/-- The rows of spec/opcode_table.json (R115): nine commands and seven reserved op codes of the format CMD9, four header
variants of the format TSH32, nine conditional regions of the packet. -/
inductive Instr where
  /-- `OPEN` (R131). -/
  | openCur (n : BitVec 5)
  /-- `PBIT` (R132). -/
  | pbit (n : BitVec 5)
  /-- `PBITS n` (R133). -/
  | pbits (n : BitVec 5)
  /-- `PBYTE` (R134). -/
  | pbyte (n : BitVec 5)
  /-- `PWIDE n` (R135). -/
  | pwide (n : BitVec 5)
  /-- `HDR` (R161). -/
  | hdr (n : BitVec 5)
  /-- `AF` (R182). -/
  | af (n : BitVec 5)
  /-- `AFX` (R211). -/
  | afx (n : BitVec 5)
  /-- `DECODE` (R162). -/
  | decode (n : BitVec 5)
  /-- `RESERVED_9` (R111). -/
  | reserved9 (n : BitVec 5)
  /-- `RESERVED_A` (R111). -/
  | reservedA (n : BitVec 5)
  /-- `RESERVED_B` (R111). -/
  | reservedB (n : BitVec 5)
  /-- `RESERVED_C` (R111). -/
  | reservedC (n : BitVec 5)
  /-- `RESERVED_D` (R111). -/
  | reservedD (n : BitVec 5)
  /-- `RESERVED_E` (R111). -/
  | reservedE (n : BitVec 5)
  /-- `RESERVED_F` (R111). -/
  | reservedF (n : BitVec 5)
  /-- `TSP.NONE`: `AFP = 0`, `PLP = 0` (R91, R92). -/
  | tspNone (h : Tsh)
  /-- `TSP.PAYLOAD`: `AFP = 0`, `PLP = 1` (R91, R92). -/
  | tspPayload (h : Tsh)
  /-- `TSP.AF`: `AFP = 1`, `PLP = 0` (R91, R92). -/
  | tspAf (h : Tsh)
  /-- `TSP.AF_PAYLOAD`: `AFP = 1`, `PLP = 1` (R91, R92). -/
  | tspAfPayload (h : Tsh)
  /-- `AF.HEAD` (R93, R183, R184). -/
  | afHead (h : AfHead)
  /-- `AF.PCR` (R94, R185). -/
  | afPcr (v : BitVec 48)
  /-- `AF.OPCR` (R94, R186). -/
  | afOpcr (v : BitVec 48)
  /-- `AF.SPLICE` (R95, R187). -/
  | afSplice (c : Byte)
  /-- `AF.PRIVATE` (R96, R188): the length byte and the bytes. -/
  | afPrivate (n : Byte) (bytes : List Byte)
  /-- `AFX.HEAD` (R97, R212, R213). -/
  | afxHead (h : AfxHead)
  /-- `AFX.LTW` (R98, R214). -/
  | afxLtw (valid : Bool) (offset : BitVec 15)
  /-- `AFX.PWR` (R99, R215): the two reserved bits and the rate. -/
  | afxPwr (reserved : BitVec 2) (rate : BitVec 22)
  /-- `AFX.SMS` (R100, R216). -/
  | afxSms (f : Sms)
deriving DecidableEq, Repr

/-- The composite operations, the ones the sequencer SEQ runs region by region (00_scope.md R2, R12). -/
inductive Composite where
  | hdr
  | af
  | afx
  | decode
deriving DecidableEq, Repr

/-- Every register the spec names (10_state.md R21 to R42), as a name a host could ask for. -/
inductive Reg where
  | cmd | st | err | rval
  | bp | bo | len
  | pV | sync | tei | pusi | tpri | pid | tsc | afp | plp | cc | afV | plV | plOff | plLen
  | afl | di | rai | espi | pcrV | pcr | opcrV | opcr | splV | splc | tpdV | tpdl
  | tpdb (i : Nat)
  | afxV | stfV | stfOff | stfLen
  | afxl | ltwf | pwrf | smsf | ltwV | ltwvf | ltwo | pwrV | pwr | smsV | splt | dts
  | fPcr | fOpcr | fSpl | fTpd | fAfx
  | afEnd | afxEnd | seqStep
deriving DecidableEq, Repr

end Sys2Proof
end

