-- ==== Sys2Proof/Config.lean ====
section
/-! DEFINITION. What an implementation fixes, the values the model chose where the spec gives none, and the free
values. -/

namespace Sys2Proof.Config

/-- The size in bytes of the private-data store `TPDB` (00_scope.md R7, 10_state.md R32). -/
def tpdbSize : Nat := 255

/-- What a byte of `DATA` that the host has never written reads as.
DESIGN CHOICE (notes/assumptions/1.md): 10_state.md R44 leaves `DATA` unspecified after reset. -/
def unlistedByte : Byte := 0

/-- The buffer length right after power-on.
DESIGN CHOICE (notes/assumptions/1.md): 10_state.md R44 leaves `LEN` unspecified after reset. -/
def resetLen : Nat := 0

/-- FREE VALUE (notes/assumptions/6.md): what the host reads from a result register while `ST` is BUSY, which
70_reset_and_hazards.md R274 calls unspecified. It is applied to the register read and the bit address of the cursor;
it has no body, so nothing can be proved about it. -/
opaque busyRead : Reg → Nat → Nat

end Sys2Proof.Config
end

