-- ==== Sys2Proof/WellFormed.lean ====
section
/-! DEFINITION. Which terms of `Instr` are instructions. Widths are carried by the types; the one relation between
fields is that the private-data length byte counts the bytes after it (30_encoding.md R96). -/

namespace Sys2Proof

/-- A term is an instruction when the length byte `N` of a TPD region is the number of bytes it carries (R96). Every
other constructor admits every value of its fields: R108, R109 and R110 accept them all. -/
def Instr.wellFormed : Instr → Bool
  | .afPrivate n bytes => decide (bytes.length = n.toNat)
  | .openCur _ | .pbit _ | .pbits _ | .pbyte _ | .pwide _ | .hdr _ | .af _ | .afx _ | .decode _ => true
  | .reserved9 _ | .reservedA _ | .reservedB _ | .reservedC _ | .reservedD _ | .reservedE _ | .reservedF _ => true
  | .tspNone _ | .tspPayload _ | .tspAf _ | .tspAfPayload _ => true
  | .afHead _ | .afPcr _ | .afOpcr _ | .afSplice _ => true
  | .afxHead _ | .afxLtw _ _ | .afxPwr _ _ | .afxSms _ => true

end Sys2Proof
end

