-- ==== Sys2Proof/Decode.lean ====
section
/-! DEFINITION. The decoder, total on any command word and on any bytes, and after it the encoder. The two encodings of
30_encoding.md are kept apart by a tag (`Code`): the command word CMD9 that a host writes to `CMD` (R110), and the
bytes of a region of the packet, whose format the flags before it decide (R90). -/

namespace Sys2Proof

/-- Where an instruction stands: a command word, or bytes in the buffer that the sequencer reads as a given region. -/
inductive Code where
  | cmd (w : Cmd)
  | wire (r : Region) (bytes : List Byte)
deriving DecidableEq, Repr

/-- Why bytes are not an instruction. R109: there is no illegal wire encoding as such, so the one reason is that the
bytes end before the region does. -/
inductive DecodeReject where
  | truncated (r : Region)
deriving DecidableEq, Repr

/-! ### The command word -/

/-- CMD9 (R110): `op = CMD[8:5]`, `n = CMD[4:0]`; op codes 0x9 to 0xF are reserved (R111). -/
def decodeCmd (w : Cmd) : Instr :=
  let n : BitVec 5 := slice 4 0 w
  match (slice 8 5 w).toNat with
  | 0x0 => .openCur n
  | 0x1 => .pbit n
  | 0x2 => .pbits n
  | 0x3 => .pbyte n
  | 0x4 => .pwide n
  | 0x5 => .hdr n
  | 0x6 => .af n
  | 0x7 => .afx n
  | 0x8 => .decode n
  | 0x9 => .reserved9 n
  | 0xA => .reservedA n
  | 0xB => .reservedB n
  | 0xC => .reservedC n
  | 0xD => .reservedD n
  | 0xE => .reservedE n
  | _ => .reservedF n

/-! ### The wire formats, each from its table in 30_encoding.md -/

/-- The fields of a header word other than `W[5:4]` (R91). -/
def tshFields (W : BitVec 32) : Tsh :=
  { sync := slice 31 24 W, tei := W.getLsbD 23, pusi := W.getLsbD 22, tpri := W.getLsbD 21,
    pid := slice 20 8 W, tsc := slice 7 6 W, cc := slice 3 0 W }

/-- TSH32: `W[5:4]` = (`AFP`, `PLP`) selects the header variant (R92). -/
def decodeTsh (W : BitVec 32) : Instr :=
  match W.getLsbD 5, W.getLsbD 4 with
  | false, false => .tspNone (tshFields W)
  | false, true => .tspPayload (tshFields W)
  | true, false => .tspAf (tshFields W)
  | true, true => .tspAfPayload (tshFields W)

/-- AFH16 (R93). -/
def decodeAfHead (A : BitVec 16) : AfHead :=
  { len := slice 15 8 A, di := A.getLsbD 7, rai := A.getLsbD 6, espi := A.getLsbD 5, pcr := A.getLsbD 4,
    opcr := A.getLsbD 3, spl := A.getLsbD 2, tpd := A.getLsbD 1, afx := A.getLsbD 0 }

/-- AFXH16 (R97). -/
def decodeAfxHead (X : BitVec 16) : AfxHead :=
  { len := slice 15 8 X, ltw := X.getLsbD 7, pwr := X.getLsbD 6, sms := X.getLsbD 5, reserved := slice 4 0 X }

/-- SMS40 (R100). -/
def decodeSms (S : BitVec 40) : Sms :=
  { splt := slice 39 36 S, d2 := slice 35 33 S, m2 := S.getLsbD 32, d1 := slice 31 17 S, m1 := S.getLsbD 16,
    d0 := slice 15 1 S, m0 := S.getLsbD 0 }

/-- A region read from the front of `bytes`, with what follows it; multi-byte regions are big-endian (R62, R90). -/
def decodeWire : Region → List Byte → Except DecodeReject (Instr × List Byte)
  | .tsh, b0 :: b1 :: b2 :: b3 :: rest => .ok (decodeTsh (b0 ++ b1 ++ b2 ++ b3), rest)
  | .afHead, b0 :: b1 :: rest => .ok (.afHead (decodeAfHead (b0 ++ b1)), rest)
  | .pcr, b0 :: b1 :: b2 :: b3 :: b4 :: b5 :: rest => .ok (.afPcr (b0 ++ b1 ++ b2 ++ b3 ++ b4 ++ b5), rest)
  | .opcr, b0 :: b1 :: b2 :: b3 :: b4 :: b5 :: rest => .ok (.afOpcr (b0 ++ b1 ++ b2 ++ b3 ++ b4 ++ b5), rest)
  | .spl, b0 :: rest => .ok (.afSplice b0, rest)
  | .tpd, n :: rest =>
    if n.toNat ≤ rest.length then .ok (.afPrivate n (rest.take n.toNat), rest.drop n.toNat)
    else .error (.truncated .tpd)
  | .afxHead, b0 :: b1 :: rest => .ok (.afxHead (decodeAfxHead (b0 ++ b1)), rest)
  | .ltw, b0 :: b1 :: rest =>
    let T : BitVec 16 := b0 ++ b1
    .ok (.afxLtw (T.getLsbD 15) (slice 14 0 T), rest)
  | .pwr, b0 :: b1 :: b2 :: rest =>
    let Q : BitVec 24 := b0 ++ b1 ++ b2
    .ok (.afxPwr (slice 23 22 Q) (slice 21 0 Q), rest)
  | .sms, b0 :: b1 :: b2 :: b3 :: b4 :: rest => .ok (.afxSms (decodeSms (b0 ++ b1 ++ b2 ++ b3 ++ b4)), rest)
  | r, _ => .error (.truncated r)

/-- The decoder: total on every command word and on every list of bytes, rejecting by name. It answers the instruction
and the bytes after it. -/
def decode : Code → Except DecodeReject (Instr × List Byte)
  | .cmd w => .ok (decodeCmd w, [])
  | .wire r bytes => decodeWire r bytes

/-! ### The encoder -/

/-- The command word of an operation: `op` in bits 8:5, `n` in bits 4:0 (R110). -/
def encodeCmd (op : BitVec 4) (n : BitVec 5) : Code := .cmd (op ++ n)

/-- A header word (R91): the fields in wire order, `AFP` and `PLP` at bits 5 and 4. -/
def encodeTsh (h : Tsh) (afp plp : Bool) : BitVec 32 :=
  h.sync ++ bit h.tei ++ bit h.pusi ++ bit h.tpri ++ h.pid ++ h.tsc ++ bit afp ++ bit plp ++ h.cc

/-- The four header bytes, most significant first (R62). -/
def tshBytes (h : Tsh) (afp plp : Bool) : List Byte :=
  let W := encodeTsh h afp plp
  [slice 31 24 W, slice 23 16 W, slice 15 8 W, slice 7 0 W]

/-- The flags byte of AFH16 (R93). -/
def afFlagsByte (h : AfHead) : Byte :=
  bit h.di ++ bit h.rai ++ bit h.espi ++ bit h.pcr ++ bit h.opcr ++ bit h.spl ++ bit h.tpd ++ bit h.afx

/-- The flags byte of AFXH16 (R97). -/
def afxFlagsByte (h : AfxHead) : Byte := bit h.ltw ++ bit h.pwr ++ bit h.sms ++ h.reserved

/-- The six bytes of a 48-bit clock, most significant first (R94, R105). -/
def clockBytes (v : BitVec 48) : List Byte :=
  [slice 47 40 v, slice 39 32 v, slice 31 24 v, slice 23 16 v, slice 15 8 v, slice 7 0 v]

/-- The two bytes of LTW16 (R98). -/
def ltwBytes (valid : Bool) (offset : BitVec 15) : List Byte :=
  let T : BitVec 16 := bit valid ++ offset
  [slice 15 8 T, slice 7 0 T]

/-- The three bytes of PWR24 (R99). -/
def pwrBytes (reserved : BitVec 2) (rate : BitVec 22) : List Byte :=
  let Q : BitVec 24 := reserved ++ rate
  [slice 23 16 Q, slice 15 8 Q, slice 7 0 Q]

/-- The five bytes of SMS40 (R100). -/
def smsBytes (f : Sms) : List Byte :=
  let S : BitVec 40 := f.splt ++ f.d2 ++ bit f.m2 ++ f.d1 ++ bit f.m1 ++ f.d0 ++ bit f.m0
  [slice 39 32 S, slice 31 24 S, slice 23 16 S, slice 15 8 S, slice 7 0 S]

/-- The encoder: the command word or the bytes of an instruction, written from the tables of 30_encoding.md. -/
def encode : Instr → Code
  | .openCur n => encodeCmd 0x0 n
  | .pbit n => encodeCmd 0x1 n
  | .pbits n => encodeCmd 0x2 n
  | .pbyte n => encodeCmd 0x3 n
  | .pwide n => encodeCmd 0x4 n
  | .hdr n => encodeCmd 0x5 n
  | .af n => encodeCmd 0x6 n
  | .afx n => encodeCmd 0x7 n
  | .decode n => encodeCmd 0x8 n
  | .reserved9 n => encodeCmd 0x9 n
  | .reservedA n => encodeCmd 0xA n
  | .reservedB n => encodeCmd 0xB n
  | .reservedC n => encodeCmd 0xC n
  | .reservedD n => encodeCmd 0xD n
  | .reservedE n => encodeCmd 0xE n
  | .reservedF n => encodeCmd 0xF n
  | .tspNone h => .wire .tsh (tshBytes h false false)
  | .tspPayload h => .wire .tsh (tshBytes h false true)
  | .tspAf h => .wire .tsh (tshBytes h true false)
  | .tspAfPayload h => .wire .tsh (tshBytes h true true)
  | .afHead h => .wire .afHead [h.len, afFlagsByte h]
  | .afPcr v => .wire .pcr (clockBytes v)
  | .afOpcr v => .wire .opcr (clockBytes v)
  | .afSplice c => .wire .spl [c]
  | .afPrivate n bytes => .wire .tpd (n :: bytes)
  | .afxHead h => .wire .afxHead [h.len, afxFlagsByte h]
  | .afxLtw valid offset => .wire .ltw (ltwBytes valid offset)
  | .afxPwr reserved rate => .wire .pwr (pwrBytes reserved rate)
  | .afxSms f => .wire .sms (smsBytes f)

/-- The same code with `rest` standing after it in the buffer; a command word has nothing after it. -/
def Code.followedBy : Code → List Byte → Code
  | .cmd w, _ => .cmd w
  | .wire r bytes, rest => .wire r (bytes ++ rest)

/-- What follows an instruction in its own code: nothing after a command, `rest` after a region. -/
def Code.tail : Code → List Byte → List Byte
  | .cmd _, _ => []
  | .wire _ _, rest => rest

/-! ### The rows of the opcode table as numbers -/

/-- The `count` low bytes of `w`, the most significant first (R62). -/
def beBytes : Nat → Nat → List Byte
  | 0, _ => []
  | count + 1, w => BitVec.ofNat 8 (w >>> (8 * count)) :: beBytes count w

/-- The bytes of a table row of `count` bytes, with zero bytes after it up to the longest region (a TPD of 256 bytes). -/
def wireBytes (count w : Nat) : List Byte := beBytes count w ++ List.replicate (256 - count) 0

/-- Which code a number of `nbits` bits stands for, numbered as spec/opcode_table.json numbers it.
DESIGN CHOICE (notes/assumptions/9.md): the table tells the rows of one width apart by the state of the sequencer and
not by their bits, so of the rows that share a width the first of the table is taken. -/
def tableCode (nbits w : Nat) : Option Code :=
  if nbits = 9 ∨ (nbits = 16 ∧ w < 512) then some (.cmd (BitVec.ofNat 9 w))
  else
    match nbits with
    | 8 => some (.wire .spl (wireBytes 1 w))
    | 16 => some (.wire .afHead (wireBytes 2 w))
    | 24 => some (.wire .pwr (wireBytes 3 w))
    | 32 => some (.wire .tsh (wireBytes 4 w))
    | 40 => some (.wire .sms (wireBytes 5 w))
    | 48 => some (.wire .pcr (wireBytes 6 w))
    | _ => none

/-- The instruction the decoder reads from a table row's bits. -/
def decodeTableWord (nbits w : Nat) : Option Instr :=
  match tableCode nbits w with
  | none => none
  | some c =>
    match decode c with
    | .ok (i, _) => some i
    | .error _ => none

end Sys2Proof
end

