-- ==== Sys2Proof/Machine/State.lean ====
section
/-! DEFINITION. The state of TSPP (10_state.md R20): buffer, cursor, result registers in three groups, presence-flag
latches, host registers, budgets and sequencer; the reasons a step can stop; reset. Register names are the spec's in
lower case. -/

namespace Sys2Proof.Machine

/-- The packet buffer `DATA` as (offset, byte) pairs in the canonical form `Memory.wf` (R21, R60). An offset that is not
listed reads as `Config.unlistedByte`. -/
abbrev Memory := List Host.Cell

/-- The five decode errors (60_exceptions.md R230). They are outcomes of operations, recorded in `ERR`; none of them
stops the machine. -/
inductive DecodeError where
  /-- R231. -/
  | outOfData
  /-- R232. -/
  | notByteAligned
  /-- R233. -/
  | invalidBitCount
  /-- R234. -/
  | insufficientBitsInByte
  /-- R235. -/
  | adaptationFieldOverrun
deriving DecidableEq, Repr

/-- The values of `ST` (R38). -/
inductive Status where
  | idle
  | busy
  | doneOk
  | doneErr
deriving DecidableEq, Repr

/-- Group P, the packet (R27). -/
structure GroupP where
  pV : Bool
  sync : Byte
  tei : Bool
  pusi : Bool
  tpri : Bool
  pid : BitVec 13
  tsc : BitVec 2
  afp : Bool
  plp : Bool
  cc : BitVec 4
  afV : Bool
  plV : Bool
  plOff : Nat
  plLen : Nat
deriving DecidableEq, Repr

/-- Group P cleared: every register 0 (R44, R168). -/
def GroupP.clear : GroupP :=
  { pV := false, sync := 0, tei := false, pusi := false, tpri := false, pid := 0, tsc := 0, afp := false, plp := false,
    cc := 0, afV := false, plV := false, plOff := 0, plLen := 0 }

/-- Group A, the adaptation field (R30). The store `TPDB[0..254]` (R32) is held as the list of its leading entries:
`tpdb` lists the bytes that a private-data read copied and every entry past the list is 0 (`GroupA.tpdbRead`). -/
structure GroupA where
  afl : Byte
  di : Bool
  rai : Bool
  espi : Bool
  pcrV : Bool
  pcr : BitVec 48
  opcrV : Bool
  opcr : BitVec 48
  splV : Bool
  splc : Byte
  tpdV : Bool
  tpdl : Byte
  tpdb : List Byte
  afxV : Bool
  stfV : Bool
  stfOff : Nat
  stfLen : Byte
deriving DecidableEq, Repr

/-- Group A cleared: every register 0 (R44, R168). -/
def GroupA.clear : GroupA :=
  { afl := 0, di := false, rai := false, espi := false, pcrV := false, pcr := 0, opcrV := false, opcr := 0, splV := false,
    splc := 0, tpdV := false, tpdl := 0, tpdb := [], afxV := false, stfV := false, stfOff := 0, stfLen := 0 }

/-- Group X, the adaptation-field extension (R34). -/
structure GroupX where
  afxl : Byte
  ltwf : Bool
  pwrf : Bool
  smsf : Bool
  ltwV : Bool
  ltwvf : Bool
  ltwo : BitVec 15
  pwrV : Bool
  pwr : BitVec 22
  smsV : Bool
  splt : BitVec 4
  dts : BitVec 33
deriving DecidableEq, Repr

/-- Group X cleared: every register 0 (R44, R168). -/
def GroupX.clear : GroupX :=
  { afxl := 0, ltwf := false, pwrf := false, smsf := false, ltwV := false, ltwvf := false, ltwo := 0, pwrV := false, pwr := 0,
    smsV := false, splt := 0, dts := 0 }

/-- The five latches `F_PCR`, `F_OPCR`, `F_SPL`, `F_TPD`, `F_AFX` (R36). -/
structure Latches where
  pcr : Bool
  opcr : Bool
  spl : Bool
  tpd : Bool
  afx : Bool
deriving DecidableEq, Repr

/-- The latches cleared (R44, R168). -/
def Latches.clear : Latches := { pcr := false, opcr := false, spl := false, tpd := false, afx := false }

/-- What a host does to the block (00_scope.md R8, 10_state.md R46, 70_reset_and_hazards.md R270, R272). The model's own
input, not a register of the block (notes/assumptions/3.md). -/
inductive HostAction where
  /-- Write bytes to `DATA` from an offset upward (R272 step 1). -/
  | data (offset : Nat) (bytes : List Byte)
  /-- Write `LEN` (R41, R272 step 2). -/
  | len (n : Nat)
  /-- Write `CMD` and let the operation run as one atomic step (R11, R37). -/
  | cmd (w : Cmd)
  /-- Write `CMD` and watch a composite operation run region by region, with `ST` BUSY meanwhile (R38, R42). -/
  | issue (w : Cmd)
  /-- Apply the hardware reset (R270). -/
  | reset
  /-- Do nothing for one step. -/
  | wait
deriving DecidableEq, Repr

/-- The complete state of TSPP (R20), and beside it what the host is about to do. -/
structure State where
  /-- `DATA` (R21). -/
  data : Memory
  /-- `LEN` (R21, R41). -/
  len : Nat
  /-- `BP`, the byte position of the cursor (R22), a natural number as 00_scope.md R7 allows. -/
  bp : Nat
  /-- `BO`, the bit offset of the cursor (R23). -/
  bo : Fin 8
  /-- Group P (R27). -/
  p : GroupP
  /-- Group A (R30). -/
  a : GroupA
  /-- Group X (R34). -/
  x : GroupX
  /-- The presence-flag latches (R36). -/
  f : Latches
  /-- `ST` (R38). -/
  st : Status
  /-- `ERR` (R39): no error, or the error of the last operation by its name; `errCode` gives the number (R237). -/
  err : Option DecodeError
  /-- `RVAL` (R40). -/
  rval : BitVec 16
  /-- `AF_END` (R42), 0 while no composite operation runs. -/
  afEnd : Nat
  /-- `AFX_END` (R42), 0 while no composite operation runs. -/
  afxEnd : Nat
  /-- The sequencer's position (R42): idle, or the composite operation that runs and the region it reads next. -/
  seq : Option (Composite × Region)
  /-- The host's program: what it does next, first action first (R8). Not a register of the block. -/
  script : List HostAction
deriving DecidableEq, Repr

/-- The block has no fault that stops it: each of the five errors ends an operation and leaves the block ready for the
next command (60_exceptions.md R241, R243), so this type has no constructor. -/
inductive Fault
deriving DecidableEq, Repr

/-- Why a step is refused. -/
inductive Refusal where
  /-- Raised by an arm of `exec` whose instruction has no meaning yet; no arm raises it. Safe. -/
  | notModelled (mnemonic : String)
deriving DecidableEq, Repr

/-- The answer of a step of this machine. -/
abbrev Answer := Host.Outcome State Fault Refusal

/-- The machine right after reset (R44, R270): cursor (0, 0), `ST` IDLE, everything else 0, the sequencer idle, and
no host action waiting. `DATA` lists nothing and `LEN` is `Config.resetLen`: R44 leaves both to the host. -/
def State.reset : State :=
  { data := [], len := Config.resetLen, bp := 0, bo := 0, p := .clear, a := .clear, x := .clear, f := .clear,
    st := .idle, err := none, rval := 0, afEnd := 0, afxEnd := 0, seq := none, script := [] }

end Sys2Proof.Machine
end

