-- ==== Sys2Proof/Machine/Flags.lean ====
section
/-! DEFINITION. The presence flags: the block's only flags (10_state.md R36). The flags byte of each length-prefixed
region writes them, and they decide which region of the packet is read next (30_encoding.md R90, R115). -/

namespace Sys2Proof.Machine

/-- The latches as the flags byte of AFH16 gives them (42_adaptation_field.md R184). -/
def Latches.ofHead (h : AfHead) : Latches :=
  { pcr := h.pcr, opcr := h.opcr, spl := h.spl, tpd := h.tpd, afx := h.afx }

/-! The groups of the adaptation field in their fixed order (R182): the first flagged one from a given place on. -/

/-- From the extension on. -/
def Latches.fromAfx (f : Latches) : Option Region := if f.afx then some .afxHead else none

/-- From the private data on. -/
def Latches.fromTpd (f : Latches) : Option Region := if f.tpd then some .tpd else f.fromAfx

/-- From the splice countdown on. -/
def Latches.fromSpl (f : Latches) : Option Region := if f.spl then some .spl else f.fromTpd

/-- From the OPCR on. -/
def Latches.fromOpcr (f : Latches) : Option Region := if f.opcr then some .opcr else f.fromSpl

/-- From the PCR on. -/
def Latches.fromPcr (f : Latches) : Option Region := if f.pcr then some .pcr else f.fromOpcr

/-! The groups of the extension in their fixed order (43_af_extension.md R220). -/

/-- From the seamless splice on. -/
def GroupX.fromSms (x : GroupX) : Option Region := if x.smsf then some .sms else none

/-- From the piecewise rate on. -/
def GroupX.fromPwr (x : GroupX) : Option Region := if x.pwrf then some .pwr else x.fromSms

/-- From the legal time window on. -/
def GroupX.fromLtw (x : GroupX) : Option Region := if x.ltwf then some .ltw else x.fromPwr

end Sys2Proof.Machine
end

