-- ==== Sys2Proof/Machine/Operands.lean ====
section
/-! DEFINITION. Bit-field selection, the advance of the cursor, the assembly of multi-bit fields, and the numeric codes
of `ST` and `ERR`. -/

namespace Sys2Proof.Machine

/-- `ext(B, b, n)` (40_cursor.md R140): the `n` bits of `B` that start `b` bits below its most significant bit,
`(B >> (8 - b - n)) & (2^n - 1)`. -/
def ext (B : Byte) (b n : Nat) : Nat := (B.toNat >>> (8 - b - n)) &&& (2 ^ n - 1)

/-- `adv(p, b, k)` (R139). -/
def adv (p b k : Nat) : Nat × Fin 8 := if b + k = 8 then (p + 1, 0) else (p, Fin.ofNat 8 (b + k))

/-- The bit address `8 * BP + BO` of the next unread bit (10_state.md R26). -/
def State.bitAddr (s : State) : Nat := 8 * s.bp + s.bo.val

/-- Entry `i` of `TPDB` (10_state.md R32): 0 past the bytes that were copied. -/
def GroupA.tpdbRead (a : GroupA) (i : Nat) : Byte := a.tpdb.getD i 0

/-- PCR and OPCR from six bytes, big-endian (30_encoding.md R105). -/
def assembleClock (b0 b1 b2 b3 b4 b5 : Byte) : BitVec 48 := b0 ++ b1 ++ b2 ++ b3 ++ b4 ++ b5

/-- `PWR = (h << 8) | l`, 22 bits, `h` the 14 bits of the wide read (R106). -/
def assembleRate (h : BitVec 16) (l : Byte) : BitVec 22 := h.setWidth 14 ++ l

/-- `DTS = (d2 << 30) | (d1 << 15) | d0`, 33 bits (R107). -/
def assembleDts (d2 : BitVec 3) (d1 d0 : BitVec 15) : BitVec 33 := d2 ++ d1 ++ d0

/-- The number of each value of `ST` (10_state.md R38). -/
def Status.code : Status → BitVec 2
  | .idle => 0
  | .busy => 1
  | .doneOk => 2
  | .doneErr => 3

/-- The number of each error (60_exceptions.md R237). -/
def DecodeError.code : DecodeError → BitVec 3
  | .outOfData => 1
  | .notByteAligned => 2
  | .invalidBitCount => 3
  | .insufficientBitsInByte => 4
  | .adaptationFieldOverrun => 5

/-- What `ERR` holds: 0 for no error (R237). -/
def errCode : Option DecodeError → BitVec 3
  | none => 0
  | some e => e.code

end Sys2Proof.Machine
end

