-- ==== Sys2Proof/Machine/Ops.lean ====
section
/-! DEFINITION. The shared operations: memory, the cursor's primitive reads, the budget check, raising an error and
ending an operation. An operation in progress is an `Op`: it answers a value and a state, or an error and the state in
which it was raised. -/

namespace Sys2Proof.Machine

/-! ### The packet buffer (20_memory.md) -/

/-- The byte at offset `a`. -/
def Memory.read : Memory → Nat → Byte
  | [], _ => Config.unlistedByte
  | (k, v) :: t, a => if k = a then v else Memory.read t a

/-- Memory with `b` at offset `a`, in canonical form when it was. -/
def Memory.write : Memory → Nat → Byte → Memory
  | [], a, b => if b = Config.unlistedByte then [] else [(a, b)]
  | (k, v) :: t, a, b =>
    if a < k then (if b = Config.unlistedByte then (k, v) :: t else (a, b) :: (k, v) :: t)
    else if a = k then (if b = Config.unlistedByte then t else (a, b) :: t)
    else (k, v) :: Memory.write t a b

/-- Memory with `bs` at the offsets from `a` upward. -/
def Memory.writeBytes : Memory → Nat → List Byte → Memory
  | m, _, [] => m
  | m, a, b :: bs => Memory.writeBytes (Memory.write m a b) (a + 1) bs

/-- The canonical form from offset `lo` on: offsets strictly rising, no entry equal to what an unlisted offset reads. -/
def Memory.wfFrom : Nat → Memory → Bool
  | _, [] => true
  | lo, (k, v) :: t => decide (lo ≤ k) && decide (v ≠ Config.unlistedByte) && Memory.wfFrom (k + 1) t

/-- The canonical form of memory. -/
def Memory.wf (m : Memory) : Bool := Memory.wfFrom 0 m

/-- `MemRead(a, 1)` (00_scope.md R10): the byte `DATA[a]`. Every rule that uses it has checked `a < LEN`. -/
def State.memRead (s : State) (a : Nat) : Byte := s.data.read a

/-! ### Operations in progress -/

/-- An operation of the block, or a part of one, on the state. An error keeps the state it was raised in, so that the
cursor stands where the failing primitive found it (60_exceptions.md R242). -/
abbrev Op (α : Type) := EStateM DecodeError State α

/-- `raise E` (00_scope.md R10): end the current operation with error `E`. -/
def raise {α : Type} (e : DecodeError) : Op α := fun s => .error e s

/-- `cur <- (p, b)` (00_scope.md R10). -/
def State.seek (s : State) (c : Nat × Fin 8) : State := { s with bp := c.1, bo := c.2 }

/-- `v <- m`, or `v` as an instruction already decoded gives it: the reads of `m` are performed either way. -/
def given {α : Type} (v : Option α) (m : Op α) : Op α := do
  let read ← m
  return v.getD read

/-- Run `m` if and only if the presence flag is set. -/
def onFlag (flag : State → Bool) (m : Op Unit) : Op Unit := fun s => if flag s then m s else .ok () s

/-! ### The bit cursor BC (40_cursor.md) -/

/-- `OPEN` (R131): the cursor at the first bit. -/
def rewind : Op Unit := fun s => .ok () (s.seek (0, 0))

/-- `PBIT` (R132). -/
def pbit : Op Bool := fun s =>
  if s.len ≤ s.bp then .error .outOfData s
  else .ok (ext (s.memRead s.bp) s.bo 1 == 1) (s.seek (adv s.bp s.bo 1))

/-- `PBITS(n)` (R133). -/
def pbits (n : Nat) : Op Byte := fun s =>
  if n = 0 ∨ 8 < n then .error .invalidBitCount s
  else if 8 < s.bo.val + n then .error .insufficientBitsInByte s
  else if s.len ≤ s.bp then .error .outOfData s
  else .ok (BitVec.ofNat 8 (ext (s.memRead s.bp) s.bo n)) (s.seek (adv s.bp s.bo n))

/-- `PBYTE` (R134). -/
def pbyte : Op Byte := fun s =>
  if s.bo ≠ 0 then .error .notByteAligned s
  else if s.len ≤ s.bp then .error .outOfData s
  else .ok (s.memRead s.bp) (s.seek (s.bp + 1, 0))

/-- `PWIDE(n)` (R135), with `r` the bits left in the current byte and `n - r` the bits taken from the next. -/
def pwide (n : Nat) : Op (BitVec 16) := fun s =>
  let r := 8 - s.bo.val
  let k := n - r
  if n = 0 ∨ 16 < n then .error .invalidBitCount s
  else if n ≤ r then .error .invalidBitCount s
  else if 8 < k then .error .invalidBitCount s
  else if s.len ≤ s.bp + 1 then .error .outOfData s
  else
    let hi := ext (s.memRead s.bp) s.bo r
    let lo := ext (s.memRead (s.bp + 1)) 0 k
    .ok (BitVec.ofNat 16 ((hi <<< k) ||| lo)) (s.seek (adv (s.bp + 1) 0 k))

/-! ### Pseudo-operations (30_encoding.md R112, R113) and the budget check (42_adaptation_field.md R181) -/

/-- `PULL48()` (R112): six `PBYTE`. -/
def pull48 : Op (BitVec 48) := do
  let b0 ← pbyte
  let b1 ← pbyte
  let b2 ← pbyte
  let b3 ← pbyte
  let b4 ← pbyte
  let b5 ← pbyte
  return assembleClock b0 b1 b2 b3 b4 b5

/-- `k` times `PBYTE`, the values kept in order. -/
def pullBytes : Nat → Op (List Byte)
  | 0 => pure []
  | k + 1 => do
    let b ← pbyte
    let bs ← pullBytes k
    return b :: bs

/-- `SKIP(k)` (R113): `k` times `PBYTE`, the values discarded. -/
def skip : Nat → Op Unit
  | 0 => pure ()
  | k + 1 => do
    let _ ← pbyte
    skip k

/-- `need(k, end)` (R181): `if BP + k > end: raise AdaptationFieldOverrun`. -/
def need (k stop : Nat) : Op Unit := fun s =>
  if stop < s.bp + k then .error .adaptationFieldOverrun s else .ok () s

/-- `need(k, limit)` with the limit that a stand-alone `AFX` lacks (43_af_extension.md R210): no limit, no error. -/
def needWithin (k : Nat) : Option Nat → Op Unit
  | none => pure ()
  | some stop => need k stop

/-! ### Raising an error, and ending an operation -/

/-- Which kind of command an error ends (60_exceptions.md R241). -/
inductive CommandKind where
  /-- A cursor command `OPEN`, `PBIT`, `PBITS`, `PBYTE`, `PWIDE` issued by the host (40_cursor.md R141). -/
  | raw
  /-- A composite operation `HDR`, `AF`, `AFX`, `DECODE` (41_packet_decoder.md R168). -/
  | composite
deriving DecidableEq, Repr

/-- The end of a composite operation: nothing of the budgets and of the sequencer's position survives it (10_state.md
R42). -/
def State.leaveSequencer (s : State) : State := { s with afEnd := 0, afxEnd := 0, seq := none }

/-- TAKING AN ERROR (60_exceptions.md R241). A raw primitive: `RVAL <- 0; ERR <- code; ST <- 3`, all else as it was. A
composite operation: every result register and latch cleared, `ERR <- code; ST <- 3`, `RVAL` as it was, the cursor where
the failing primitive found it. Control goes nowhere: there is no handler, vector or mode, and there is no return from
an error (R243); the block is ready for the next command. -/
def State.takeError (kind : CommandKind) (e : DecodeError) (s : State) : State :=
  match kind with
  | .raw => { s with rval := 0, err := some e, st := .doneErr }
  | .composite =>
    { s.leaveSequencer with p := .clear, a := .clear, x := .clear, f := .clear, err := some e, st := .doneErr }

/-- The successful end of a composite operation: `ERR <- 0; ST <- 2` (R161, R162, R182, R211). -/
def State.finish (s : State) : State := { s.leaveSequencer with err := none, st := .doneOk }

/-- A cursor command as the host sees it (40_cursor.md R141): a value goes to `RVAL`, an error is taken. -/
def settleRaw {α : Type} (value : α → BitVec 16) (m : Op α) (s : State) : Answer :=
  match m s with
  | .ok v s' => .next { s' with rval := value v, err := none, st := .doneOk }
  | .error e s' => .next (s'.takeError .raw e)

/-- A composite operation, or one region of it, as the host sees it: it commits what it wrote, or its error is taken
(41_packet_decoder.md R168). -/
def settleComposite (m : Op Unit) (s : State) : Answer :=
  match m s with
  | .ok _ s' => .next s'
  | .error e s' => .next (s'.takeError .composite e)

/-- Every result register and every latch cleared (70_reset_and_hazards.md R271). -/
def State.clearAll (s : State) : State := { s with p := .clear, a := .clear, x := .clear, f := .clear }

/-- Groups P, A and X cleared, as `HDR` stand-alone does (R271). -/
def State.clearGroups (s : State) : State := { s with p := .clear, a := .clear, x := .clear }

/-- Groups A, X and the latches cleared, as `AF` does (R182). -/
def State.clearAf (s : State) : State := { s with a := .clear, x := .clear, f := .clear }

/-- Group X cleared, as `AFX` does (R211). -/
def State.clearX (s : State) : State := { s with x := .clear }

end Sys2Proof.Machine
end

