-- ==== Sys2Proof/Machine/Cursor.lean ====
section
/-! DEFINITION. The cursor commands (40_cursor.md): `OPEN` and the four primitive reads, issued by the host. -/

namespace Sys2Proof.Machine

/-- `OPEN` (R131, R141): `cur <- (0, 0); RVAL <- 0; ERR <- 0; ST <- 2`, for any value of `n` (R111). -/
def execOpen (_n : BitVec 5) (s : State) : Answer := settleRaw (fun _ => 0) rewind s

/-- `PBIT` (R132, R141), for any value of `n` (R111). -/
def execPbit (_n : BitVec 5) (s : State) : Answer := settleRaw (fun v => (bit v).setWidth 16) pbit s

/-- `PBITS n` (R133, R141). -/
def execPbits (n : BitVec 5) (s : State) : Answer := settleRaw (fun v => v.setWidth 16) (pbits n.toNat) s

/-- `PBYTE` (R134, R141), for any value of `n` (R111). -/
def execPbyte (_n : BitVec 5) (s : State) : Answer := settleRaw (fun v => v.setWidth 16) pbyte s

/-- `PWIDE n` (R135, R141). -/
def execPwide (n : BitVec 5) (s : State) : Answer := settleRaw id (pwide n.toNat) s

end Sys2Proof.Machine
end

