-- ==== Sys2Proof/Machine/Groups.lean ====
section
/-! DEFINITION. The reads of every region of the packet, each once. A region takes an optional instruction `o`: with
`none` its fields are what the cursor reads from the buffer, with `some` they are the fields of an instruction that the
decoder has read there; the cursor moves by the same primitive reads, and the same errors are raised, either way. -/

namespace Sys2Proof.Machine

/-- The nine reads of the header, in wire order (41_packet_decoder.md R161), with the selector bits `AFP` and `PLP`. -/
def readHdr : Op (Tsh × Bool × Bool) := do
  let sync ← pbyte
  let tei ← pbit
  let pusi ← pbit
  let tpri ← pbit
  let pid ← pwide 13
  let tsc ← pbits 2
  let afp ← pbit
  let plp ← pbit
  let cc ← pbits 4
  return ({ sync := sync, tei := tei, pusi := pusi, tpri := tpri, pid := pid.setWidth 13, tsc := tsc.setWidth 2,
            cc := cc.setWidth 4 }, afp, plp)

/-- The header registers and `P_V` written (R161). -/
def State.putHdr (s : State) (h : Tsh) (afp plp : Bool) : State :=
  { s with p := { s.p with
      pV := true, sync := h.sync, tei := h.tei, pusi := h.pusi, tpri := h.tpri, pid := h.pid, tsc := h.tsc,
      afp := afp, plp := plp, cc := h.cc } }

/-- The header region (R161). -/
def hdrGroup (o : Option (Tsh × Bool × Bool)) : Op Unit := do
  let (h, afp, plp) ← given o readHdr
  modify fun s => s.putHdr h afp plp

/-- The offset just past `n` bytes from the cursor: `BP + n` (R183, R212). -/
def endAfter (n : Byte) : Op Nat := fun s => .ok (s.bp + n.toNat) s

/-- The eight bits of the flags byte of AFH16, behind its budget check (42_adaptation_field.md R184); `len` stands in
the answer as it was given. -/
def readAfFlags (len : Byte) (stop : Nat) : Op AfHead := do
  need 1 stop
  let di ← pbit
  let rai ← pbit
  let espi ← pbit
  let pcr ← pbit
  let opcr ← pbit
  let spl ← pbit
  let tpd ← pbit
  let afx ← pbit
  return { len := len, di := di, rai := rai, espi := espi, pcr := pcr, opcr := opcr, spl := spl, tpd := tpd, afx := afx }

/-- `AFL`, the indicators, the latches and the budget `AF_END` written (R183, R184). -/
def State.putAfHead (s : State) (h : AfHead) (stop : Nat) : State :=
  { s with
    a := { s.a with afl := h.len, di := h.di, rai := h.rai, espi := h.espi }
    f := .ofHead h
    afEnd := stop }

/-- The head of the adaptation field: length byte, budget, flags byte (R183, R184). -/
def afHeadGroup (o : Option AfHead) : Op Unit := do
  let len ← given (o.map (·.len)) pbyte
  let stop ← endAfter len
  let h ← given o (readAfFlags len stop)
  modify fun s => s.putAfHead h stop

/-- `need(k, AF_END)` (R181). -/
def needAf (k : Nat) : Op Unit := fun s => need k s.afEnd s

/-- `need(k, AFX_END)` (43_af_extension.md R213 to R216). -/
def needAfx (k : Nat) : Op Unit := fun s => need k s.afxEnd s

/-- The PCR group (42_adaptation_field.md R185). -/
def pcrGroup (o : Option (BitVec 48)) : Op Unit := do
  needAf 6
  let v ← given o pull48
  modify fun s => { s with a := { s.a with pcr := v, pcrV := true } }

/-- The OPCR group (R186). -/
def opcrGroup (o : Option (BitVec 48)) : Op Unit := do
  needAf 6
  let v ← given o pull48
  modify fun s => { s with a := { s.a with opcr := v, opcrV := true } }

/-- The splice countdown (R187). -/
def splGroup (o : Option Byte) : Op Unit := do
  needAf 1
  let c ← given o pbyte
  modify fun s => { s with a := { s.a with splc := c, splV := true } }

/-- The transport private data (R188): length byte, its budget, and the bytes into `TPDB`. -/
def tpdGroup (o : Option (Byte × List Byte)) : Op Unit := do
  needAf 1
  let n ← given (o.map (·.1)) pbyte
  needAf n.toNat
  let bytes ← given (o.map (·.2)) (pullBytes n.toNat)
  modify fun s => { s with a := { s.a with tpdl := n, tpdb := bytes, tpdV := true } }

/-- `AFX_END <- BP + AFXL`, refused when it passes the limit (43_af_extension.md R212). -/
def extensionEnd (len : Byte) (limit : Option Nat) : Op Nat := fun s =>
  match limit with
  | none => .ok (s.bp + len.toNat) s
  | some stop => if stop < s.bp + len.toNat then .error .adaptationFieldOverrun s else .ok (s.bp + len.toNat) s

/-- The three flags and the five reserved bits of AFXH16, behind their budget check (R213). -/
def readAfxFlags (len : Byte) (stop : Nat) : Op AfxHead := do
  need 1 stop
  let ltw ← pbit
  let pwr ← pbit
  let sms ← pbit
  let reserved ← pbits 5
  return { len := len, ltw := ltw, pwr := pwr, sms := sms, reserved := reserved.setWidth 5 }

/-- `AFXL`, the three flags and the budget `AFX_END` written; the reserved bits reach no register (R212, R213). -/
def State.putAfxHead (s : State) (h : AfxHead) (stop : Nat) : State :=
  { s with
    x := { s.x with afxl := h.len, ltwf := h.ltw, pwrf := h.pwr, smsf := h.sms }
    afxEnd := stop }

/-- The head of the extension: length byte within the limit, budget, flags byte (R212, R213). -/
def afxHeadGroup (o : Option AfxHead) (limit : Option Nat) : Op Unit := do
  needWithin 1 limit
  let len ← given (o.map (·.len)) pbyte
  let stop ← extensionEnd len limit
  let h ← given o (readAfxFlags len stop)
  modify fun s => s.putAfxHead h stop

/-- The two reads of the legal time window (R214). -/
def readLtw : Op (Bool × BitVec 15) := do
  let valid ← pbit
  let offset ← pwide 15
  return (valid, offset.setWidth 15)

/-- The legal time window (R214). -/
def ltwGroup (o : Option (Bool × BitVec 15)) : Op Unit := do
  needAfx 2
  let (valid, offset) ← given o readLtw
  modify fun s => { s with x := { s.x with ltwvf := valid, ltwo := offset, ltwV := true } }

/-- The three reads of the piecewise rate; the two reserved bits are discarded (R215). -/
def readRate : Op (BitVec 22) := do
  let _ ← pbits 2
  let h ← pwide 14
  let l ← pbyte
  return assembleRate h l

/-- The piecewise rate (R215). -/
def pwrGroup (o : Option (BitVec 22)) : Op Unit := do
  needAfx 3
  let rate ← given o readRate
  modify fun s => { s with x := { s.x with pwr := rate, pwrV := true } }

/-- The seven reads of the seamless splice; the marker bits are discarded (R216). -/
def readSms : Op (BitVec 4 × BitVec 33) := do
  let splt ← pbits 4
  let d2 ← pbits 3
  let _ ← pbit
  let d1 ← pwide 15
  let _ ← pbit
  let d0 ← pwide 15
  let _ ← pbit
  return (splt.setWidth 4, assembleDts (d2.setWidth 3) (d1.setWidth 15) (d0.setWidth 15))

/-- The seamless splice (R216). -/
def smsGroup (o : Option (BitVec 4 × BitVec 33)) : Op Unit := do
  needAfx 5
  let (splt, dts) ← given o readSms
  modify fun s => { s with x := { s.x with splt := splt, dts := dts, smsV := true } }

/-- The padding of the extension, consumed and not retained (R217). -/
def afxPadding : Op Unit := fun s => skip (s.afxEnd - s.bp) s

/-- The stuffing (42_adaptation_field.md R190): named by offset and length when there is any, and consumed. -/
def stuffing : Op Unit := fun s =>
  let k := s.afEnd - s.bp
  if k = 0 then .ok () s
  else skip k { s with a := { s.a with stfV := true, stfOff := s.bp, stfLen := BitVec.ofNat 8 k } }

/-- The payload multiplexer (41_packet_decoder.md R163): the remaining bytes named, none read. -/
def payload : Op Unit := modify fun s => { s with p := { s.p with plV := true, plOff := s.bp, plLen := s.len - s.bp } }

end Sys2Proof.Machine
end

