-- ==== Sys2Proof/Machine/Sequencer.lean ====
section
/-! DEFINITION. The sequencer SEQ (00_scope.md R2) when a composite operation is watched region by region: where it
stands, which region comes after one that was read, and how the operation ends. The atomic operations of Header.lean,
Extension.lean, Adaptation.lean and Packet.lean do the same in one step. -/

namespace Sys2Proof.Machine

/-- What a decoder clears before its first read: `AF` groups A, X and the latches (42_adaptation_field.md R182), `AFX`
group X (43_af_extension.md R211). -/
def State.enterRegion (s : State) : Region → State
  | .afHead => s.clearAf
  | .afxHead => s.clearX
  | .tsh | .pcr | .opcr | .spl | .tpd | .ltw | .pwr | .sms => s

/-- The sequencer waits at region `r` of the composite operation `op`. -/
def State.parkAt (op : Composite) (r : Region) (s : State) : State := { s.enterRegion r with seq := some (op, r) }

/-- The sequencer goes to the region given, or, with none left, does `rest`. -/
def parkOr (op : Composite) (next : Option Region) (rest : Op Unit) : Op Unit :=
  match next with
  | some r => modify (State.parkAt op r)
  | none => rest

/-- `ERR <- 0; ST <- 2`, and the sequencer idle. -/
def finishOp : Op Unit := modify State.finish

/-- The end of a packet: under `DECODE` the payload is selected iff `PLP` is set (41_packet_decoder.md R162, R164). -/
def endPacket (op : Composite) : Op Unit := do
  onFlag (fun s => decide (op = .decode) && s.p.plp) payload
  finishOp

/-- The end of an adaptation field: stuffing, `AF_V <- 1` (42_adaptation_field.md R182, R190). -/
def endAf (op : Composite) : Op Unit := do
  stuffing
  modify fun s => { s with p := { s.p with afV := true } }
  endPacket op

/-- The end of an extension: padding, `AFX_V <- 1`, and the end of the adaptation field around it if there is one
(43_af_extension.md R211, R217). -/
def endAfx (op : Composite) : Op Unit := do
  afxPadding
  modify fun s => { s with a := { s.a with afxV := true } }
  if op = .afx then finishOp else endAf op

/-- The region after `r` in the composite operation `op`, as the flags decide (30_encoding.md R90, R92, R115): the first
flagged one of those that remain, `none` when the structure that `r` belongs to has no more. -/
def nextRegion (op : Composite) (r : Region) (s : State) : Option Region :=
  match r with
  | .tsh => if op = .decode ∧ s.p.afp = true then some .afHead else none
  | .afHead => s.f.fromPcr
  | .pcr => s.f.fromOpcr
  | .opcr => s.f.fromSpl
  | .spl => s.f.fromTpd
  | .tpd => s.f.fromAfx
  | .afxHead => s.x.fromLtw
  | .ltw => s.x.fromPwr
  | .pwr => s.x.fromSms
  | .sms => none

/-- What the end of the structure that `r` belongs to does. -/
def endStructure (op : Composite) : Region → Op Unit
  | .tsh => endPacket op
  | .afHead | .pcr | .opcr | .spl | .tpd => endAf op
  | .afxHead | .ltw | .pwr | .sms => endAfx op

/-- On from region `r` of the composite operation `op`: to the next region, or to the end of the structure. -/
def advance (op : Composite) (r : Region) : Op Unit := fun s => parkOr op (nextRegion op r s) (endStructure op r) s

/-- The limit an extension must stay within (43_af_extension.md R210): `AF_END` inside an adaptation field, none when
`AFX` runs alone. -/
def State.limit (s : State) (op : Composite) : Option Nat := if op = .afx then none else some s.afEnd

/-- The composite operation that is running; a region met outside of one is treated as part of `alone`. -/
def State.running (s : State) (alone : Composite) : Composite :=
  match s.seq with
  | some (op, _) => op
  | none => alone

/-- The reads of region `r`, its fields taken from the buffer. -/
def regionReads (op : Composite) : Region → Op Unit
  | .tsh => hdrGroup none
  | .afHead => afHeadGroup none
  | .pcr => pcrGroup none
  | .opcr => opcrGroup none
  | .spl => splGroup none
  | .tpd => tpdGroup none
  | .afxHead => fun s => afxHeadGroup none (s.limit op) s
  | .ltw => ltwGroup none
  | .pwr => pwrGroup none
  | .sms => smsGroup none

/-- One region of a composite operation: its reads, then on to what follows it; an error is taken. -/
def runRegion (op : Composite) (r : Region) (reads : Op Unit) (s : State) : Answer :=
  settleComposite (do reads; advance op r) s

/-- The start of a composite operation that is to be watched: its groups cleared, the cursor rewound by `DECODE`, `ST`
BUSY (70_reset_and_hazards.md R271; 10_state.md R38). -/
def State.start (op : Composite) (s : State) : State :=
  match op with
  | .decode => { (s.clearAll.seek (0, 0)).parkAt op .tsh with st := .busy }
  | .hdr => { s.clearGroups.parkAt op .tsh with st := .busy }
  | .af => { s.parkAt op .afHead with st := .busy }
  | .afx => { s.parkAt op .afxHead with st := .busy }

end Sys2Proof.Machine
end

