-- ==== Sys2Proof/Machine/Extension.lean ====
section
/-! DEFINITION. The extension decoder AFXD (43_af_extension.md): `AFX` and the regions of the extension. -/

namespace Sys2Proof.Machine

/-- `AFX(limit)` (R211), up to and with its padding. -/
def afxSeq (limit : Option Nat) : Op Unit := do
  modify State.clearX
  afxHeadGroup none limit
  onFlag (·.x.ltwf) (ltwGroup none)
  onFlag (·.x.pwrf) (pwrGroup none)
  onFlag (·.x.smsf) (smsGroup none)
  afxPadding

/-- `AFX` stand-alone (R211): no limit, `AFX_V <- 1` at the end, then `ERR <- 0; ST <- 2`. -/
def afxOp : Op Unit := do
  afxSeq none
  modify fun s => { s with a := { s.a with afxV := true } }
  finishOp

/-- `AFX` (R211, 41_packet_decoder.md R168), for any value of `n` (30_encoding.md R111). -/
def execAfx (_n : BitVec 5) (s : State) : Answer := settleComposite afxOp s

/-- `AFX.HEAD` (R212, R213). -/
def execAfxHead (h : AfxHead) (s : State) : Answer :=
  runRegion (s.running .afx) .afxHead (afxHeadGroup (some h) (s.limit (s.running .afx))) s

/-- `AFX.LTW` (R214). -/
def execAfxLtw (valid : Bool) (offset : BitVec 15) (s : State) : Answer :=
  runRegion (s.running .afx) .ltw (ltwGroup (some (valid, offset))) s

/-- `AFX.PWR` (R215); the reserved bits reach no register. -/
def execAfxPwr (_reserved : BitVec 2) (rate : BitVec 22) (s : State) : Answer :=
  runRegion (s.running .afx) .pwr (pwrGroup (some rate)) s

/-- `AFX.SMS` (R216); the marker bits reach no register. -/
def execAfxSms (f : Sms) (s : State) : Answer :=
  runRegion (s.running .afx) .sms (smsGroup (some (f.splt, assembleDts f.d2 f.d1 f.d0))) s

end Sys2Proof.Machine
end

