-- ==== Sys2Proof/Machine/Adaptation.lean ====
section
/-! DEFINITION. The adaptation-field decoder AFD (42_adaptation_field.md): `AF` and the regions of the field. -/

namespace Sys2Proof.Machine

/-- `AFX(AF_END)` (R189). -/
def afxWithinField : Op Unit := fun s => afxSeq (some s.afEnd) s

/-- The extension inside an adaptation field (R189): `AFX(AF_END)`, then `AFX_V <- 1`. -/
def extensionGroup : Op Unit := do
  afxWithinField
  modify fun s => { s with a := { s.a with afxV := true } }

/-- `AF` (R182). -/
def afSeq : Op Unit := do
  modify State.clearAf
  afHeadGroup none
  onFlag (·.f.pcr) (pcrGroup none)
  onFlag (·.f.opcr) (opcrGroup none)
  onFlag (·.f.spl) (splGroup none)
  onFlag (·.f.tpd) (tpdGroup none)
  onFlag (·.f.afx) extensionGroup
  stuffing
  modify fun s => { s with p := { s.p with afV := true } }

/-- `AF` stand-alone: `ERR <- 0; ST <- 2` at the end. -/
def afOp : Op Unit := do
  afSeq
  finishOp

/-- `AF` (R182, 41_packet_decoder.md R168), for any value of `n` (30_encoding.md R111). -/
def execAf (_n : BitVec 5) (s : State) : Answer := settleComposite afOp s

/-- `AF.HEAD` (R183, R184). -/
def execAfHead (h : AfHead) (s : State) : Answer := runRegion (s.running .af) .afHead (afHeadGroup (some h)) s

/-- `AF.PCR` (R185). -/
def execAfPcr (v : BitVec 48) (s : State) : Answer := runRegion (s.running .af) .pcr (pcrGroup (some v)) s

/-- `AF.OPCR` (R186). -/
def execAfOpcr (v : BitVec 48) (s : State) : Answer := runRegion (s.running .af) .opcr (opcrGroup (some v)) s

/-- `AF.SPLICE` (R187). -/
def execAfSplice (c : Byte) (s : State) : Answer := runRegion (s.running .af) .spl (splGroup (some c)) s

/-- `AF.PRIVATE` (R188). -/
def execAfPrivate (n : Byte) (bytes : List Byte) (s : State) : Answer :=
  runRegion (s.running .af) .tpd (tpdGroup (some (n, bytes))) s

end Sys2Proof.Machine
end

