-- ==== Sys2Proof/Machine/Header.lean ====
section
/-! DEFINITION. The header extractor HX (41_packet_decoder.md): the command `HDR` and the four header variants. -/

namespace Sys2Proof.Machine

/-- `HDR` stand-alone (R161): groups P, A and X cleared, the nine reads, then `ERR <- 0; ST <- 2`. -/
def hdrOp : Op Unit := do
  modify State.clearGroups
  hdrGroup none
  finishOp

/-- `HDR` (R161, R168), for any value of `n` (R111). -/
def execHdr (_n : BitVec 5) (s : State) : Answer := settleComposite hdrOp s

/-- A header of the packet that the sequencer has reached: its registers written, then on to what `AFP` and `PLP` select
(30_encoding.md R92). -/
def execTsh (h : Tsh) (afp plp : Bool) (s : State) : Answer :=
  runRegion (s.running .decode) .tsh (hdrGroup (some (h, afp, plp))) s

/-- `TSP.NONE` (R92): header only. -/
def execTspNone (h : Tsh) (s : State) : Answer := execTsh h false false s

/-- `TSP.PAYLOAD` (R92): header, then payload. -/
def execTspPayload (h : Tsh) (s : State) : Answer := execTsh h false true s

/-- `TSP.AF` (R92): header, then adaptation field. -/
def execTspAf (h : Tsh) (s : State) : Answer := execTsh h true false s

/-- `TSP.AF_PAYLOAD` (R92): header, then adaptation field, then payload. -/
def execTspAfPayload (h : Tsh) (s : State) : Answer := execTsh h true true s

end Sys2Proof.Machine
end

