-- ==== Sys2Proof/Machine/Packet.lean ====
section
/-! DEFINITION. The packet decoder (41_packet_decoder.md): `DECODE`, and its result as one value (R166). -/

namespace Sys2Proof.Machine

/-- `DECODE` (R162): everything cleared, the cursor rewound, the header, the adaptation field iff `AFP`, the payload iff
`PLP`, then `ERR <- 0; ST <- 2`. -/
def decodeOp : Op Unit := do
  modify State.clearAll
  rewind
  hdrGroup none
  onFlag (·.p.afp) afSeq
  onFlag (·.p.plp) payload
  finishOp

/-- `DECODE` (R162, R168), for any value of `n` (30_encoding.md R111). -/
def execDecode (_n : BitVec 5) (s : State) : Answer := settleComposite decodeOp s

/-! ### The result as a record (R166) -/

/-- The source's AdaptationFieldExtension. -/
structure AdaptationFieldExtension where
  adaptationExtensionLength : Byte
  legalTimeWindowFlag : Bool
  piecewiseRateFlag : Bool
  seamlessRateFlag : Bool
  legalTimeWindowValidFlag : Option Bool
  legalTimeWindowOffset : Option (BitVec 15)
  piecewiseRate : Option (BitVec 22)
  spliceType : Option (BitVec 4)
  dtsNextAccessUnit : Option (BitVec 33)
deriving DecidableEq, Repr

/-- The source's AdaptationField. -/
structure AdaptationField where
  fieldLength : Byte
  discontinuityIndicator : Bool
  randomAccessIndicator : Bool
  elementaryStreamPriorityIndicator : Bool
  pcr : Option (BitVec 48)
  opcr : Option (BitVec 48)
  spliceCountdown : Option Byte
  transportPrivateData : Option (List Byte)
  adaptationExtension : Option AdaptationFieldExtension
  stuffingBytes : Option (List Byte)
deriving DecidableEq, Repr

/-- The source's TSPacket. -/
structure TSPacket where
  syncByte : Byte
  transportErrorIndicator : Bool
  payloadUnitStartIndicator : Bool
  transportPriority : Bool
  pid : BitVec 13
  scramblingControl : BitVec 2
  adaptationFieldPresent : Bool
  payloadPresent : Bool
  continuityCounter : BitVec 4
  adaptationField : Option AdaptationField
  payload : Option (List Byte)
deriving DecidableEq, Repr

/-- `if v then some(x) else none`, the shape of every optional field of R166. -/
def present {α : Type} (v : Bool) (x : α) : Option α := if v then some x else none

/-- `DATA[o .. o+n-1]`: the bytes a borrowed slice names (10_state.md R29, R33). -/
def State.bytesAt (s : State) (o : Nat) : Nat → List Byte
  | 0 => []
  | n + 1 => s.memRead o :: s.bytesAt (o + 1) n

/-- Group X as a record (R166). -/
def GroupX.record (x : GroupX) : AdaptationFieldExtension :=
  { adaptationExtensionLength := x.afxl, legalTimeWindowFlag := x.ltwf, piecewiseRateFlag := x.pwrf,
    seamlessRateFlag := x.smsf, legalTimeWindowValidFlag := present x.ltwV x.ltwvf,
    legalTimeWindowOffset := present x.ltwV x.ltwo, piecewiseRate := present x.pwrV x.pwr,
    spliceType := present x.smsV x.splt, dtsNextAccessUnit := present x.smsV x.dts }

/-- The bytes `TPDB[0 .. TPDL-1]` (10_state.md R32). -/
def GroupA.privateData (a : GroupA) : List Byte := (List.range a.tpdl.toNat).map a.tpdbRead

/-- Group A as a record (R166). -/
def State.fieldRecord (s : State) : AdaptationField :=
  { fieldLength := s.a.afl, discontinuityIndicator := s.a.di, randomAccessIndicator := s.a.rai,
    elementaryStreamPriorityIndicator := s.a.espi, pcr := present s.a.pcrV s.a.pcr, opcr := present s.a.opcrV s.a.opcr,
    spliceCountdown := present s.a.splV s.a.splc, transportPrivateData := present s.a.tpdV s.a.privateData,
    adaptationExtension := present s.a.afxV s.x.record,
    stuffingBytes := present s.a.stfV (s.bytesAt s.a.stfOff s.a.stfLen.toNat) }

/-- Group P, and under it the others, as a record (R166). -/
def State.packetRecord (s : State) : TSPacket :=
  { syncByte := s.p.sync, transportErrorIndicator := s.p.tei, payloadUnitStartIndicator := s.p.pusi,
    transportPriority := s.p.tpri, pid := s.p.pid, scramblingControl := s.p.tsc, adaptationFieldPresent := s.p.afp,
    payloadPresent := s.p.plp, continuityCounter := s.p.cc, adaptationField := present s.p.afV s.fieldRecord,
    payload := present s.p.plV (s.bytesAt s.p.plOff s.p.plLen) }

/-- The result of the last operation as the source's `TSPacket or DecodeError` (R166, R168): the error if there was one,
else the packet. -/
def State.result (s : State) : Except DecodeError TSPacket :=
  match s.err with
  | some e => .error e
  | none => .ok s.packetRecord

end Sys2Proof.Machine
end

