-- ==== Sys2Proof/Machine/Reserved.lean ====
section
/-! DEFINITION. The reserved op codes 0x9 to 0xF: ignored, no register changes (30_encoding.md R111). -/

namespace Sys2Proof.Machine

/-- An ignored command (R111). -/
def ignored (s : State) : Answer := .next s

/-- `RESERVED_9` (R111). -/
def execReserved9 (_n : BitVec 5) (s : State) : Answer := ignored s

/-- `RESERVED_A` (R111). -/
def execReservedA (_n : BitVec 5) (s : State) : Answer := ignored s

/-- `RESERVED_B` (R111). -/
def execReservedB (_n : BitVec 5) (s : State) : Answer := ignored s

/-- `RESERVED_C` (R111). -/
def execReservedC (_n : BitVec 5) (s : State) : Answer := ignored s

/-- `RESERVED_D` (R111). -/
def execReservedD (_n : BitVec 5) (s : State) : Answer := ignored s

/-- `RESERVED_E` (R111). -/
def execReservedE (_n : BitVec 5) (s : State) : Answer := ignored s

/-- `RESERVED_F` (R111). -/
def execReservedF (_n : BitVec 5) (s : State) : Answer := ignored s

end Sys2Proof.Machine
end

