-- ==== Sys2Proof/Machine/Dispatch.lean ====
section
/-! DEFINITION. `exec`: one arm per row of the opcode table, each one call of that row's meaning. -/

namespace Sys2Proof.Machine

def exec (i : Instr) (s : State) : Host.Outcome State Fault Refusal :=
  match i with
  -- commands (30_encoding.md R110)
  | .openCur n => Sys2Proof.Machine.execOpen n s
  | .pbit n => Sys2Proof.Machine.execPbit n s
  | .pbits n => Sys2Proof.Machine.execPbits n s
  | .pbyte n => Sys2Proof.Machine.execPbyte n s
  | .pwide n => Sys2Proof.Machine.execPwide n s
  | .hdr n => Sys2Proof.Machine.execHdr n s
  | .af n => Sys2Proof.Machine.execAf n s
  | .afx n => Sys2Proof.Machine.execAfx n s
  | .decode n => Sys2Proof.Machine.execDecode n s
  -- reserved op codes (R111)
  | .reserved9 n => Sys2Proof.Machine.execReserved9 n s
  | .reservedA n => Sys2Proof.Machine.execReservedA n s
  | .reservedB n => Sys2Proof.Machine.execReservedB n s
  | .reservedC n => Sys2Proof.Machine.execReservedC n s
  | .reservedD n => Sys2Proof.Machine.execReservedD n s
  | .reservedE n => Sys2Proof.Machine.execReservedE n s
  | .reservedF n => Sys2Proof.Machine.execReservedF n s
  -- header variants (R92)
  | .tspNone h => Sys2Proof.Machine.execTspNone h s
  | .tspPayload h => Sys2Proof.Machine.execTspPayload h s
  | .tspAf h => Sys2Proof.Machine.execTspAf h s
  | .tspAfPayload h => Sys2Proof.Machine.execTspAfPayload h s
  -- regions of the adaptation field (R93 to R96)
  | .afHead h => Sys2Proof.Machine.execAfHead h s
  | .afPcr v => Sys2Proof.Machine.execAfPcr v s
  | .afOpcr v => Sys2Proof.Machine.execAfOpcr v s
  | .afSplice c => Sys2Proof.Machine.execAfSplice c s
  | .afPrivate n bytes => Sys2Proof.Machine.execAfPrivate n bytes s
  -- regions of the extension (R97 to R100)
  | .afxHead h => Sys2Proof.Machine.execAfxHead h s
  | .afxLtw valid offset => Sys2Proof.Machine.execAfxLtw valid offset s
  | .afxPwr reserved rate => Sys2Proof.Machine.execAfxPwr reserved rate s
  | .afxSms f => Sys2Proof.Machine.execAfxSms f s

end Sys2Proof.Machine
end

