-- ==== Sys2Proof/Machine/HostPort.lean ====
section
/-! DEFINITION. The host's side of the block (10_state.md R37 to R41, R46): what it may write and what it reads, the
hardware reset, and where the sequencer finds the region it reads next. -/

namespace Sys2Proof.Machine

/-- The host writes bytes of `DATA` (R46). -/
def State.writeData (s : State) (offset : Nat) (bytes : List Byte) : State :=
  { s with data := s.data.writeBytes offset bytes }

/-- The host writes `LEN` (R41). -/
def State.writeLen (s : State) (n : Nat) : State := { s with len := n }

/-- The hardware reset (70_reset_and_hazards.md R270): every register at its reset value; `DATA` and `LEN` are the
host's and are not touched, nor is what the host will do next. -/
def State.hardReset (s : State) : State := { State.reset with data := s.data, len := s.len, script := s.script }

/-- The host's program without its first action. -/
def State.dropAction (s : State) : State := { s with script := s.script.tail }

/-- Which composite operation a command starts, if it is one that can be watched region by region. -/
def compositeOf : Instr → Option Composite
  | .hdr _ => some .hdr
  | .af _ => some .af
  | .afx _ => some .afx
  | .decode _ => some .decode
  | .openCur _ | .pbit _ | .pbits _ | .pbyte _ | .pwide _ => none
  | .reserved9 _ | .reservedA _ | .reservedB _ | .reservedC _ | .reservedD _ | .reservedE _ | .reservedF _ => none
  | .tspNone _ | .tspPayload _ | .tspAf _ | .tspAfPayload _ => none
  | .afHead _ | .afPcr _ | .afOpcr _ | .afSplice _ | .afPrivate _ _ => none
  | .afxHead _ | .afxLtw _ _ | .afxPwr _ _ | .afxSms _ => none

/-- The unread bytes from the cursor on, as many as the longest region has (a TPD of 256 bytes). -/
def State.window (s : State) : List Byte := s.bytesAt s.bp (min 256 (s.len - s.bp))

/-- The region at the cursor as the decoder reads it; the sequencer's regions start on byte boundaries (30_encoding.md
R90). -/
def State.fetchRegion (s : State) (r : Region) : Option Instr :=
  if s.bo = 0 then
    match decode (.wire r s.window) with
    | .ok (i, _) => some i
    | .error _ => none
  else none

/-- A region that the buffer does not hold in full: its reads are performed, and raise. -/
def unreadableRegion (op : Composite) (r : Region) (s : State) : Answer := runRegion op r (regionReads op r) s

/-! ### What the host reads -/

/-- A one-bit register as a number. -/
def flag (b : Bool) : Nat := if b then 1 else 0

/-- The number a result register holds, `none` for a register that is not a result register (R27, R30, R34). -/
def State.resultReg (s : State) : Reg → Option Nat
  | .pV => some (flag s.p.pV)
  | .sync => some s.p.sync.toNat
  | .tei => some (flag s.p.tei)
  | .pusi => some (flag s.p.pusi)
  | .tpri => some (flag s.p.tpri)
  | .pid => some s.p.pid.toNat
  | .tsc => some s.p.tsc.toNat
  | .afp => some (flag s.p.afp)
  | .plp => some (flag s.p.plp)
  | .cc => some s.p.cc.toNat
  | .afV => some (flag s.p.afV)
  | .plV => some (flag s.p.plV)
  | .plOff => some s.p.plOff
  | .plLen => some s.p.plLen
  | .afl => some s.a.afl.toNat
  | .di => some (flag s.a.di)
  | .rai => some (flag s.a.rai)
  | .espi => some (flag s.a.espi)
  | .pcrV => some (flag s.a.pcrV)
  | .pcr => some s.a.pcr.toNat
  | .opcrV => some (flag s.a.opcrV)
  | .opcr => some s.a.opcr.toNat
  | .splV => some (flag s.a.splV)
  | .splc => some s.a.splc.toNat
  | .tpdV => some (flag s.a.tpdV)
  | .tpdl => some s.a.tpdl.toNat
  | .tpdb i => if i < Config.tpdbSize then some (s.a.tpdbRead i).toNat else none
  | .afxV => some (flag s.a.afxV)
  | .stfV => some (flag s.a.stfV)
  | .stfOff => some s.a.stfOff
  | .stfLen => some s.a.stfLen.toNat
  | .afxl => some s.x.afxl.toNat
  | .ltwf => some (flag s.x.ltwf)
  | .pwrf => some (flag s.x.pwrf)
  | .smsf => some (flag s.x.smsf)
  | .ltwV => some (flag s.x.ltwV)
  | .ltwvf => some (flag s.x.ltwvf)
  | .ltwo => some s.x.ltwo.toNat
  | .pwrV => some (flag s.x.pwrV)
  | .pwr => some s.x.pwr.toNat
  | .smsV => some (flag s.x.smsV)
  | .splt => some s.x.splt.toNat
  | .dts => some s.x.dts.toNat
  | .cmd | .st | .err | .rval | .bp | .bo | .len => none
  | .fPcr | .fOpcr | .fSpl | .fTpd | .fAfx | .afEnd | .afxEnd | .seqStep => none

/-- How many values a result register of a stated width can hold; 0 for the `POS_W`-bit registers, which the model holds
as naturals. -/
def regRange : Reg → Nat
  | .sync | .afl | .splc | .tpdl | .tpdb _ | .stfLen | .afxl => 2 ^ 8
  | .pid => 2 ^ 13
  | .tsc => 2 ^ 2
  | .cc | .splt => 2 ^ 4
  | .pcr | .opcr => 2 ^ 48
  | .ltwo => 2 ^ 15
  | .pwr => 2 ^ 22
  | .dts => 2 ^ 33
  | .plOff | .plLen | .stfOff => 0
  | .pV | .tei | .pusi | .tpri | .afp | .plp | .afV | .plV => 2
  | .di | .rai | .espi | .pcrV | .opcrV | .splV | .tpdV | .afxV | .stfV => 2
  | .ltwf | .pwrf | .smsf | .ltwV | .ltwvf | .pwrV | .smsV => 2
  | .cmd | .st | .err | .rval | .bp | .bo | .len => 0
  | .fPcr | .fOpcr | .fSpl | .fTpd | .fAfx | .afEnd | .afxEnd | .seqStep => 0

/-- A host's read of a register (R37 to R40, R46): `CMD` reads as 0, `ST`, `ERR` and `RVAL` as their numbers, a result
register as what it holds. `none`: the host cannot read it (the cursor, the latches, the budgets, the sequencer), or owns
it (`LEN`). While `ST` is BUSY a result register reads as a free value of its width (70_reset_and_hazards.md R274). -/
def State.hostRead (s : State) : Reg → Option Nat
  | .cmd => some 0
  | .st => some s.st.code.toNat
  | .err => some (errCode s.err).toNat
  | .rval => some s.rval.toNat
  | r =>
    match s.resultReg r with
    | none => none
    | some v => some (if s.st = .busy then Config.busyRead r s.bitAddr % regRange r else v)

/-! ### Placing an instruction where the next step fetches it -/

/-- The composite operation in which a stand-alone region is placed: a header under `DECODE`, a region of the
adaptation field under `AF`, one of the extension under `AFX`. -/
def homeOf : Region → Composite
  | .tsh => .decode
  | .afHead | .pcr | .opcr | .spl | .tpd => .af
  | .afxHead | .ltw | .pwr | .sms => .afx

/-- A command word where the next step takes it: the sequencer idle, the host about to write it. -/
def State.placeCommand (s : State) (w : Cmd) : State := { s with seq := none, script := .cmd w :: s.script }

/-- How many of the bytes belong to the region at their front (30_encoding.md R91 to R100). -/
def regionSize : Region → List Byte → Nat
  | .tsh, _ => 4
  | .afHead, _ | .afxHead, _ | .ltw, _ => 2
  | .pcr, _ | .opcr, _ => 6
  | .spl, _ => 1
  | .tpd, bytes => 1 + (bytes.headD 0).toNat
  | .pwr, _ => 3
  | .sms, _ => 5

/-- A region where the next step fetches it: its bytes at the cursor, byte-aligned and inside the buffer, the sequencer
waiting for it, both budgets just past it, and no reset of the host's in between. -/
def State.placeRegion (s : State) (r : Region) (bytes : List Byte) : State :=
  { s with
    data := s.data.writeBytes s.bp bytes
    len := max s.len (s.bp + bytes.length)
    bo := 0
    st := .busy
    afEnd := s.bp + regionSize r bytes
    afxEnd := s.bp + regionSize r bytes
    seq := some (homeOf r, r)
    script := if s.script.head? = some .reset then .wait :: s.script else s.script }

end Sys2Proof.Machine
end

