-- ==== Sys2Proof/Machine/Step.lean ====
section
/-! DEFINITION. One step of the machine. The host's reset takes effect at any time (70_reset_and_hazards.md R270). While
the sequencer runs a composite operation, a step is one region of the packet. Otherwise a step is the host's next action,
a command being one atomic operation (00_scope.md R11), and with none left the block waits. -/

namespace Sys2Proof.Machine

/-- One region of a running composite operation: the decoder's instruction executed, or, where the buffer does not hold
the region in full, its reads performed until one raises. -/
def stepRegion (op : Composite) (r : Region) (s : State) : Host.Outcome State Fault Refusal :=
  match s.fetchRegion r with
  | some i => exec i s
  | none => unreadableRegion op r s

/-- A command that the host wrote to watch: a composite operation starts, any other command runs whole. -/
def stepIssue (w : Cmd) (s : State) : Host.Outcome State Fault Refusal :=
  match compositeOf (decodeCmd w) with
  | some op => .next (s.start op)
  | none => exec (decodeCmd w) s

/-- The host's action `act` when the sequencer is idle. -/
def stepAction (act : HostAction) (s : State) : Host.Outcome State Fault Refusal :=
  match act with
  | .data offset bytes => .next (s.writeData offset bytes)
  | .len n => .next (s.writeLen n)
  | .cmd w => exec (decodeCmd w) s
  | .issue w => stepIssue w s
  | .reset => .next s.hardReset
  | .wait => .next s

/-- One step. While the sequencer runs, a waiting reset is applied, a waiting `wait` is used up, and any other action of
the host waits until `ST` is no longer BUSY (R275). -/
def step (s : State) : Host.Outcome State Fault Refusal :=
  match s.seq, s.script with
  | some _, .reset :: _ => .next s.dropAction.hardReset
  | some (op, r), .wait :: _ => stepRegion op r s.dropAction
  | some (op, r), _ => stepRegion op r s
  | none, [] => .next s
  | none, act :: _ => stepAction act s.dropAction

/-- `s` with the instruction of a table row placed where the next step fetches it (notes/assumptions/9.md): a command
word as the host's next write of `CMD`, a region at the cursor with the sequencer waiting for it. A number that stands
for no row changes nothing. -/
def State.withFetchWord (s : State) (nbits w : Nat) : State :=
  match tableCode nbits w with
  | some (.cmd c) => s.placeCommand c
  | some (.wire r bytes) => s.placeRegion r bytes
  | none => s

end Sys2Proof.Machine
end

