-- ==== Sys2Proof/Machine/Layout.lean ====
section
/-! DEFINITION. What the spec states without a sequence of reads, so that claims can hold the decoders against it: the
packet as one bit string (20_memory.md R64), the layout tables of 30_encoding.md (R90 to R107), which bits each register
takes and at which offset each region stands, and the states that an operation ends in. -/

namespace Sys2Proof.Machine

/-! ### The packet as one bit string (20_memory.md R64) -/

/-- Bit `A` of the packet's bit string: each byte contributes bits 7 down to 0. -/
def State.bitAt (s : State) (A : Nat) : Bool := (s.memRead (A / 8)).getLsbD (7 - A % 8)

/-- Bits `A` to `A + n - 1` as an unsigned number, bit `A` the most significant. -/
def State.bitsAt (s : State) (A : Nat) : Nat → Nat
  | 0 => 0
  | n + 1 => 2 * s.bitsAt A n + (s.bitAt (A + n)).toNat

/-- After a read of `n` bits that succeeded (R64, 40_cursor.md R141): the cursor `n` bits on, the bits in `RVAL`. -/
def State.readBits (s : State) (n : Nat) : State :=
  { s with bp := (s.bitAddr + n) / 8, bo := Fin.ofNat 8 (s.bitAddr + n),
           rval := BitVec.ofNat 16 (s.bitsAt s.bitAddr n), err := none, st := .doneOk }

/-- After a cursor command that raised `e` (60_exceptions.md R241): the cursor where it was. -/
def State.rawFailed (s : State) (e : DecodeError) : State := { s with rval := 0, err := some e, st := .doneErr }

/-- After a composite operation that raised `e` with the cursor at `c` (R241, 41_packet_decoder.md R168). -/
def State.failedAt (s : State) (e : DecodeError) (c : Nat × Fin 8) : State :=
  { s with bp := c.1, bo := c.2, p := .clear, a := .clear, x := .clear, f := .clear, st := .doneErr, err := some e,
           afEnd := 0, afxEnd := 0, seq := none }

/-! ### Numbers and lengths -/

/-- The `count` bytes from offset `o` on taken as one big-endian number (20_memory.md R62, R90). -/
def State.number (s : State) (o : Nat) : Nat → Nat
  | 0 => 0
  | count + 1 => s.number o count * 256 + (s.memRead (o + count)).toNat

/-- What a flagged region takes: `k` bytes when the flag is set, none otherwise (R103). -/
def room (present : Bool) (k : Nat) : Nat := if present then k else 0

/-- A value that is 0 when it is absent (10_state.md R31, R35). -/
def orZero {w : Nat} (present : Bool) (v : BitVec w) : BitVec w := if present then v else 0

/-- Group P from the header at offset `a` (R91), no adaptation field and no payload named. -/
def State.layoutP (s : State) (a : Nat) : GroupP :=
  let W : BitVec 32 := BitVec.ofNat 32 (s.number a 4)
  { pV := true, sync := slice 31 24 W, tei := W.getLsbD 23, pusi := W.getLsbD 22, tpri := W.getLsbD 21,
    pid := slice 20 8 W, tsc := slice 7 6 W, afp := W.getLsbD 5, plp := W.getLsbD 4, cc := slice 3 0 W,
    afV := false, plV := false, plOff := 0, plLen := 0 }

/-- The offset just past a length-prefixed structure whose length byte is at `o` (R93, R97, R103). -/
def State.fieldEnd (s : State) (o : Nat) : Nat := o + 1 + (s.memRead o).toNat

/-! ### The extension, its length byte at offset `o` (R97 to R100) -/

/-- The head word `X` (R97). -/
def State.extHead (s : State) (o : Nat) : BitVec 16 := BitVec.ofNat 16 (s.number o 2)

/-- Where the piecewise rate stands, after the legal time window at `o + 2`. -/
def State.pwrAt (s : State) (o : Nat) : Nat := o + 2 + room ((s.extHead o).getLsbD 7) 2

/-- Where the seamless splice stands. -/
def State.smsAt (s : State) (o : Nat) : Nat := s.pwrAt o + room ((s.extHead o).getLsbD 6) 3

/-- Where the padding starts. -/
def State.padAt (s : State) (o : Nat) : Nat := s.smsAt o + room ((s.extHead o).getLsbD 5) 5

/-- The extension is well formed (R103): the bytes its flags demand fit its declared length, `need_X <= E`. -/
def State.extHolds (s : State) (o : Nat) : Bool := decide (s.padAt o ≤ s.fieldEnd o)

/-- The extension is well formed and inside the buffer (R103, 43_af_extension.md R218): also `AFX_END <= LEN`. -/
def State.extFits (s : State) (o : Nat) : Bool := s.extHolds o && decide (s.fieldEnd o ≤ s.len)

/-- Group X from the extension at offset `o` (R97 to R100, R106, R107). -/
def State.layoutX (s : State) (o : Nat) : GroupX :=
  let X := s.extHead o
  let T : BitVec 16 := BitVec.ofNat 16 (s.number (o + 2) 2)
  let Q : BitVec 24 := BitVec.ofNat 24 (s.number (s.pwrAt o) 3)
  let S : BitVec 40 := BitVec.ofNat 40 (s.number (s.smsAt o) 5)
  { afxl := slice 15 8 X, ltwf := X.getLsbD 7, pwrf := X.getLsbD 6, smsf := X.getLsbD 5,
    ltwV := X.getLsbD 7, ltwvf := X.getLsbD 7 && T.getLsbD 15, ltwo := orZero (X.getLsbD 7) (slice 14 0 T),
    pwrV := X.getLsbD 6, pwr := orZero (X.getLsbD 6) (slice 21 0 Q),
    smsV := X.getLsbD 5, splt := orZero (X.getLsbD 5) (slice 39 36 S),
    dts := orZero (X.getLsbD 5) (slice 35 33 S ++ slice 31 17 S ++ slice 15 1 S) }

/-! ### The adaptation field, its length byte at offset `o` (R93 to R96) -/

/-- The head word `A` (R93). -/
def State.afHeadWord (s : State) (o : Nat) : BitVec 16 := BitVec.ofNat 16 (s.number o 2)

/-- The five presence flags (R93). -/
def State.layoutF (s : State) (o : Nat) : Latches :=
  let A := s.afHeadWord o
  { pcr := A.getLsbD 4, opcr := A.getLsbD 3, spl := A.getLsbD 2, tpd := A.getLsbD 1, afx := A.getLsbD 0 }

/-- Where the OPCR stands, after the PCR at `o + 2`. -/
def State.opcrAt (s : State) (o : Nat) : Nat := o + 2 + room (s.layoutF o).pcr 6

/-- Where the splice countdown stands. -/
def State.splAt (s : State) (o : Nat) : Nat := s.opcrAt o + room (s.layoutF o).opcr 6

/-- Where the private data's length byte stands. -/
def State.tpdAt (s : State) (o : Nat) : Nat := s.splAt o + room (s.layoutF o).spl 1

/-- Where the extension's length byte stands. -/
def State.afxAt (s : State) (o : Nat) : Nat :=
  s.tpdAt o + room (s.layoutF o).tpd (1 + (s.memRead (s.tpdAt o)).toNat)

/-- Where the stuffing starts. -/
def State.stfAt (s : State) (o : Nat) : Nat :=
  s.afxAt o + room (s.layoutF o).afx (1 + (s.memRead (s.afxAt o)).toNat)

/-- The adaptation field is well formed (R103, 42_adaptation_field.md R193): the bytes its flags demand fit its declared
length, `need_A <= L`, and the extension, if there is one, is itself well formed. -/
def State.fieldHolds (s : State) (o : Nat) : Bool :=
  decide (s.stfAt o ≤ s.fieldEnd o) && (!(s.layoutF o).afx || s.extHolds (s.afxAt o))

/-- The adaptation field is well formed and inside the buffer (R193): also `AF_END <= LEN`. -/
def State.fieldFits (s : State) (o : Nat) : Bool := s.fieldHolds o && decide (s.fieldEnd o ≤ s.len)

/-- Group A from the adaptation field at offset `o` (R93 to R96, R105, 10_state.md R31 to R33). -/
def State.layoutA (s : State) (o : Nat) : GroupA :=
  let A := s.afHeadWord o
  let f := s.layoutF o
  let n := s.memRead (s.tpdAt o)
  let left := s.fieldEnd o - s.stfAt o
  { afl := slice 15 8 A, di := A.getLsbD 7, rai := A.getLsbD 6, espi := A.getLsbD 5,
    pcrV := f.pcr, pcr := orZero f.pcr (BitVec.ofNat 48 (s.number (o + 2) 6)),
    opcrV := f.opcr, opcr := orZero f.opcr (BitVec.ofNat 48 (s.number (s.opcrAt o) 6)),
    splV := f.spl, splc := orZero f.spl (s.memRead (s.splAt o)),
    tpdV := f.tpd, tpdl := orZero f.tpd n, tpdb := if f.tpd then s.bytesAt (s.tpdAt o + 1) n.toNat else [],
    afxV := f.afx,
    stfV := decide (0 < left), stfOff := if 0 < left then s.stfAt o else 0, stfLen := BitVec.ofNat 8 left }

/-- Group X as an adaptation field at offset `o` leaves it: the extension if it is flagged, else cleared. -/
def State.layoutAX (s : State) (o : Nat) : GroupX :=
  if (s.layoutF o).afx then s.layoutX (s.afxAt o) else .clear

/-! ### Where an operation stands when it fails (60_exceptions.md R242, 41_packet_decoder.md R168) -/

/-- Where the cursor stands when the buffer, `len` bytes long, ends inside region `r` at offset `o`: at the first of the
region's primitives that lacks a byte. That is the end of the buffer, but for the primitives that take two bytes:
`PWIDE(13)` of a header at (`o + 1`, 3) (41_packet_decoder.md R161), `PWIDE(15)` of a legal time window at (`o`, 1)
(43_af_extension.md R214), `PWIDE(14)` of a piecewise rate at (`o`, 2) (R215), both `PWIDE(15)` of a seamless splice, at
(`o + 1`, 0) and at (`o + 3`, 0) (R216). -/
def cutAt (r : Region) (o len : Nat) : Nat × Fin 8 :=
  match r with
  | .tsh => if len = o + 2 then (o + 1, 3) else (max o len, 0)
  | .ltw => if len = o + 1 then (o, 1) else (max o len, 0)
  | .pwr => if len = o + 1 then (o, 2) else (max o len, 0)
  | .sms => if len = o + 2 then (o + 1, 0) else if len = o + 4 then (o + 3, 0) else (max o len, 0)
  | .afHead | .pcr | .opcr | .spl | .tpd | .afxHead => (max o len, 0)

/-- The same for the extension at offset `o`: inside the head or the group that the buffer ends in, or in the padding. -/
def State.extCut (s : State) (o : Nat) : Nat × Fin 8 :=
  if s.len < o + 2 then cutAt .afxHead o s.len
  else if s.len < s.pwrAt o then cutAt .ltw (o + 2) s.len
  else if s.len < s.smsAt o then cutAt .pwr (s.pwrAt o) s.len
  else if s.len < s.padAt o then cutAt .sms (s.smsAt o) s.len
  else (s.len, 0)

/-- The same for the adaptation field at offset `o`: inside its extension if the buffer reaches to one, else at the end of
the buffer, the field's own reads being of one byte. -/
def State.fieldCut (s : State) (o : Nat) : Nat × Fin 8 :=
  if (s.layoutF o).afx = true ∧ s.afxAt o ≤ s.len then s.extCut (s.afxAt o) else (max o s.len, 0)

/-- The offset of the first budget check that fails in an extension at offset `o` that is not well formed: just past the
length byte, or at the first group that passes `AFX_END` (43_af_extension.md R212 to R216). -/
def State.extStop (s : State) (o : Nat) : Nat :=
  if s.fieldEnd o < o + 2 then o + 1
  else if s.fieldEnd o < s.pwrAt o then o + 2
  else if s.fieldEnd o < s.smsAt o then s.pwrAt o
  else s.smsAt o

/-- The same in an adaptation field: just past the length byte, at the first group that passes `AF_END`, just past the
length byte of private data or of an extension that passes it, or inside the extension (42_adaptation_field.md R184 to
R189). -/
def State.fieldStop (s : State) (o : Nat) : Nat :=
  if s.fieldEnd o < o + 2 then o + 1
  else if s.fieldEnd o < s.opcrAt o then o + 2
  else if s.fieldEnd o < s.splAt o then s.opcrAt o
  else if s.fieldEnd o < s.tpdAt o then s.splAt o
  else if s.fieldEnd o < s.afxAt o then (if s.fieldEnd o < s.tpdAt o + 1 then s.tpdAt o else s.tpdAt o + 1)
  else if s.fieldEnd o < s.stfAt o then (if s.fieldEnd o < s.afxAt o + 1 then s.afxAt o else s.afxAt o + 1)
  else s.extStop (s.afxAt o)

/-! ### The states that a structure ends in -/

/-- The adaptation field closed (42_adaptation_field.md R190, R182): what is left of it named as stuffing and passed, and
`AF_V` set. -/
def State.fieldClosed (s : State) : State :=
  { s with
    bp := max s.bp s.afEnd
    p := { s.p with afV := true }
    a := if s.bp < s.afEnd then
        { s.a with stfV := true, stfOff := s.bp, stfLen := BitVec.ofNat 8 (s.afEnd - s.bp) }
      else s.a }

/-- The extension closed (43_af_extension.md R217, R211): its padding passed, and `AFX_V` set. -/
def State.extClosed (s : State) : State := { s with bp := max s.bp s.afxEnd, a := { s.a with afxV := true } }

/-- The packet ended (41_packet_decoder.md R162, R163): under `DECODE` the payload named iff `PLP`, then success. -/
def State.packetEnded (s : State) (op : Composite) : State :=
  { s with
    p := if op = .decode ∧ s.p.plp = true then { s.p with plV := true, plOff := s.bp, plLen := s.len - s.bp } else s.p
    st := .doneOk, err := none, afEnd := 0, afxEnd := 0, seq := none }

/-- The structure that region `r` belongs to ended, and with it the composite operation `op`. -/
def State.structureEnded (s : State) (op : Composite) : Region → State
  | .tsh => s.packetEnded op
  | .afHead | .pcr | .opcr | .spl | .tpd => s.fieldClosed.packetEnded op
  | .afxHead | .ltw | .pwr | .sms =>
    if op = .afx then s.extClosed.packetEnded op else s.extClosed.fieldClosed.packetEnded op

/-- The offset up to which the buffer must reach for that end: past the adaptation field, past the extension. -/
def State.endOffset (s : State) (op : Composite) : Region → Nat
  | .tsh => 0
  | .afHead | .pcr | .opcr | .spl | .tpd => s.afEnd
  | .afxHead | .ltw | .pwr | .sms => if op = .afx then s.afxEnd else max s.afxEnd s.afEnd

/-- How a region of `op` is left when its registers are written, in state `t`: the sequencer waits at the next region;
with none left and the buffer long enough the operation ends; with the buffer too short it ends with `OutOfData`, the
cursor at the end of the buffer, since padding and stuffing are skipped byte by byte (30_encoding.md R113). -/
def Continues (op : Composite) (r : Region) (t : State) (answer : Answer) : Prop :=
  (∀ r', nextRegion op r t = some r' → answer = .next (t.parkAt op r')) ∧
  (nextRegion op r t = none → t.endOffset op r ≤ t.len → answer = .next (t.structureEnded op r)) ∧
  (nextRegion op r t = none → t.len < t.endOffset op r → answer = .next (t.failedAt .outOfData (t.len, 0)))

end Sys2Proof.Machine
end

