-- ==== Sys2Proof/Safety.lean ====
section
/-! DEFINITION. The terms claims are stated in: the invariants of the state, the host's duties, runs of commands, and what
a safe step is. -/

namespace Sys2Proof.Machine

/-! ### The cursor -/

/-- The invariants of the cursor (10_state.md R24, R25). -/
def CursorOk (s : State) : Prop := s.bp ≤ s.len ∧ (s.bo ≠ 0 → s.bp < s.len)

/-! ### The result registers -/

/-- A value register whose valid bit is 0 holds 0 in group P (10_state.md R29; 41_packet_decoder.md R163). -/
def GroupP.Tidy (p : GroupP) : Prop := p.plV = false → p.plOff = 0 ∧ p.plLen = 0

/-- Group A: a value register whose valid bit is 0 holds 0, `TPDB` holds `TPDL` bytes, and `STF_V == 1` exactly when
`STF_LEN > 0` (10_state.md R31 to R33). -/
def GroupA.Tidy (a : GroupA) : Prop :=
  (a.pcrV = false → a.pcr = 0) ∧ (a.opcrV = false → a.opcr = 0) ∧ (a.splV = false → a.splc = 0) ∧
  (a.tpdV = false → a.tpdl = 0) ∧ a.tpdb.length = a.tpdl.toNat ∧
  (a.stfV = true ↔ 0 < a.stfLen.toNat) ∧ (a.stfV = false → a.stfOff = 0)

/-- Group X: a value register whose valid bit is 0 holds 0 (10_state.md R35). -/
def GroupX.Tidy (x : GroupX) : Prop :=
  (x.ltwV = false → x.ltwvf = false ∧ x.ltwo = 0) ∧ (x.pwrV = false → x.pwr = 0) ∧
  (x.smsV = false → x.splt = 0 ∧ x.dts = 0)

/-! ### The sequencer -/

/-- The regions a composite operation reads (41_packet_decoder.md, 42_adaptation_field.md, 43_af_extension.md). -/
def readsRegion : Composite → Region → Bool
  | .decode, _ => true
  | .hdr, r => decide (r = .tsh)
  | .af, r => decide (r ≠ .tsh)
  | .afx, r => decide (r = .afxHead) || decide (r = .ltw) || decide (r = .pwr) || decide (r = .sms)

/-- The sequencer's state is legal: idle with no budget left and `ST` not BUSY, or BUSY at a region that the running
operation reads, with at most 255 bytes of adaptation field ahead (10_state.md R38, R42; 20_memory.md R70). -/
def SequencerOk (s : State) : Prop :=
  match s.seq with
  | none => s.afEnd = 0 ∧ s.afxEnd = 0 ∧ s.st ≠ .busy
  | some (op, r) => s.st = .busy ∧ readsRegion op r = true ∧ s.afEnd ≤ s.bp + 255

/-- What every step keeps, whatever the host does. -/
def MachineInv (s : State) : Prop :=
  s.data.wf = true ∧ s.p.Tidy ∧ s.a.Tidy ∧ s.x.Tidy ∧ SequencerOk s

/-! ### The host's duties -/

/-- Whether a command binds the cursor afresh (`OPEN`, `DECODE`; 10_state.md R41). -/
def bindsCursor : Instr → Bool
  | .openCur _ | .decode _ => true
  | .pbit _ | .pbits _ | .pbyte _ | .pwide _ | .hdr _ | .af _ | .afx _ => false
  | .reserved9 _ | .reservedA _ | .reservedB _ | .reservedC _ | .reservedD _ | .reservedE _ | .reservedF _ => false
  | .tspNone _ | .tspPayload _ | .tspAf _ | .tspAfPayload _ => false
  | .afHead _ | .afPcr _ | .afOpcr _ | .afSplice _ | .afPrivate _ _ => false
  | .afxHead _ | .afxLtw _ _ | .afxPwr _ _ | .afxSms _ => false

/-- Whether a command uses the cursor as an earlier one left it (70_reset_and_hazards.md R271). -/
def usesCursor : Instr → Bool
  | .pbit _ | .pbits _ | .pbyte _ | .pwide _ | .hdr _ | .af _ | .afx _ => true
  | .openCur _ | .decode _ => false
  | .reserved9 _ | .reservedA _ | .reservedB _ | .reservedC _ | .reservedD _ | .reservedE _ | .reservedF _ => false
  | .tspNone _ | .tspPayload _ | .tspAf _ | .tspAfPayload _ => true
  | .afHead _ | .afPcr _ | .afOpcr _ | .afSplice _ | .afPrivate _ _ => true
  | .afxHead _ | .afxLtw _ _ | .afxPwr _ _ | .afxSms _ => true

/-- The host programs the spec admits (70_reset_and_hazards.md R272, R273): after a change of `DATA` or `LEN`, and after
a reset, the cursor is bound by `OPEN` or `DECODE` before it is used. `bound` says whether it is bound now. -/
def admitted : Bool → List HostAction → Bool
  | _, [] => true
  | _, .data _ _ :: rest => admitted false rest
  | _, .len _ :: rest => admitted false rest
  | _, .reset :: rest => admitted false rest
  | bound, .wait :: rest => admitted bound rest
  | bound, .cmd w :: rest =>
    if bindsCursor (decodeCmd w) then admitted true rest
    else (bound || !usesCursor (decodeCmd w)) && admitted bound rest
  | bound, .issue w :: rest =>
    if bindsCursor (decodeCmd w) then admitted true rest
    else (bound || !usesCursor (decodeCmd w)) && admitted bound rest

/-- What every step keeps when the host does its duty: the cursor is inside the buffer, or it will be bound before it is
used. -/
def AdmittedInv (s : State) : Prop :=
  (CursorOk s ∧ admitted true s.script = true) ∨ (s.seq = none ∧ admitted false s.script = true)

/-! ### Safe steps -/

/-- A step that goes on: no fault and no refusal. -/
def SafeStep (s : State) : Prop := ∃ t, step s = .next t

/-- The commands of the host's that start an operation (30_encoding.md R110), not the reserved ones. -/
def startsOperation : Instr → Bool
  | .openCur _ | .pbit _ | .pbits _ | .pbyte _ | .pwide _ | .hdr _ | .af _ | .afx _ | .decode _ => true
  | .reserved9 _ | .reservedA _ | .reservedB _ | .reservedC _ | .reservedD _ | .reservedE _ | .reservedF _ => false
  | .tspNone _ | .tspPayload _ | .tspAf _ | .tspAfPayload _ => false
  | .afHead _ | .afPcr _ | .afOpcr _ | .afSplice _ | .afPrivate _ _ => false
  | .afxHead _ | .afxLtw _ _ | .afxPwr _ _ | .afxSms _ => false

/-- The command of a composite operation, run to its end as one atomic step (00_scope.md R11). -/
def runAtomic (op : Composite) (s : State) : Answer :=
  match op with
  | .hdr => exec (.hdr 0) s
  | .af => exec (.af 0) s
  | .afx => exec (.afx 0) s
  | .decode => exec (.decode 0) s

/-- Instructions executed one after another, stopping at the first that gives no next state. -/
def execAll : List Instr → State → Answer
  | [], s => .next s
  | i :: rest, s =>
    match exec i s with
    | .next t => execAll rest t
    | .fault e => .fault e
    | .refused e => .refused e

end Sys2Proof.Machine
end

