-- ==== Sys2Proof/Certificates/Slice0/Obligations.lean ====
section
/-! DEFINITION. The statements for the provers: what the spec's numbered rules say the block does. A statement gives the
whole next state of an instruction where it can, so that it is the instruction's completion, its result and its frame at
once: every field that is not written in it is unchanged. -/

section

open Sys2Proof Sys2Proof.Machine

/-! ## Encodings -/

/-- Decoding undoes encoding, with every operand at every value and whatever bytes stand after a region
(30_encoding.md R91 to R100, R110). -/
def Obligations.EncodedInstructionsDecodeBack : Prop :=
  ∀ (i : Instr) (rest : List Byte), i.wellFormed = true →
    decode ((encode i).followedBy rest) = .ok (i, (encode i).tail rest)

/-- Encoding undoes decoding: no command word and no region loses a bit, and there is no illegal encoding: every word
and every region whose bytes are all there is a well-formed instruction (30_encoding.md R109, R110). -/
def Obligations.EveryEncodingDecodesWithoutLoss : Prop :=
  (∀ w : Cmd, encode (decodeCmd w) = .cmd w ∧ (decodeCmd w).wellFormed = true) ∧
  (∀ (r : Region) (bytes : List Byte), regionSize r bytes ≤ bytes.length →
    ∃ i, decode (.wire r bytes) = .ok (i, bytes.drop (regionSize r bytes)) ∧ i.wellFormed = true ∧
      encode i = .wire r (bytes.take (regionSize r bytes))) ∧
  (∀ (r : Region) (bytes : List Byte), bytes.length < regionSize r bytes →
    decode (.wire r bytes) = .error (.truncated r))

/-- Words and bytes written out from the tables of 30_encoding.md (R91 to R100, R110) and from 95_test_vectors.md decode to
the instructions they stand for. -/
def Obligations.WrittenWordsDecode : Prop :=
  decodeCmd 0b000000000#9 = .openCur 0 ∧ decodeCmd 0b000100000#9 = .pbit 0 ∧ decodeCmd 0b001000011#9 = .pbits 3 ∧
  decodeCmd 0b001100000#9 = .pbyte 0 ∧ decodeCmd 0b010001101#9 = .pwide 13 ∧ decodeCmd 0b100000000#9 = .decode 0 ∧
  decodeCmd 0b111111111#9 = .reservedF 31 ∧
  decode (.wire .tsh [0x47, 0x5F, 0xFE, 0xF5]) =
    .ok (.tspAfPayload { sync := 0x47, tei := false, pusi := true, tpri := false, pid := 0x1FFE, tsc := 3, cc := 5 }, []) ∧
  decode (.wire .afHead [0x09, 0x50]) =
    .ok (.afHead { len := 9, di := false, rai := true, espi := false, pcr := true, opcr := false, spl := false,
                   tpd := false, afx := false }, []) ∧
  decode (.wire .afxHead [0x03, 0x9F]) =
    .ok (.afxHead { len := 3, ltw := true, pwr := false, sms := false, reserved := 0b11111 }, []) ∧
  decode (.wire .pwr [0xEA, 0xBC, 0xDE]) = .ok (.afxPwr 0b11 0x2ABCDE, []) ∧
  decode (.wire .tpd [0x02, 0xCA, 0xFE, 0x42]) = .ok (.afPrivate 2 [0xCA, 0xFE], [0x42])

/-! ## The cursor commands (40_cursor.md) -/

/-- `OPEN` rewinds the cursor, reads nothing and always succeeds, for every `LEN` and every `n` (R131, R141). -/
def Obligations.OpenRewindsTheCursor : Prop :=
  ∀ (n : BitVec 5) (s : State),
    exec (.openCur n) s = .next { s with bp := 0, bo := 0, rval := 0, err := none, st := .doneOk }

/-- `PBIT` reads the next bit of the packet's bit string, or raises `OutOfData` at the end of the buffer (R132, R141;
20_memory.md R64). -/
def Obligations.PbitReadsTheNextBit : Prop :=
  ∀ (n : BitVec 5) (s : State),
    (s.bp < s.len → exec (.pbit n) s = .next (s.readBits 1)) ∧
    (s.len ≤ s.bp → exec (.pbit n) s = .next (s.rawFailed .outOfData))

/-- `PBITS n` reads `n` bits of one byte; its tests are made in the order count, span, bounds (R133, R141;
60_exceptions.md R239). -/
def Obligations.PbitsReadsWithinOneByte : Prop :=
  ∀ (n : BitVec 5) (s : State),
    (1 ≤ n.toNat ∧ s.bo.val + n.toNat ≤ 8 ∧ s.bp < s.len → exec (.pbits n) s = .next (s.readBits n.toNat)) ∧
    (n.toNat = 0 ∨ 8 < n.toNat → exec (.pbits n) s = .next (s.rawFailed .invalidBitCount)) ∧
    (1 ≤ n.toNat ∧ n.toNat ≤ 8 ∧ 8 < s.bo.val + n.toNat →
      exec (.pbits n) s = .next (s.rawFailed .insufficientBitsInByte)) ∧
    (1 ≤ n.toNat ∧ s.bo.val + n.toNat ≤ 8 ∧ s.len ≤ s.bp → exec (.pbits n) s = .next (s.rawFailed .outOfData))

/-- `PBYTE` reads one whole byte at a byte boundary; the alignment is tested before the bounds (R134, R141;
60_exceptions.md R239). -/
def Obligations.PbyteReadsAnAlignedByte : Prop :=
  ∀ (n : BitVec 5) (s : State),
    (s.bo = 0 ∧ s.bp < s.len → exec (.pbyte n) s = .next { s with
      bp := s.bp + 1, rval := (s.memRead s.bp).setWidth 16, err := none, st := .doneOk }) ∧
    (s.bo ≠ 0 → exec (.pbyte n) s = .next (s.rawFailed .notByteAligned)) ∧
    (s.bo = 0 ∧ s.len ≤ s.bp → exec (.pbyte n) s = .next (s.rawFailed .outOfData))

/-- `PWIDE n` reads `n` bits that end in the next byte: exactly the counts `9 - BO` to `16 - BO`; every other count is
refused before the bounds are tested (R135, R141; 60_exceptions.md R239). -/
def Obligations.PwideReadsAcrossOneBoundary : Prop :=
  ∀ (n : BitVec 5) (s : State),
    (9 ≤ n.toNat + s.bo.val ∧ n.toNat + s.bo.val ≤ 16 ∧ s.bp + 1 < s.len →
      exec (.pwide n) s = .next (s.readBits n.toNat)) ∧
    (n.toNat + s.bo.val ≤ 8 ∨ 16 < n.toNat + s.bo.val →
      exec (.pwide n) s = .next (s.rawFailed .invalidBitCount)) ∧
    (9 ≤ n.toNat + s.bo.val ∧ n.toNat + s.bo.val ≤ 16 ∧ s.len ≤ s.bp + 1 →
      exec (.pwide n) s = .next (s.rawFailed .outOfData))

/-- No partial advance (R136): a primitive that raises leaves the cursor as it found it, and one that succeeds moves the
bit address by exactly the number of bits it returned. -/
def Obligations.PrimitivesNeverPartlyAdvance : Prop :=
  ∀ (n : BitVec 5) (s : State),
    (∀ i ∈ [Instr.pbit n, .pbits n, .pbyte n, .pwide n],
      ∃ t, exec i s = .next t ∧ (t.err ≠ none → t.bp = s.bp ∧ t.bo = s.bo)) ∧
    (∀ t, exec (.pbit n) s = .next t → t.err = none → t.bitAddr = s.bitAddr + 1) ∧
    (∀ t, exec (.pbits n) s = .next t → t.err = none → t.bitAddr = s.bitAddr + n.toNat) ∧
    (∀ t, exec (.pbyte n) s = .next t → t.err = none → t.bitAddr = s.bitAddr + 8) ∧
    (∀ t, exec (.pwide n) s = .next t → t.err = none → t.bitAddr = s.bitAddr + n.toNat)

/-- One bit string (R138): `PWIDE n` is the rest of the byte by `PBITS` and then the high bits of the next by `PBITS`, the
same value and the same cursor; and at a byte boundary `PBYTE` is `PBITS 8`, on the last byte and past the end too. -/
def Obligations.WideReadsAreTwoReads : Prop :=
  (∀ (s t : State) (n m k : BitVec 5), exec (.pwide n) s = .next t → t.err = none →
    m.toNat = 8 - s.bo.val → k.toNat = n.toNat - m.toNat →
    ∃ u v, exec (.pbits m) s = .next u ∧ exec (.pbits k) u = .next v ∧ u.err = none ∧ v.err = none ∧
      t.rval.toNat = u.rval.toNat * 2 ^ k.toNat + v.rval.toNat ∧ t.bp = v.bp ∧ t.bo = v.bo) ∧
  (∀ (s : State) (n : BitVec 5), s.bo = 0 → exec (.pbyte n) s = exec (.pbits 8) s)

/-- The split-and-rebuild law (R133): two `PBITS` that cover a byte give the byte back. -/
def Obligations.SplitReadsRebuildTheByte : Prop :=
  ∀ (s : State) (n m : BitVec 5), s.bo = 0 → s.bp < s.len → 1 ≤ n.toNat → n.toNat ≤ 7 → m.toNat = 8 - n.toNat →
    ∃ u v, exec (.pbits n) s = .next u ∧ exec (.pbits m) u = .next v ∧
      u.rval.toNat * 2 ^ m.toNat ||| v.rval.toNat = (s.memRead s.bp).toNat ∧ v.bp = s.bp + 1 ∧ v.bo = 0 ∧
      u.err = none ∧ v.err = none

/-- The round trip (R134): after `OPEN`, each of the first `LEN` reads by `PBYTE` returns its byte of `DATA`, and the next
one raises `OutOfData`. -/
def Obligations.PbyteReadsTheBufferInOrder : Prop :=
  ∀ (s : State) (k : Nat), k ≤ s.len →
    ∃ t, execAll (.openCur 0 :: List.replicate k (.pbyte 0)) s = .next t ∧ t.bp = k ∧ t.bo = 0 ∧ t.err = none ∧
      (∀ j, k = j + 1 → t.rval = (s.memRead j).setWidth 16) ∧
      (k = s.len → exec (.pbyte 0) t = .next (t.rawFailed .outOfData))

/-! ## Reserved commands -/

/-- A command whose `op` is 0x9 to 0xF is ignored, and where `n` is marked ignored every value of it gives the same
operation (30_encoding.md R111). -/
def Obligations.ReservedCommandsAreIgnored : Prop :=
  ∀ (n m : BitVec 5) (s : State),
    (exec (.reserved9 n) s = .next s ∧ exec (.reservedA n) s = .next s ∧ exec (.reservedB n) s = .next s ∧
      exec (.reservedC n) s = .next s ∧ exec (.reservedD n) s = .next s ∧ exec (.reservedE n) s = .next s ∧
      exec (.reservedF n) s = .next s) ∧
    (∀ w : Cmd, 0x9 ≤ (slice 8 5 w).toNat → exec (decodeCmd w) s = .next s) ∧
    (exec (.openCur n) s = exec (.openCur m) s ∧ exec (.pbit n) s = exec (.pbit m) s ∧
      exec (.pbyte n) s = exec (.pbyte m) s ∧ exec (.hdr n) s = exec (.hdr m) s ∧ exec (.af n) s = exec (.af m) s ∧
      exec (.afx n) s = exec (.afx m) s ∧ exec (.decode n) s = exec (.decode m) s)

/-! ## The header (41_packet_decoder.md) -/

/-- `HDR` at a byte-aligned cursor with four bytes left writes the nine fields of TSH32, clears groups A and X and moves
the cursor four bytes on (R161, R167; 30_encoding.md R91). -/
def Obligations.HdrExtractsTheHeader : Prop :=
  ∀ (n : BitVec 5) (s : State), s.bo = 0 → s.bp + 4 ≤ s.len →
    exec (.hdr n) s = .next { s with
      bp := s.bp + 4, p := s.layoutP s.bp, a := .clear, x := .clear, err := none, st := .doneOk, afEnd := 0, afxEnd := 0,
      seq := none }

/-- `HDR` with fewer bytes left raises `OutOfData` at the first primitive whose byte is missing (R161). -/
def Obligations.HdrCutShortFails : Prop :=
  ∀ (n : BitVec 5) (s : State), s.bo = 0 →
    (s.len ≤ s.bp → exec (.hdr n) s = .next (s.failedAt .outOfData (s.bp, 0))) ∧
    (s.len = s.bp + 1 → exec (.hdr n) s = .next (s.failedAt .outOfData (s.bp + 1, 0))) ∧
    (s.len = s.bp + 2 → exec (.hdr n) s = .next (s.failedAt .outOfData (s.bp + 1, 3))) ∧
    (s.len = s.bp + 3 → exec (.hdr n) s = .next (s.failedAt .outOfData (s.bp + 3, 0)))

/-- `HDR`, `AF` and `AFX` started at an unaligned cursor raise `NotByteAligned`, the cursor where it was
(60_exceptions.md R232; 70_reset_and_hazards.md R276). -/
def Obligations.UnalignedStartsAreRefused : Prop :=
  ∀ (n : BitVec 5) (s : State), s.bo ≠ 0 →
    ∀ i ∈ [Instr.hdr n, .af n, .afx n], exec i s = .next (s.failedAt .notByteAligned (s.bp, s.bo))

/-- The two selector bits decide what follows a header under `DECODE` (30_encoding.md R92): nothing, the payload, the
adaptation field, or the adaptation field and then the payload. In any other composite operation the header is all
(41_packet_decoder.md R161). The unit of a region, and a region run while no operation runs, are the model's choice
(notes/assumptions/4.md). -/
def Obligations.HeaderVariantsSelectWhatFollows : Prop :=
  ∀ (h : Tsh) (s : State), s.bo = 0 → s.bp + 4 ≤ s.len →
    let fields : GroupP := { s.p with
      pV := true, sync := h.sync, tei := h.tei, pusi := h.pusi, tpri := h.tpri, pid := h.pid, tsc := h.tsc, cc := h.cc }
    let t : State := { s with bp := s.bp + 4 }
    let ended : State := { t with st := .doneOk, err := none, afEnd := 0, afxEnd := 0, seq := none }
    let field : State := { t with a := .clear, x := .clear, f := .clear, seq := some (.decode, .afHead) }
    (s.running .decode = .decode →
      exec (.tspNone h) s = .next { ended with p := { fields with afp := false, plp := false } } ∧
      exec (.tspPayload h) s = .next { ended with
        p := { fields with afp := false, plp := true, plV := true, plOff := s.bp + 4, plLen := s.len - (s.bp + 4) } } ∧
      exec (.tspAf h) s = .next { field with p := { fields with afp := true, plp := false } } ∧
      exec (.tspAfPayload h) s = .next { field with p := { fields with afp := true, plp := true } }) ∧
    (s.running .decode ≠ .decode →
      exec (.tspNone h) s = .next { ended with p := { fields with afp := false, plp := false } } ∧
      exec (.tspPayload h) s = .next { ended with p := { fields with afp := false, plp := true } } ∧
      exec (.tspAf h) s = .next { ended with p := { fields with afp := true, plp := false } } ∧
      exec (.tspAfPayload h) s = .next { ended with p := { fields with afp := true, plp := true } })

/-! ## The adaptation field (42_adaptation_field.md) -/

/-- `AF` on a field that is well formed and inside the buffer: groups A and X and the latches as the layout tables say,
`AF_V` set, the cursor just past the field (R182, R192, R193; 30_encoding.md R93 to R107). -/
def Obligations.AfDecodesTheField : Prop :=
  ∀ (n : BitVec 5) (s : State), s.bo = 0 → s.fieldFits s.bp = true →
    exec (.af n) s = .next { s with
      bp := s.fieldEnd s.bp, p := { s.p with afV := true }, a := s.layoutA s.bp, x := s.layoutAX s.bp,
      f := s.layoutF s.bp, err := none, st := .doneOk, afEnd := 0, afxEnd := 0, seq := none }

/-- `AF` on any other field fails, everything cleared and the cursor at the failing primitive (R193, 41_packet_decoder.md
R168; 60_exceptions.md R240, R242): with `AdaptationFieldOverrun` where a declared length is too small for what its flags
demand and the buffer reaches to the budget check that says so; else with `OutOfData`, the buffer ending before the field. -/
def Obligations.AfRejectsOtherFields : Prop :=
  ∀ (n : BitVec 5) (s : State), s.bo = 0 → s.fieldFits s.bp = false →
    (s.fieldHolds s.bp = false ∧ s.fieldStop s.bp ≤ s.len →
      exec (.af n) s = .next (s.failedAt .adaptationFieldOverrun (s.fieldStop s.bp, 0))) ∧
    (s.fieldHolds s.bp = true ∨ s.len < s.fieldStop s.bp →
      s.len < s.fieldEnd s.bp ∧ exec (.af n) s = .next (s.failedAt .outOfData (s.fieldCut s.bp)))

/-- `field_length == 0`: the flags byte is not read and `AF` raises `AdaptationFieldOverrun` right after the length byte
(R191). -/
def Obligations.ZeroFieldLengthOverruns : Prop :=
  ∀ (n : BitVec 5) (s : State), s.bo = 0 → s.bp < s.len → s.memRead s.bp = 0 →
    exec (.af n) s = .next (s.failedAt .adaptationFieldOverrun (s.bp + 1, 0))

/-- The lengths add up (30_encoding.md R103, 10_state.md R33): after a successful `AF` the bytes its flags demand and the
stuffing are together `field_length`, and the stuffing stands at the end of the field. -/
def Obligations.FieldLengthsAddUp : Prop :=
  ∀ (n : BitVec 5) (s t : State), s.bo = 0 → exec (.af n) s = .next t → t.err = none →
    1 + room t.f.pcr 6 + room t.f.opcr 6 + room t.f.spl 1 + room t.f.tpd (1 + t.a.tpdl.toNat) +
        room t.f.afx (1 + t.x.afxl.toNat) + t.a.stfLen.toNat = t.a.afl.toNat ∧
      t.bp = s.bp + 1 + t.a.afl.toNat ∧
      (t.a.stfV = true ↔ 0 < t.a.stfLen.toNat) ∧
      (t.a.stfV = true → t.a.stfOff + t.a.stfLen.toNat = t.bp) ∧
      (t.a.stfV = false → t.a.stfOff = 0) ∧ t.a.stfLen.toNat ≤ 254

/-- `TPDB` is a copy of the private data (10_state.md R32): the `TPDL` bytes of the buffer after the private data's length
byte, in order, 0 from there on, and `TPDL` is at most 253. -/
def Obligations.PrivateDataIsCopied : Prop :=
  ∀ (n : BitVec 5) (s t : State), s.bo = 0 → exec (.af n) s = .next t → t.err = none →
    (∀ i, i < t.a.tpdl.toNat → t.a.tpdbRead i = s.memRead (s.tpdAt s.bp + 1 + i)) ∧
    (∀ i, t.a.tpdl.toNat ≤ i → t.a.tpdbRead i = 0) ∧ t.a.tpdl.toNat ≤ 253

/-! ## The extension (43_af_extension.md) -/

/-- `AFX` stand-alone on an extension that is well formed and inside the buffer: group X as the layout tables say,
`AFX_V` set, the cursor just past the extension (R211, R218; 30_encoding.md R97 to R100, R106, R107). -/
def Obligations.AfxDecodesTheExtension : Prop :=
  ∀ (n : BitVec 5) (s : State), s.bo = 0 → s.extFits s.bp = true →
    exec (.afx n) s = .next { s with
      bp := s.fieldEnd s.bp, a := { s.a with afxV := true }, x := s.layoutX s.bp, err := none, st := .doneOk, afEnd := 0,
      afxEnd := 0, seq := none }

/-- `AFX` stand-alone on any other extension fails, everything cleared and the cursor at the failing primitive; which error
as for `AF` (R218, 41_packet_decoder.md R168; 60_exceptions.md R240, R242). -/
def Obligations.AfxRejectsOtherExtensions : Prop :=
  ∀ (n : BitVec 5) (s : State), s.bo = 0 → s.extFits s.bp = false →
    (s.extHolds s.bp = false ∧ s.extStop s.bp ≤ s.len →
      exec (.afx n) s = .next (s.failedAt .adaptationFieldOverrun (s.extStop s.bp, 0))) ∧
    (s.extHolds s.bp = true ∨ s.len < s.extStop s.bp →
      s.len < s.fieldEnd s.bp ∧ exec (.afx n) s = .next (s.failedAt .outOfData (s.extCut s.bp)))

/-! ## The packet (41_packet_decoder.md) -/

/-- `DECODE` on a packet whose header is there and whose adaptation field, if it is flagged, is well formed and inside the
buffer: every register as the layout tables say, the payload named iff `PLP`, from the first byte after the adaptation
field on (R162 to R164; 20_memory.md R68; 30_encoding.md R91 to R107). -/
def Obligations.DecodeDecodesThePacket : Prop :=
  ∀ (n : BitVec 5) (s : State), 4 ≤ s.len → ((s.layoutP 0).afp = true → s.fieldFits 4 = true) →
    let h := s.layoutP 0
    let start := if h.afp then 5 + (s.memRead 4).toNat else 4
    exec (.decode n) s = .next { s with
      bp := start, bo := 0,
      p := { h with
        afV := h.afp, plV := h.plp, plOff := if h.plp then start else 0, plLen := if h.plp then s.len - start else 0 },
      a := if h.afp then s.layoutA 4 else .clear,
      x := if h.afp then s.layoutAX 4 else .clear,
      f := if h.afp then s.layoutF 4 else .clear,
      err := none, st := .doneOk, afEnd := 0, afxEnd := 0, seq := none }

/-- `DECODE` on any other packet fails and shows nothing of it: `OutOfData` at the first primitive that lacks a byte when
the header is not all there; else as the adaptation field fails (R162, R168; 60_exceptions.md R236, R240, R242). -/
def Obligations.DecodeRejectsOtherPackets : Prop :=
  ∀ (n : BitVec 5) (s : State),
    (s.len < 4 → exec (.decode n) s = .next (s.failedAt .outOfData (if s.len = 2 then (1, 3) else (s.len, 0)))) ∧
    (4 ≤ s.len → (s.layoutP 0).afp = true → s.fieldFits 4 = false →
      (s.fieldHolds 4 = false ∧ s.fieldStop 4 ≤ s.len →
        exec (.decode n) s = .next (s.failedAt .adaptationFieldOverrun (s.fieldStop 4, 0))) ∧
      (s.fieldHolds 4 = true ∨ s.len < s.fieldStop 4 →
        s.len < s.fieldEnd 4 ∧ exec (.decode n) s = .next (s.failedAt .outOfData (s.fieldCut 4))))

/-- `AF_V` follows `AFP` and `PL_V` follows `PLP` after a successful `DECODE`; both are 0 after a successful stand-alone
`HDR` (10_state.md R28). -/
def Obligations.PresenceFollowsTheHeader : Prop :=
  ∀ (n : BitVec 5) (s t : State),
    (exec (.decode n) s = .next t → t.err = none → t.p.afV = t.p.afp ∧ t.p.plV = t.p.plp) ∧
    (exec (.hdr n) s = .next t → t.err = none → t.p.afV = false ∧ t.p.plV = false)

/-- Every other valid bit follows its flag after a successful `DECODE` (10_state.md R31, R35), and the payload reaches to
the end of the buffer (R29). -/
def Obligations.PresenceFollowsTheFlags : Prop :=
  ∀ (n : BitVec 5) (s t : State), exec (.decode n) s = .next t → t.err = none →
    t.a.pcrV = t.f.pcr ∧ t.a.opcrV = t.f.opcr ∧ t.a.splV = t.f.spl ∧ t.a.tpdV = t.f.tpd ∧ t.a.afxV = t.f.afx ∧
    t.x.ltwV = t.x.ltwf ∧ t.x.pwrV = t.x.pwrf ∧ t.x.smsV = t.x.smsf ∧
    (t.p.plV = true → t.p.plOff + t.p.plLen = t.len ∧ t.p.plOff = t.bp) ∧
    t.p.Tidy ∧ t.a.Tidy ∧ t.x.Tidy

/-- The result of a successful `DECODE` as the source's record (R166): an adaptation field iff flagged, a payload iff
flagged, and the payload is the bytes of the buffer from the first byte after the adaptation field to the last. -/
def Obligations.DecodeReturnsThePacket : Prop :=
  ∀ (n : BitVec 5) (s t : State), exec (.decode n) s = .next t →
    (∀ e, t.err = some e → t.result = .error e) ∧
    (t.err = none → ∃ packet, t.result = .ok packet ∧
      packet.adaptationField.isSome = packet.adaptationFieldPresent ∧
      packet.payload.isSome = packet.payloadPresent ∧
      ∀ bytes, packet.payload = some bytes →
        let start := match packet.adaptationField with
          | some field => 5 + field.fieldLength.toNat
          | none => 4
        start ≤ s.len ∧ bytes = (List.range (s.len - start)).map fun k => s.memRead (start + k))

/-- `OPEN`, `HDR` and `AF` one after another do what `DECODE` does to a packet with an adaptation field, but name no payload
and leave 0 in `RVAL` (95_test_vectors.md P8, from R161, R162 and 42_adaptation_field.md R182). -/
def Obligations.StagedDecodeAgrees : Prop :=
  ∀ (s t : State), exec (.decode 0) s = .next t → t.err = none → t.p.afp = true →
    execAll [.openCur 0, .hdr 0, .af 0] s = .next { t with
      rval := 0, p := { t.p with plV := false, plOff := 0, plLen := 0 } }

/-- `DECODE` keeps nothing from one packet to the next (R165, 20_memory.md R72): its outcome is a function of `DATA` and
`LEN` alone, whatever the registers held before. The host's program `script` is the model's own field
(notes/assumptions/3.md). -/
def Obligations.DecodeForgetsTheLastPacket : Prop :=
  ∀ (n m : BitVec 5) (s s' t t' : State), s'.data = s.data → s'.len = s.len →
    exec (.decode n) s = .next t → exec (.decode m) s' = .next t' →
    t' = { t with rval := s'.rval, script := s'.script }

/-! ## Errors (60_exceptions.md) -/

/-- Which errors a composite operation can end with (R245): `DECODE`, and `HDR`, `AF` and `AFX` started at a byte-aligned
cursor, end without error, with `OutOfData` or with `AdaptationFieldOverrun`; `HDR` never with the last. -/
def Obligations.CompositesRaiseTwoErrors : Prop :=
  ∀ (n : BitVec 5) (s t : State),
    (exec (.decode n) s = .next t →
      t.err = none ∨ t.err = some .outOfData ∨ t.err = some .adaptationFieldOverrun) ∧
    (s.bo = 0 → exec (.hdr n) s = .next t → t.err = none ∨ t.err = some .outOfData) ∧
    (s.bo = 0 → ∀ i ∈ [Instr.af n, .afx n], exec i s = .next t →
      t.err = none ∨ t.err = some .outOfData ∨ t.err = some .adaptationFieldOverrun)

/-- Commit or failure (41_packet_decoder.md R168, R241): a composite operation ends either DONE_OK without an error, or
DONE_ERR with every result register and latch cleared, `RVAL`, `DATA` and `LEN` as they were, and the cursor between
where it started and the end of the buffer. -/
def Obligations.CompositesCommitOrClear : Prop :=
  ∀ (n : BitVec 5) (s : State), CursorOk s → ∀ i ∈ [Instr.hdr n, .af n, .afx n, .decode n],
    ∃ t, exec i s = .next t ∧
      ((t.st = .doneOk ∧ t.err = none ∧ t.rval = s.rval) ∨
        ∃ e c, t = s.failedAt e c ∧ c.1 ≤ s.len ∧ (i ≠ .decode n → s.bitAddr ≤ 8 * c.1 + c.2.val))

/-- The error codes (R237): 0 for no error, 1 to 5 in the order of the five errors, 6 and 7 never produced. -/
def Obligations.ErrorsHaveTheirCodes : Prop :=
  errCode none = 0 ∧ errCode (some .outOfData) = 1 ∧ errCode (some .notByteAligned) = 2 ∧
  errCode (some .invalidBitCount) = 3 ∧ errCode (some .insufficientBitsInByte) = 4 ∧
  errCode (some .adaptationFieldOverrun) = 5 ∧ ∀ e, errCode e ≠ 6 ∧ errCode e ≠ 7

/-- The budget check comes before the reads (R181, R240): a group that does not fit its budget is not read, whether or
not its bytes are in the buffer, and the operation ends with `AdaptationFieldOverrun` at the group. The unit of a region
is the model's choice (notes/assumptions/4.md). -/
def Obligations.GroupsOverBudgetAreNotRead : Prop :=
  ∀ (s : State),
    (s.afEnd < s.bp + 6 → ∀ v,
      exec (.afPcr v) s = .next (s.failedAt .adaptationFieldOverrun (s.bp, s.bo)) ∧
      exec (.afOpcr v) s = .next (s.failedAt .adaptationFieldOverrun (s.bp, s.bo))) ∧
    (s.afEnd < s.bp + 1 → ∀ c n bytes,
      exec (.afSplice c) s = .next (s.failedAt .adaptationFieldOverrun (s.bp, s.bo)) ∧
      exec (.afPrivate n bytes) s = .next (s.failedAt .adaptationFieldOverrun (s.bp, s.bo))) ∧
    (s.bo = 0 → s.bp < s.len → s.bp + 1 ≤ s.afEnd → ∀ n bytes, s.afEnd < s.bp + 1 + n.toNat →
      exec (.afPrivate n bytes) s = .next (s.failedAt .adaptationFieldOverrun (s.bp + 1, 0))) ∧
    (s.afxEnd < s.bp + 2 → ∀ v o,
      exec (.afxLtw v o) s = .next (s.failedAt .adaptationFieldOverrun (s.bp, s.bo))) ∧
    (s.afxEnd < s.bp + 3 → ∀ q v,
      exec (.afxPwr q v) s = .next (s.failedAt .adaptationFieldOverrun (s.bp, s.bo))) ∧
    (s.afxEnd < s.bp + 5 → ∀ f,
      exec (.afxSms f) s = .next (s.failedAt .adaptationFieldOverrun (s.bp, s.bo)))

/-- The heads of the two length-prefixed structures check their own lengths (42_adaptation_field.md R191,
43_af_extension.md R212, R213): a zero length leaves no room for the flags byte, and an extension must lie inside its
adaptation field. The unit of a region, and a region run while no operation runs, are the model's choice
(notes/assumptions/4.md). -/
def Obligations.HeadsCheckTheirLengths : Prop :=
  ∀ (s : State), s.bo = 0 →
    (s.bp < s.len → ∀ h : AfHead, h.len = 0 →
      exec (.afHead h) s = .next (s.failedAt .adaptationFieldOverrun (s.bp + 1, 0))) ∧
    (s.running .afx ≠ .afx → s.afEnd < s.bp + 1 → ∀ h : AfxHead,
      exec (.afxHead h) s = .next (s.failedAt .adaptationFieldOverrun (s.bp, 0))) ∧
    (s.running .afx ≠ .afx → s.bp < s.len → s.bp + 1 ≤ s.afEnd → ∀ h : AfxHead,
      s.afEnd < s.bp + 1 + h.len.toNat →
      exec (.afxHead h) s = .next (s.failedAt .adaptationFieldOverrun (s.bp + 1, 0))) ∧
    (s.bp < s.len → (s.running .afx = .afx ∨ s.bp + 1 ≤ s.afEnd) → ∀ h : AfxHead, h.len = 0 →
      exec (.afxHead h) s = .next (s.failedAt .adaptationFieldOverrun (s.bp + 1, 0)))

/-! ## The regions of the packet as the sequencer runs them -/

/-- The regions of the adaptation field (42_adaptation_field.md R183 to R188): within budget and buffer each writes its
registers, moves the cursor past itself, and the sequencer goes on to the next flagged region or ends the field. The
unit of a region, and a region run while no operation runs, are the model's choice (notes/assumptions/4.md). -/
def Obligations.FieldRegionsAreRead : Prop :=
  ∀ (s : State), s.bo = 0 →
    (∀ h : AfHead, 1 ≤ h.len.toNat → s.bp + 2 ≤ s.len →
      Continues (s.running .af) .afHead { s with
        bp := s.bp + 2, a := { s.a with afl := h.len, di := h.di, rai := h.rai, espi := h.espi },
        f := { pcr := h.pcr, opcr := h.opcr, spl := h.spl, tpd := h.tpd, afx := h.afx },
        afEnd := s.bp + 1 + h.len.toNat } (exec (.afHead h) s)) ∧
    (∀ v, s.bp + 6 ≤ s.afEnd → s.bp + 6 ≤ s.len →
      Continues (s.running .af) .pcr { s with bp := s.bp + 6, a := { s.a with pcr := v, pcrV := true } }
        (exec (.afPcr v) s) ∧
      Continues (s.running .af) .opcr { s with bp := s.bp + 6, a := { s.a with opcr := v, opcrV := true } }
        (exec (.afOpcr v) s)) ∧
    (∀ c, s.bp + 1 ≤ s.afEnd → s.bp + 1 ≤ s.len →
      Continues (s.running .af) .spl { s with bp := s.bp + 1, a := { s.a with splc := c, splV := true } }
        (exec (.afSplice c) s)) ∧
    (∀ n bytes, s.bp + 1 + n.toNat ≤ s.afEnd → s.bp + 1 + n.toNat ≤ s.len →
      Continues (s.running .af) .tpd { s with
        bp := s.bp + 1 + n.toNat, a := { s.a with tpdl := n, tpdb := bytes, tpdV := true } }
        (exec (.afPrivate n bytes) s))

/-- The regions of the extension (43_af_extension.md R212 to R216), the same; the reserved and the marker bits reach no
register (30_encoding.md R108). The unit of a region, and a region run while no operation runs, are the model's choice
(notes/assumptions/4.md). -/
def Obligations.ExtensionRegionsAreRead : Prop :=
  ∀ (s : State), s.bo = 0 →
    (∀ h : AfxHead, 1 ≤ h.len.toNat → s.bp + 2 ≤ s.len →
      (s.running .afx = .afx ∨ s.bp + 1 + h.len.toNat ≤ s.afEnd) →
      Continues (s.running .afx) .afxHead { s with
        bp := s.bp + 2, x := { s.x with afxl := h.len, ltwf := h.ltw, pwrf := h.pwr, smsf := h.sms },
        afxEnd := s.bp + 1 + h.len.toNat } (exec (.afxHead h) s)) ∧
    (∀ valid offset, s.bp + 2 ≤ s.afxEnd → s.bp + 2 ≤ s.len →
      Continues (s.running .afx) .ltw { s with
        bp := s.bp + 2, x := { s.x with ltwvf := valid, ltwo := offset, ltwV := true } }
        (exec (.afxLtw valid offset) s)) ∧
    (∀ reserved rate, s.bp + 3 ≤ s.afxEnd → s.bp + 3 ≤ s.len →
      Continues (s.running .afx) .pwr { s with bp := s.bp + 3, x := { s.x with pwr := rate, pwrV := true } }
        (exec (.afxPwr reserved rate) s)) ∧
    (∀ g : Sms, s.bp + 5 ≤ s.afxEnd → s.bp + 5 ≤ s.len →
      Continues (s.running .afx) .sms { s with
        bp := s.bp + 5, x := { s.x with splt := g.splt, dts := g.d2 ++ g.d1 ++ g.d0, smsV := true } }
        (exec (.afxSms g) s))

/-- A region that fits its budget and that the buffer cuts short ends its operation with `OutOfData`, the cursor at the
primitive that lacks a byte: at the end of the buffer for regions read byte by byte, before it where a `PWIDE` lacks its
second byte (60_exceptions.md R231, R242; 41_packet_decoder.md R161, R168; 42_adaptation_field.md R183 to R188;
43_af_extension.md R212 to R216). The unit of a region is the model's choice (notes/assumptions/4.md). -/
def Obligations.RegionsCutShortRaiseOutOfData : Prop :=
  ∀ (s : State), s.bo = 0 → s.bp ≤ s.len →
    (s.len < s.bp + 4 → ∀ h, ∀ i ∈ [Instr.tspNone h, .tspPayload h, .tspAf h, .tspAfPayload h],
      exec i s = .next (s.failedAt .outOfData (if s.len = s.bp + 2 then (s.bp + 1, 3) else (s.len, 0)))) ∧
    (s.len < s.bp + 2 → ∀ h : AfHead, (1 ≤ h.len.toNat ∨ s.len = s.bp) →
      exec (.afHead h) s = .next (s.failedAt .outOfData (s.len, 0))) ∧
    (s.bp + 6 ≤ s.afEnd → s.len < s.bp + 6 → ∀ v, ∀ i ∈ [Instr.afPcr v, .afOpcr v],
      exec i s = .next (s.failedAt .outOfData (s.len, 0))) ∧
    (s.bp + 1 ≤ s.afEnd → s.len < s.bp + 1 → ∀ c n bytes, ∀ i ∈ [Instr.afSplice c, .afPrivate n bytes],
      exec i s = .next (s.failedAt .outOfData (s.len, 0))) ∧
    (∀ n bytes, s.bp + 1 + n.toNat ≤ s.afEnd → s.len < s.bp + 1 + n.toNat →
      exec (.afPrivate n bytes) s = .next (s.failedAt .outOfData (s.len, 0))) ∧
    (s.len < s.bp + 2 → ∀ h : AfxHead, (1 ≤ h.len.toNat ∨ s.len = s.bp) →
      (s.running .afx = .afx ∨ s.bp + 1 + h.len.toNat ≤ s.afEnd) →
      exec (.afxHead h) s = .next (s.failedAt .outOfData (s.len, 0))) ∧
    (s.bp + 2 ≤ s.afxEnd → s.len < s.bp + 2 → ∀ v o, exec (.afxLtw v o) s =
      .next (s.failedAt .outOfData (if s.len = s.bp + 1 then (s.bp, 1) else (s.len, 0)))) ∧
    (s.bp + 3 ≤ s.afxEnd → s.len < s.bp + 3 → ∀ q v, exec (.afxPwr q v) s =
      .next (s.failedAt .outOfData (if s.len = s.bp + 1 then (s.bp, 2) else (s.len, 0)))) ∧
    (s.bp + 5 ≤ s.afxEnd → s.len < s.bp + 5 → ∀ g, exec (.afxSms g) s =
      .next (s.failedAt .outOfData
        (if s.len = s.bp + 2 then (s.bp + 1, 0) else if s.len = s.bp + 4 then (s.bp + 3, 0) else (s.len, 0))))

/-- The order of the regions (42_adaptation_field.md R182, 43_af_extension.md R220, 30_encoding.md R115): the next
region is the first one, in wire order, whose flag is set. The unit of a region is the model's choice
(notes/assumptions/4.md). -/
def Obligations.RegionsFollowInWireOrder : Prop :=
  ∀ (op : Composite) (s : State),
    let field := [(Region.pcr, s.f.pcr), (.opcr, s.f.opcr), (.spl, s.f.spl), (.tpd, s.f.tpd), (.afxHead, s.f.afx)]
    let ext := [(Region.ltw, s.x.ltwf), (.pwr, s.x.pwrf), (.sms, s.x.smsf)]
    (∀ k r, [Region.afHead, .pcr, .opcr, .spl, .tpd][k]? = some r →
      nextRegion op r s = ((field.drop k).find? (·.2)).map (·.1)) ∧
    (∀ k r, [Region.afxHead, .ltw, .pwr, .sms][k]? = some r →
      nextRegion op r s = ((ext.drop k).find? (·.2)).map (·.1)) ∧
    (nextRegion op .tsh s = some .afHead ↔ op = .decode ∧ s.p.afp = true)

/-- What the decoder reads at the cursor is what the cursor's primitives read there: the region's instruction, executed,
does exactly the region's reads (40_cursor.md R140; 30_encoding.md R104 to R107). The unit of a region is the model's
choice (notes/assumptions/4.md). -/
def Obligations.DecodedRegionsAreTheCursorsReads : Prop :=
  ∀ (s : State) (op : Composite) (r : Region) (i : Instr), s.seq = some (op, r) → s.fetchRegion r = some i →
    exec i s = runRegion op r (regionReads op r) s

/-- A composite operation that is watched region by region ends in the state that it reaches as one atomic step
(00_scope.md R11, 10_state.md R38), in at most 10 steps. The watched run and the host's program are the model's choices
(notes/assumptions/3.md and 4.md). -/
def Obligations.WatchedRunsAreAtomicRuns : Prop :=
  ∀ (op : Composite) (s : State), s.script.head? ≠ some .reset → s.script.head? ≠ some .wait →
    ∃ k, k ≤ 10 ∧ Sys2Proof.core.run k (s.start op) = runAtomic op s

/-! ## The step -/

/-- With the sequencer idle a step executes the command word that the host writes, or starts a composite operation that
is to be watched (10_state.md R37). The host's program is the model's own field (notes/assumptions/3.md). -/
def Obligations.StepRunsTheHostsCommand : Prop :=
  ∀ (s : State) (w : Cmd) (rest : List HostAction), s.seq = none →
    (s.script = .cmd w :: rest → step s = exec (decodeCmd w) { s with script := rest }) ∧
    (s.script = .issue w :: rest →
      (∀ op, compositeOf (decodeCmd w) = some op → step s = .next ({ s with script := rest }.start op)) ∧
      (compositeOf (decodeCmd w) = none → step s = exec (decodeCmd w) { s with script := rest }))

/-- With the sequencer at a region whose instruction's bytes stand at the cursor, a step executes that instruction
(00_scope.md R8, 30_encoding.md R90). The unit of a region and the host's program are the model's choices
(notes/assumptions/3.md and 4.md). -/
def Obligations.StepRunsTheRegionAtTheCursor : Prop :=
  ∀ (s : State) (op : Composite) (r : Region) (i : Instr) (bytes : List Byte),
    s.seq = some (op, r) → s.script.head? ≠ some .reset → s.script.head? ≠ some .wait →
    i.wellFormed = true → encode i = .wire r bytes → s.bo = 0 → s.bp + bytes.length ≤ s.len →
    s.bytesAt s.bp bytes.length = bytes → step s = exec i s

/-- The block never stops: every step gives a next state, errors included, and with nothing for the host to do an idle
block waits (60_exceptions.md R241, R243; 70_reset_and_hazards.md R270). The host's program is the model's own field
(notes/assumptions/3.md). -/
def Obligations.EveryStepGoesOn : Prop :=
  ∀ (s : State), SafeStep s ∧ (s.seq = none → s.script = [] → step s = .next s)

/-- The hardware reset (70_reset_and_hazards.md R270): applied at any time, also while an operation runs, it puts every
register at its reset value and leaves `DATA` and `LEN` alone; after it the block waits for a command. The reset is an
action of the host's program, the model's own field (notes/assumptions/3.md). -/
def Obligations.ResetAppliesAtAnyTime : Prop :=
  ∀ (s : State) (rest : List HostAction), s.script = .reset :: rest →
    let t : State :=
      { data := s.data, len := s.len, bp := 0, bo := 0, p := .clear, a := .clear, x := .clear, f := .clear, st := .idle,
        err := none, rval := 0, afEnd := 0, afxEnd := 0, seq := none, script := rest }
    step s = .next t ∧ (rest = [] → step t = .next t)

/-- The reset values (10_state.md R44), `DATA` and `LEN` apart, which that rule leaves to the host. -/
def Obligations.ResetValues : Prop :=
  let s := State.reset
  s.bp = 0 ∧ s.bo = 0 ∧ s.st = .idle ∧ s.st.code = 0 ∧ errCode s.err = 0 ∧ s.rval = 0 ∧ s.p = .clear ∧ s.a = .clear ∧
  s.x = .clear ∧ s.f = .clear ∧ s.afEnd = 0 ∧ s.afxEnd = 0 ∧ s.seq = none ∧ ∀ i, s.a.tpdbRead i = 0

/-! ## What the host sees (10_state.md) -/

/-- The host's reads (R37 to R40, R46): `CMD` reads as 0, `ST`, `ERR` and `RVAL` as their numbers; the cursor, the latches,
the budgets and the sequencer cannot be read; while `ST` is not BUSY each result register of groups P, A and X reads as
what it holds (R27, R30, R34), the 255 entries of `TPDB` one by one (R32) and none past them; and every read, also while
BUSY, stays within its register's width (R27, R30, R34, R47). What a read gives while BUSY is a free value
(notes/assumptions/6.md); which registers answer is the model's reading (notes/assumptions/12.md). -/
def Obligations.HostReadsTheRegisters : Prop :=
  ∀ (s : State),
    s.hostRead .cmd = some 0 ∧ s.hostRead .st = some s.st.code.toNat ∧ s.hostRead .err = some (errCode s.err).toNat ∧
    s.hostRead .rval = some s.rval.toNat ∧
    (∀ r ∈ [Reg.bp, .bo, .fPcr, .fOpcr, .fSpl, .fTpd, .fAfx, .afEnd, .afxEnd, .seqStep], s.hostRead r = none) ∧
    (s.st ≠ .busy →
      s.hostRead .pV = some s.p.pV.toNat ∧ s.hostRead .sync = some s.p.sync.toNat ∧
      s.hostRead .tei = some s.p.tei.toNat ∧ s.hostRead .pusi = some s.p.pusi.toNat ∧
      s.hostRead .tpri = some s.p.tpri.toNat ∧ s.hostRead .pid = some s.p.pid.toNat ∧
      s.hostRead .tsc = some s.p.tsc.toNat ∧ s.hostRead .afp = some s.p.afp.toNat ∧
      s.hostRead .plp = some s.p.plp.toNat ∧ s.hostRead .cc = some s.p.cc.toNat ∧
      s.hostRead .afV = some s.p.afV.toNat ∧ s.hostRead .plV = some s.p.plV.toNat ∧
      s.hostRead .plOff = some s.p.plOff ∧ s.hostRead .plLen = some s.p.plLen) ∧
    (s.st ≠ .busy →
      s.hostRead .afl = some s.a.afl.toNat ∧ s.hostRead .di = some s.a.di.toNat ∧
      s.hostRead .rai = some s.a.rai.toNat ∧ s.hostRead .espi = some s.a.espi.toNat ∧
      s.hostRead .pcrV = some s.a.pcrV.toNat ∧ s.hostRead .pcr = some s.a.pcr.toNat ∧
      s.hostRead .opcrV = some s.a.opcrV.toNat ∧ s.hostRead .opcr = some s.a.opcr.toNat ∧
      s.hostRead .splV = some s.a.splV.toNat ∧ s.hostRead .splc = some s.a.splc.toNat ∧
      s.hostRead .tpdV = some s.a.tpdV.toNat ∧ s.hostRead .tpdl = some s.a.tpdl.toNat ∧
      s.hostRead .afxV = some s.a.afxV.toNat ∧ s.hostRead .stfV = some s.a.stfV.toNat ∧
      s.hostRead .stfOff = some s.a.stfOff ∧ s.hostRead .stfLen = some s.a.stfLen.toNat) ∧
    (s.st ≠ .busy →
      s.hostRead .afxl = some s.x.afxl.toNat ∧ s.hostRead .ltwf = some s.x.ltwf.toNat ∧
      s.hostRead .pwrf = some s.x.pwrf.toNat ∧ s.hostRead .smsf = some s.x.smsf.toNat ∧
      s.hostRead .ltwV = some s.x.ltwV.toNat ∧ s.hostRead .ltwvf = some s.x.ltwvf.toNat ∧
      s.hostRead .ltwo = some s.x.ltwo.toNat ∧ s.hostRead .pwrV = some s.x.pwrV.toNat ∧
      s.hostRead .pwr = some s.x.pwr.toNat ∧ s.hostRead .smsV = some s.x.smsV.toNat ∧
      s.hostRead .splt = some s.x.splt.toNat ∧ s.hostRead .dts = some s.x.dts.toNat) ∧
    (∀ i, i < 255 → s.st ≠ .busy → s.hostRead (.tpdb i) = some (s.a.tpdbRead i).toNat) ∧
    (∀ i, 255 ≤ i → s.hostRead (.tpdb i) = none) ∧
    (∀ i v, s.hostRead (.tpdb i) = some v → v < 2 ^ 8) ∧
    (∀ row ∈ [(1, [Reg.pV, .tei, .pusi, .tpri, .afp, .plp, .afV, .plV, .di, .rai, .espi, .pcrV, .opcrV, .splV, .tpdV,
          .afxV, .stfV, .ltwf, .pwrf, .smsf, .ltwV, .ltwvf, .pwrV, .smsV]),
        (2, [.st, .tsc]), (3, [.err]), (4, [.cc, .splt]), (8, [.sync, .afl, .splc, .tpdl, .stfLen, .afxl]), (9, [.cmd]),
        (13, [.pid]), (15, [.ltwo]), (16, [.rval]), (22, [.pwr]), (33, [.dts]), (48, [.pcr, .opcr])],
      ∀ r ∈ row.2, ∀ v, s.hostRead r = some v → v < 2 ^ row.1)

/-- The host's writes (R46): bytes written to `DATA` read back, every other byte of the buffer and all the block's state
stay, and the canonical form of the buffer is kept; writing `LEN` writes `LEN` alone. That the buffer is in canonical
form in every state a run reaches is part of `StepKeepsTheInvariant`. The host's program and the form of memory are the
model's choices (notes/assumptions/1.md and 3.md). -/
def Obligations.HostWritesTheBuffer : Prop :=
  ∀ (s : State) (rest : List HostAction), s.seq = none → s.data.wf = true →
    (∀ o bytes, s.script = .data o bytes :: rest →
      ∃ d, step s = .next { s with data := d, script := rest } ∧ Memory.wf d = true ∧
        (∀ k (h : k < bytes.length), Memory.read d (o + k) = bytes[k]) ∧
        (∀ a, a < o ∨ o + bytes.length ≤ a → Memory.read d a = s.data.read a)) ∧
    (∀ n, s.script = .len n :: rest → step s = .next { s with len := n, script := rest })

/-! ## Whole-machine rules -/

/-- No instruction writes the buffer, its length or what the host does next (20_memory.md R61, 10_state.md R41): every
byte of memory reads as before. The host's program is the model's own field (notes/assumptions/3.md). -/
def Obligations.NoInstructionWritesTheBuffer : Prop :=
  ∀ (i : Instr) (s t : State), exec i s = .next t →
    t.len = s.len ∧ t.script = s.script ∧ t.data = s.data ∧ ∀ a, t.memRead a = s.memRead a

/-- No read goes outside the buffer (20_memory.md R69): bytes at or past `LEN` decide nothing. Two buffers that agree
below `LEN` give every instruction the same outcome, the buffer itself apart. -/
def Obligations.BytesPastTheEndDecideNothing : Prop :=
  ∀ (i : Instr) (s t : State) (d : Memory), (∀ a, a < s.len → d.read a = s.data.read a) → exec i s = .next t →
    exec i { s with data := d } = .next { t with data := d }

/-- The cursor's invariant (10_state.md R24) and the stronger one that R25 derives from it: every instruction keeps both,
and `OPEN` and `DECODE` establish them (40_cursor.md R131, 41_packet_decoder.md R162). -/
def Obligations.InstructionsKeepTheCursorInside : Prop :=
  ∀ (i : Instr) (s t : State), exec i s = .next t →
    (s.bp ≤ s.len → t.bp ≤ t.len) ∧ (CursorOk s → CursorOk t) ∧ (bindsCursor i = true → CursorOk t)

/-- The cursor only moves forward (10_state.md R26): every instruction but `OPEN` and `DECODE`, which rewind it, leaves the
bit address where it was or higher, and never past the end of the buffer. -/
def Obligations.CursorOnlyMovesForward : Prop :=
  ∀ (i : Instr) (s t : State), exec i s = .next t →
    (bindsCursor i = false → s.bitAddr ≤ t.bitAddr) ∧ (CursorOk s → t.bitAddr ≤ 8 * t.len)

/-- Who writes what (10_state.md R46): a cursor command writes no result register, latch or budget (40_cursor.md R141); only
cursor commands write `RVAL` (R40); and where a composite operation succeeds, `HDR` leaves the latches, `AF` leaves group
P but for `AF_V`, `AFX` leaves groups P and A but for `AFX_V`, and the latches. -/
def Obligations.InstructionsWriteTheirOwnRegisters : Prop :=
  ∀ (n : BitVec 5) (s t : State),
    (∀ i ∈ [Instr.openCur n, .pbit n, .pbits n, .pbyte n, .pwide n], exec i s = .next t →
      t.p = s.p ∧ t.a = s.a ∧ t.x = s.x ∧ t.f = s.f ∧ t.afEnd = s.afEnd ∧ t.afxEnd = s.afxEnd ∧ t.seq = s.seq) ∧
    (∀ i, (∀ m, i ≠ .openCur m ∧ i ≠ .pbit m ∧ i ≠ .pbits m ∧ i ≠ .pbyte m ∧ i ≠ .pwide m) →
      exec i s = .next t → t.rval = s.rval) ∧
    (exec (.hdr n) s = .next t → t.err = none → t.f = s.f) ∧
    (exec (.af n) s = .next t → t.err = none → t.p = { s.p with afV := true }) ∧
    (exec (.afx n) s = .next t → t.err = none → t.p = s.p ∧ t.a = { s.a with afxV := true } ∧ t.f = s.f)

/-- An operation is over when it has run to its end or raised (70_reset_and_hazards.md R281, 10_state.md R38, R39):
after any command that starts an operation `ST` is DONE_OK with `ERR` 0 or DONE_ERR with an error, and nothing of the
sequencer or the budgets is left. That the budgets are 0 while no operation runs is the model's reading
(notes/assumptions/7.md). -/
def Obligations.OperationsEndDone : Prop :=
  ∀ (i : Instr) (s t : State), startsOperation i = true → s.seq = none → s.afEnd = 0 → s.afxEnd = 0 →
    exec i s = .next t →
    ((t.st = .doneOk ∧ t.err = none) ∨ (t.st = .doneErr ∧ t.err ≠ none)) ∧
      t.seq = none ∧ t.afEnd = 0 ∧ t.afxEnd = 0

/-- Every step keeps the model's invariant (`MachineInv`): memory in canonical form, an absent value 0 in every group
(10_state.md R29, R31, R33, R35), `TPDB` as long as `TPDL`, and a legal sequencer (R38, R42). The form of memory, of
`TPDB` and of the sequencer is the model's (notes/assumptions/1.md, 4.md, 5.md and 7.md). -/
def Obligations.StepKeepsTheInvariant : Prop := ∀ (s t : State), MachineInv s → step s = .next t → MachineInv t

/-- The reset state meets the invariant. `DATA` and `LEN` at reset are the model's choice (notes/assumptions/1.md). -/
def Obligations.ResetMeetsTheInvariant : Prop := MachineInv State.reset ∧ AdmittedInv State.reset

/-- With a host that does its duty (70_reset_and_hazards.md R272, R273) every step keeps the cursor inside the buffer,
or leaves it to be bound by `OPEN` or `DECODE` before it is used. The form of the host's duty is the model's choice
(notes/assumptions/3.md and 8.md). -/
def Obligations.AdmittedHostsKeepTheCursorBound : Prop :=
  ∀ (s t : State), AdmittedInv s → step s = .next t → AdmittedInv t

end
end

