-- ==== Sys2Proof/Laws/State.lean ====
section
/-! SUPPORT. For each update of the state, what each field holds after it: one lemma per field, true by unfolding, so
that no later proof unfolds a record update. -/

namespace Sys2Proof.Machine

@[simp] theorem State.seek_data (s : State) (c : Nat × Fin 8) : (s.seek c).data = s.data := rfl
@[simp] theorem State.seek_len (s : State) (c : Nat × Fin 8) : (s.seek c).len = s.len := rfl
@[simp] theorem State.seek_bp (s : State) (c : Nat × Fin 8) : (s.seek c).bp = c.1 := rfl
@[simp] theorem State.seek_bo (s : State) (c : Nat × Fin 8) : (s.seek c).bo = c.2 := rfl
@[simp] theorem State.seek_p (s : State) (c : Nat × Fin 8) : (s.seek c).p = s.p := rfl
@[simp] theorem State.seek_a (s : State) (c : Nat × Fin 8) : (s.seek c).a = s.a := rfl
@[simp] theorem State.seek_x (s : State) (c : Nat × Fin 8) : (s.seek c).x = s.x := rfl
@[simp] theorem State.seek_f (s : State) (c : Nat × Fin 8) : (s.seek c).f = s.f := rfl
@[simp] theorem State.seek_st (s : State) (c : Nat × Fin 8) : (s.seek c).st = s.st := rfl
@[simp] theorem State.seek_err (s : State) (c : Nat × Fin 8) : (s.seek c).err = s.err := rfl
@[simp] theorem State.seek_rval (s : State) (c : Nat × Fin 8) : (s.seek c).rval = s.rval := rfl
@[simp] theorem State.seek_afEnd (s : State) (c : Nat × Fin 8) : (s.seek c).afEnd = s.afEnd := rfl
@[simp] theorem State.seek_afxEnd (s : State) (c : Nat × Fin 8) : (s.seek c).afxEnd = s.afxEnd := rfl
@[simp] theorem State.seek_seq (s : State) (c : Nat × Fin 8) : (s.seek c).seq = s.seq := rfl
@[simp] theorem State.seek_script (s : State) (c : Nat × Fin 8) : (s.seek c).script = s.script := rfl

@[simp] theorem State.leaveSequencer_data (s : State) : (s.leaveSequencer).data = s.data := rfl
@[simp] theorem State.leaveSequencer_len (s : State) : (s.leaveSequencer).len = s.len := rfl
@[simp] theorem State.leaveSequencer_bp (s : State) : (s.leaveSequencer).bp = s.bp := rfl
@[simp] theorem State.leaveSequencer_bo (s : State) : (s.leaveSequencer).bo = s.bo := rfl
@[simp] theorem State.leaveSequencer_p (s : State) : (s.leaveSequencer).p = s.p := rfl
@[simp] theorem State.leaveSequencer_a (s : State) : (s.leaveSequencer).a = s.a := rfl
@[simp] theorem State.leaveSequencer_x (s : State) : (s.leaveSequencer).x = s.x := rfl
@[simp] theorem State.leaveSequencer_f (s : State) : (s.leaveSequencer).f = s.f := rfl
@[simp] theorem State.leaveSequencer_st (s : State) : (s.leaveSequencer).st = s.st := rfl
@[simp] theorem State.leaveSequencer_err (s : State) : (s.leaveSequencer).err = s.err := rfl
@[simp] theorem State.leaveSequencer_rval (s : State) : (s.leaveSequencer).rval = s.rval := rfl
@[simp] theorem State.leaveSequencer_afEnd (s : State) : (s.leaveSequencer).afEnd = 0 := rfl
@[simp] theorem State.leaveSequencer_afxEnd (s : State) : (s.leaveSequencer).afxEnd = 0 := rfl
@[simp] theorem State.leaveSequencer_seq (s : State) : (s.leaveSequencer).seq = none := rfl
@[simp] theorem State.leaveSequencer_script (s : State) : (s.leaveSequencer).script = s.script := rfl

@[simp] theorem State.finish_data (s : State) : (s.finish).data = s.data := rfl
@[simp] theorem State.finish_len (s : State) : (s.finish).len = s.len := rfl
@[simp] theorem State.finish_bp (s : State) : (s.finish).bp = s.bp := rfl
@[simp] theorem State.finish_bo (s : State) : (s.finish).bo = s.bo := rfl
@[simp] theorem State.finish_p (s : State) : (s.finish).p = s.p := rfl
@[simp] theorem State.finish_a (s : State) : (s.finish).a = s.a := rfl
@[simp] theorem State.finish_x (s : State) : (s.finish).x = s.x := rfl
@[simp] theorem State.finish_f (s : State) : (s.finish).f = s.f := rfl
@[simp] theorem State.finish_st (s : State) : (s.finish).st = .doneOk := rfl
@[simp] theorem State.finish_err (s : State) : (s.finish).err = none := rfl
@[simp] theorem State.finish_rval (s : State) : (s.finish).rval = s.rval := rfl
@[simp] theorem State.finish_afEnd (s : State) : (s.finish).afEnd = 0 := rfl
@[simp] theorem State.finish_afxEnd (s : State) : (s.finish).afxEnd = 0 := rfl
@[simp] theorem State.finish_seq (s : State) : (s.finish).seq = none := rfl
@[simp] theorem State.finish_script (s : State) : (s.finish).script = s.script := rfl

@[simp] theorem State.takeErrorRaw_data (s : State) (e : DecodeError) : (s.takeError .raw e).data = s.data := rfl
@[simp] theorem State.takeErrorRaw_len (s : State) (e : DecodeError) : (s.takeError .raw e).len = s.len := rfl
@[simp] theorem State.takeErrorRaw_bp (s : State) (e : DecodeError) : (s.takeError .raw e).bp = s.bp := rfl
@[simp] theorem State.takeErrorRaw_bo (s : State) (e : DecodeError) : (s.takeError .raw e).bo = s.bo := rfl
@[simp] theorem State.takeErrorRaw_p (s : State) (e : DecodeError) : (s.takeError .raw e).p = s.p := rfl
@[simp] theorem State.takeErrorRaw_a (s : State) (e : DecodeError) : (s.takeError .raw e).a = s.a := rfl
@[simp] theorem State.takeErrorRaw_x (s : State) (e : DecodeError) : (s.takeError .raw e).x = s.x := rfl
@[simp] theorem State.takeErrorRaw_f (s : State) (e : DecodeError) : (s.takeError .raw e).f = s.f := rfl
@[simp] theorem State.takeErrorRaw_st (s : State) (e : DecodeError) : (s.takeError .raw e).st = .doneErr := rfl
@[simp] theorem State.takeErrorRaw_err (s : State) (e : DecodeError) : (s.takeError .raw e).err = some e := rfl
@[simp] theorem State.takeErrorRaw_rval (s : State) (e : DecodeError) : (s.takeError .raw e).rval = 0 := rfl
@[simp] theorem State.takeErrorRaw_afEnd (s : State) (e : DecodeError) : (s.takeError .raw e).afEnd = s.afEnd := rfl
@[simp] theorem State.takeErrorRaw_afxEnd (s : State) (e : DecodeError) : (s.takeError .raw e).afxEnd = s.afxEnd := rfl
@[simp] theorem State.takeErrorRaw_seq (s : State) (e : DecodeError) : (s.takeError .raw e).seq = s.seq := rfl
@[simp] theorem State.takeErrorRaw_script (s : State) (e : DecodeError) : (s.takeError .raw e).script = s.script := rfl

@[simp] theorem State.takeErrorComposite_data (s : State) (e : DecodeError) : (s.takeError .composite e).data = s.data :=
  rfl
@[simp] theorem State.takeErrorComposite_len (s : State) (e : DecodeError) : (s.takeError .composite e).len = s.len :=
  rfl
@[simp] theorem State.takeErrorComposite_bp (s : State) (e : DecodeError) : (s.takeError .composite e).bp = s.bp := rfl
@[simp] theorem State.takeErrorComposite_bo (s : State) (e : DecodeError) : (s.takeError .composite e).bo = s.bo := rfl
@[simp] theorem State.takeErrorComposite_p (s : State) (e : DecodeError) : (s.takeError .composite e).p = .clear := rfl
@[simp] theorem State.takeErrorComposite_a (s : State) (e : DecodeError) : (s.takeError .composite e).a = .clear := rfl
@[simp] theorem State.takeErrorComposite_x (s : State) (e : DecodeError) : (s.takeError .composite e).x = .clear := rfl
@[simp] theorem State.takeErrorComposite_f (s : State) (e : DecodeError) : (s.takeError .composite e).f = .clear := rfl
@[simp] theorem State.takeErrorComposite_st (s : State) (e : DecodeError) : (s.takeError .composite e).st = .doneErr :=
  rfl
@[simp] theorem State.takeErrorComposite_err (s : State) (e : DecodeError) : (s.takeError .composite e).err = some e :=
  rfl
@[simp] theorem State.takeErrorComposite_rval (s : State) (e : DecodeError) : (s.takeError .composite e).rval = s.rval :=
  rfl
@[simp] theorem State.takeErrorComposite_afEnd (s : State) (e : DecodeError) : (s.takeError .composite e).afEnd = 0 :=
  rfl
@[simp] theorem State.takeErrorComposite_afxEnd (s : State) (e : DecodeError) : (s.takeError .composite e).afxEnd = 0 :=
  rfl
@[simp] theorem State.takeErrorComposite_seq (s : State) (e : DecodeError) : (s.takeError .composite e).seq = none :=
  rfl
@[simp] theorem State.takeErrorComposite_script (s : State) (e : DecodeError) : (s.takeError .composite e).script = s.script :=
  rfl

@[simp] theorem State.clearAll_data (s : State) : (s.clearAll).data = s.data := rfl
@[simp] theorem State.clearAll_len (s : State) : (s.clearAll).len = s.len := rfl
@[simp] theorem State.clearAll_bp (s : State) : (s.clearAll).bp = s.bp := rfl
@[simp] theorem State.clearAll_bo (s : State) : (s.clearAll).bo = s.bo := rfl
@[simp] theorem State.clearAll_p (s : State) : (s.clearAll).p = .clear := rfl
@[simp] theorem State.clearAll_a (s : State) : (s.clearAll).a = .clear := rfl
@[simp] theorem State.clearAll_x (s : State) : (s.clearAll).x = .clear := rfl
@[simp] theorem State.clearAll_f (s : State) : (s.clearAll).f = .clear := rfl
@[simp] theorem State.clearAll_st (s : State) : (s.clearAll).st = s.st := rfl
@[simp] theorem State.clearAll_err (s : State) : (s.clearAll).err = s.err := rfl
@[simp] theorem State.clearAll_rval (s : State) : (s.clearAll).rval = s.rval := rfl
@[simp] theorem State.clearAll_afEnd (s : State) : (s.clearAll).afEnd = s.afEnd := rfl
@[simp] theorem State.clearAll_afxEnd (s : State) : (s.clearAll).afxEnd = s.afxEnd := rfl
@[simp] theorem State.clearAll_seq (s : State) : (s.clearAll).seq = s.seq := rfl
@[simp] theorem State.clearAll_script (s : State) : (s.clearAll).script = s.script := rfl

@[simp] theorem State.clearGroups_data (s : State) : (s.clearGroups).data = s.data := rfl
@[simp] theorem State.clearGroups_len (s : State) : (s.clearGroups).len = s.len := rfl
@[simp] theorem State.clearGroups_bp (s : State) : (s.clearGroups).bp = s.bp := rfl
@[simp] theorem State.clearGroups_bo (s : State) : (s.clearGroups).bo = s.bo := rfl
@[simp] theorem State.clearGroups_p (s : State) : (s.clearGroups).p = .clear := rfl
@[simp] theorem State.clearGroups_a (s : State) : (s.clearGroups).a = .clear := rfl
@[simp] theorem State.clearGroups_x (s : State) : (s.clearGroups).x = .clear := rfl
@[simp] theorem State.clearGroups_f (s : State) : (s.clearGroups).f = s.f := rfl
@[simp] theorem State.clearGroups_st (s : State) : (s.clearGroups).st = s.st := rfl
@[simp] theorem State.clearGroups_err (s : State) : (s.clearGroups).err = s.err := rfl
@[simp] theorem State.clearGroups_rval (s : State) : (s.clearGroups).rval = s.rval := rfl
@[simp] theorem State.clearGroups_afEnd (s : State) : (s.clearGroups).afEnd = s.afEnd := rfl
@[simp] theorem State.clearGroups_afxEnd (s : State) : (s.clearGroups).afxEnd = s.afxEnd := rfl
@[simp] theorem State.clearGroups_seq (s : State) : (s.clearGroups).seq = s.seq := rfl
@[simp] theorem State.clearGroups_script (s : State) : (s.clearGroups).script = s.script := rfl

@[simp] theorem State.clearAf_data (s : State) : (s.clearAf).data = s.data := rfl
@[simp] theorem State.clearAf_len (s : State) : (s.clearAf).len = s.len := rfl
@[simp] theorem State.clearAf_bp (s : State) : (s.clearAf).bp = s.bp := rfl
@[simp] theorem State.clearAf_bo (s : State) : (s.clearAf).bo = s.bo := rfl
@[simp] theorem State.clearAf_p (s : State) : (s.clearAf).p = s.p := rfl
@[simp] theorem State.clearAf_a (s : State) : (s.clearAf).a = .clear := rfl
@[simp] theorem State.clearAf_x (s : State) : (s.clearAf).x = .clear := rfl
@[simp] theorem State.clearAf_f (s : State) : (s.clearAf).f = .clear := rfl
@[simp] theorem State.clearAf_st (s : State) : (s.clearAf).st = s.st := rfl
@[simp] theorem State.clearAf_err (s : State) : (s.clearAf).err = s.err := rfl
@[simp] theorem State.clearAf_rval (s : State) : (s.clearAf).rval = s.rval := rfl
@[simp] theorem State.clearAf_afEnd (s : State) : (s.clearAf).afEnd = s.afEnd := rfl
@[simp] theorem State.clearAf_afxEnd (s : State) : (s.clearAf).afxEnd = s.afxEnd := rfl
@[simp] theorem State.clearAf_seq (s : State) : (s.clearAf).seq = s.seq := rfl
@[simp] theorem State.clearAf_script (s : State) : (s.clearAf).script = s.script := rfl

@[simp] theorem State.clearX_data (s : State) : (s.clearX).data = s.data := rfl
@[simp] theorem State.clearX_len (s : State) : (s.clearX).len = s.len := rfl
@[simp] theorem State.clearX_bp (s : State) : (s.clearX).bp = s.bp := rfl
@[simp] theorem State.clearX_bo (s : State) : (s.clearX).bo = s.bo := rfl
@[simp] theorem State.clearX_p (s : State) : (s.clearX).p = s.p := rfl
@[simp] theorem State.clearX_a (s : State) : (s.clearX).a = s.a := rfl
@[simp] theorem State.clearX_x (s : State) : (s.clearX).x = .clear := rfl
@[simp] theorem State.clearX_f (s : State) : (s.clearX).f = s.f := rfl
@[simp] theorem State.clearX_st (s : State) : (s.clearX).st = s.st := rfl
@[simp] theorem State.clearX_err (s : State) : (s.clearX).err = s.err := rfl
@[simp] theorem State.clearX_rval (s : State) : (s.clearX).rval = s.rval := rfl
@[simp] theorem State.clearX_afEnd (s : State) : (s.clearX).afEnd = s.afEnd := rfl
@[simp] theorem State.clearX_afxEnd (s : State) : (s.clearX).afxEnd = s.afxEnd := rfl
@[simp] theorem State.clearX_seq (s : State) : (s.clearX).seq = s.seq := rfl
@[simp] theorem State.clearX_script (s : State) : (s.clearX).script = s.script := rfl

@[simp] theorem State.putHdr_data (s : State) (h : Tsh) (afp plp : Bool) : (s.putHdr h afp plp).data = s.data := rfl
@[simp] theorem State.putHdr_len (s : State) (h : Tsh) (afp plp : Bool) : (s.putHdr h afp plp).len = s.len := rfl
@[simp] theorem State.putHdr_bp (s : State) (h : Tsh) (afp plp : Bool) : (s.putHdr h afp plp).bp = s.bp := rfl
@[simp] theorem State.putHdr_bo (s : State) (h : Tsh) (afp plp : Bool) : (s.putHdr h afp plp).bo = s.bo := rfl
@[simp] theorem State.putHdr_p (s : State) (h : Tsh) (afp plp : Bool) : (s.putHdr h afp plp).p = { s.p with
      pV := true, sync := h.sync, tei := h.tei, pusi := h.pusi, tpri := h.tpri, pid := h.pid, tsc := h.tsc,
      afp := afp, plp := plp, cc := h.cc } := rfl
@[simp] theorem State.putHdr_a (s : State) (h : Tsh) (afp plp : Bool) : (s.putHdr h afp plp).a = s.a := rfl
@[simp] theorem State.putHdr_x (s : State) (h : Tsh) (afp plp : Bool) : (s.putHdr h afp plp).x = s.x := rfl
@[simp] theorem State.putHdr_f (s : State) (h : Tsh) (afp plp : Bool) : (s.putHdr h afp plp).f = s.f := rfl
@[simp] theorem State.putHdr_st (s : State) (h : Tsh) (afp plp : Bool) : (s.putHdr h afp plp).st = s.st := rfl
@[simp] theorem State.putHdr_err (s : State) (h : Tsh) (afp plp : Bool) : (s.putHdr h afp plp).err = s.err := rfl
@[simp] theorem State.putHdr_rval (s : State) (h : Tsh) (afp plp : Bool) : (s.putHdr h afp plp).rval = s.rval := rfl
@[simp] theorem State.putHdr_afEnd (s : State) (h : Tsh) (afp plp : Bool) : (s.putHdr h afp plp).afEnd = s.afEnd := rfl
@[simp] theorem State.putHdr_afxEnd (s : State) (h : Tsh) (afp plp : Bool) : (s.putHdr h afp plp).afxEnd = s.afxEnd :=
  rfl
@[simp] theorem State.putHdr_seq (s : State) (h : Tsh) (afp plp : Bool) : (s.putHdr h afp plp).seq = s.seq := rfl
@[simp] theorem State.putHdr_script (s : State) (h : Tsh) (afp plp : Bool) : (s.putHdr h afp plp).script = s.script :=
  rfl

@[simp] theorem State.putAfHead_data (s : State) (h : AfHead) (e : Nat) : (s.putAfHead h e).data = s.data := rfl
@[simp] theorem State.putAfHead_len (s : State) (h : AfHead) (e : Nat) : (s.putAfHead h e).len = s.len := rfl
@[simp] theorem State.putAfHead_bp (s : State) (h : AfHead) (e : Nat) : (s.putAfHead h e).bp = s.bp := rfl
@[simp] theorem State.putAfHead_bo (s : State) (h : AfHead) (e : Nat) : (s.putAfHead h e).bo = s.bo := rfl
@[simp] theorem State.putAfHead_p (s : State) (h : AfHead) (e : Nat) : (s.putAfHead h e).p = s.p := rfl
@[simp] theorem State.putAfHead_a (s : State) (h : AfHead) (e : Nat) : (s.putAfHead h e).a = { s.a with afl := h.len, di := h.di, rai := h.rai, espi := h.espi } :=
  rfl
@[simp] theorem State.putAfHead_x (s : State) (h : AfHead) (e : Nat) : (s.putAfHead h e).x = s.x := rfl
@[simp] theorem State.putAfHead_f (s : State) (h : AfHead) (e : Nat) : (s.putAfHead h e).f = .ofHead h := rfl
@[simp] theorem State.putAfHead_st (s : State) (h : AfHead) (e : Nat) : (s.putAfHead h e).st = s.st := rfl
@[simp] theorem State.putAfHead_err (s : State) (h : AfHead) (e : Nat) : (s.putAfHead h e).err = s.err := rfl
@[simp] theorem State.putAfHead_rval (s : State) (h : AfHead) (e : Nat) : (s.putAfHead h e).rval = s.rval := rfl
@[simp] theorem State.putAfHead_afEnd (s : State) (h : AfHead) (e : Nat) : (s.putAfHead h e).afEnd = e := rfl
@[simp] theorem State.putAfHead_afxEnd (s : State) (h : AfHead) (e : Nat) : (s.putAfHead h e).afxEnd = s.afxEnd := rfl
@[simp] theorem State.putAfHead_seq (s : State) (h : AfHead) (e : Nat) : (s.putAfHead h e).seq = s.seq := rfl
@[simp] theorem State.putAfHead_script (s : State) (h : AfHead) (e : Nat) : (s.putAfHead h e).script = s.script := rfl

@[simp] theorem State.putAfxHead_data (s : State) (h : AfxHead) (e : Nat) : (s.putAfxHead h e).data = s.data := rfl
@[simp] theorem State.putAfxHead_len (s : State) (h : AfxHead) (e : Nat) : (s.putAfxHead h e).len = s.len := rfl
@[simp] theorem State.putAfxHead_bp (s : State) (h : AfxHead) (e : Nat) : (s.putAfxHead h e).bp = s.bp := rfl
@[simp] theorem State.putAfxHead_bo (s : State) (h : AfxHead) (e : Nat) : (s.putAfxHead h e).bo = s.bo := rfl
@[simp] theorem State.putAfxHead_p (s : State) (h : AfxHead) (e : Nat) : (s.putAfxHead h e).p = s.p := rfl
@[simp] theorem State.putAfxHead_a (s : State) (h : AfxHead) (e : Nat) : (s.putAfxHead h e).a = s.a := rfl
@[simp] theorem State.putAfxHead_x (s : State) (h : AfxHead) (e : Nat) : (s.putAfxHead h e).x = { s.x with afxl := h.len, ltwf := h.ltw, pwrf := h.pwr, smsf := h.sms } :=
  rfl
@[simp] theorem State.putAfxHead_f (s : State) (h : AfxHead) (e : Nat) : (s.putAfxHead h e).f = s.f := rfl
@[simp] theorem State.putAfxHead_st (s : State) (h : AfxHead) (e : Nat) : (s.putAfxHead h e).st = s.st := rfl
@[simp] theorem State.putAfxHead_err (s : State) (h : AfxHead) (e : Nat) : (s.putAfxHead h e).err = s.err := rfl
@[simp] theorem State.putAfxHead_rval (s : State) (h : AfxHead) (e : Nat) : (s.putAfxHead h e).rval = s.rval := rfl
@[simp] theorem State.putAfxHead_afEnd (s : State) (h : AfxHead) (e : Nat) : (s.putAfxHead h e).afEnd = s.afEnd := rfl
@[simp] theorem State.putAfxHead_afxEnd (s : State) (h : AfxHead) (e : Nat) : (s.putAfxHead h e).afxEnd = e := rfl
@[simp] theorem State.putAfxHead_seq (s : State) (h : AfxHead) (e : Nat) : (s.putAfxHead h e).seq = s.seq := rfl
@[simp] theorem State.putAfxHead_script (s : State) (h : AfxHead) (e : Nat) : (s.putAfxHead h e).script = s.script :=
  rfl

@[simp] theorem State.writeData_data (s : State) (o : Nat) (bs : List Byte) : (s.writeData o bs).data = s.data.writeBytes o bs :=
  rfl
@[simp] theorem State.writeData_len (s : State) (o : Nat) (bs : List Byte) : (s.writeData o bs).len = s.len := rfl
@[simp] theorem State.writeData_bp (s : State) (o : Nat) (bs : List Byte) : (s.writeData o bs).bp = s.bp := rfl
@[simp] theorem State.writeData_bo (s : State) (o : Nat) (bs : List Byte) : (s.writeData o bs).bo = s.bo := rfl
@[simp] theorem State.writeData_p (s : State) (o : Nat) (bs : List Byte) : (s.writeData o bs).p = s.p := rfl
@[simp] theorem State.writeData_a (s : State) (o : Nat) (bs : List Byte) : (s.writeData o bs).a = s.a := rfl
@[simp] theorem State.writeData_x (s : State) (o : Nat) (bs : List Byte) : (s.writeData o bs).x = s.x := rfl
@[simp] theorem State.writeData_f (s : State) (o : Nat) (bs : List Byte) : (s.writeData o bs).f = s.f := rfl
@[simp] theorem State.writeData_st (s : State) (o : Nat) (bs : List Byte) : (s.writeData o bs).st = s.st := rfl
@[simp] theorem State.writeData_err (s : State) (o : Nat) (bs : List Byte) : (s.writeData o bs).err = s.err := rfl
@[simp] theorem State.writeData_rval (s : State) (o : Nat) (bs : List Byte) : (s.writeData o bs).rval = s.rval := rfl
@[simp] theorem State.writeData_afEnd (s : State) (o : Nat) (bs : List Byte) : (s.writeData o bs).afEnd = s.afEnd := rfl
@[simp] theorem State.writeData_afxEnd (s : State) (o : Nat) (bs : List Byte) : (s.writeData o bs).afxEnd = s.afxEnd :=
  rfl
@[simp] theorem State.writeData_seq (s : State) (o : Nat) (bs : List Byte) : (s.writeData o bs).seq = s.seq := rfl
@[simp] theorem State.writeData_script (s : State) (o : Nat) (bs : List Byte) : (s.writeData o bs).script = s.script :=
  rfl

@[simp] theorem State.writeLen_data (s : State) (n : Nat) : (s.writeLen n).data = s.data := rfl
@[simp] theorem State.writeLen_len (s : State) (n : Nat) : (s.writeLen n).len = n := rfl
@[simp] theorem State.writeLen_bp (s : State) (n : Nat) : (s.writeLen n).bp = s.bp := rfl
@[simp] theorem State.writeLen_bo (s : State) (n : Nat) : (s.writeLen n).bo = s.bo := rfl
@[simp] theorem State.writeLen_p (s : State) (n : Nat) : (s.writeLen n).p = s.p := rfl
@[simp] theorem State.writeLen_a (s : State) (n : Nat) : (s.writeLen n).a = s.a := rfl
@[simp] theorem State.writeLen_x (s : State) (n : Nat) : (s.writeLen n).x = s.x := rfl
@[simp] theorem State.writeLen_f (s : State) (n : Nat) : (s.writeLen n).f = s.f := rfl
@[simp] theorem State.writeLen_st (s : State) (n : Nat) : (s.writeLen n).st = s.st := rfl
@[simp] theorem State.writeLen_err (s : State) (n : Nat) : (s.writeLen n).err = s.err := rfl
@[simp] theorem State.writeLen_rval (s : State) (n : Nat) : (s.writeLen n).rval = s.rval := rfl
@[simp] theorem State.writeLen_afEnd (s : State) (n : Nat) : (s.writeLen n).afEnd = s.afEnd := rfl
@[simp] theorem State.writeLen_afxEnd (s : State) (n : Nat) : (s.writeLen n).afxEnd = s.afxEnd := rfl
@[simp] theorem State.writeLen_seq (s : State) (n : Nat) : (s.writeLen n).seq = s.seq := rfl
@[simp] theorem State.writeLen_script (s : State) (n : Nat) : (s.writeLen n).script = s.script := rfl

@[simp] theorem State.dropAction_data (s : State) : (s.dropAction).data = s.data := rfl
@[simp] theorem State.dropAction_len (s : State) : (s.dropAction).len = s.len := rfl
@[simp] theorem State.dropAction_bp (s : State) : (s.dropAction).bp = s.bp := rfl
@[simp] theorem State.dropAction_bo (s : State) : (s.dropAction).bo = s.bo := rfl
@[simp] theorem State.dropAction_p (s : State) : (s.dropAction).p = s.p := rfl
@[simp] theorem State.dropAction_a (s : State) : (s.dropAction).a = s.a := rfl
@[simp] theorem State.dropAction_x (s : State) : (s.dropAction).x = s.x := rfl
@[simp] theorem State.dropAction_f (s : State) : (s.dropAction).f = s.f := rfl
@[simp] theorem State.dropAction_st (s : State) : (s.dropAction).st = s.st := rfl
@[simp] theorem State.dropAction_err (s : State) : (s.dropAction).err = s.err := rfl
@[simp] theorem State.dropAction_rval (s : State) : (s.dropAction).rval = s.rval := rfl
@[simp] theorem State.dropAction_afEnd (s : State) : (s.dropAction).afEnd = s.afEnd := rfl
@[simp] theorem State.dropAction_afxEnd (s : State) : (s.dropAction).afxEnd = s.afxEnd := rfl
@[simp] theorem State.dropAction_seq (s : State) : (s.dropAction).seq = s.seq := rfl
@[simp] theorem State.dropAction_script (s : State) : (s.dropAction).script = s.script.tail := rfl

@[simp] theorem State.hardReset_data (s : State) : (s.hardReset).data = s.data := rfl
@[simp] theorem State.hardReset_len (s : State) : (s.hardReset).len = s.len := rfl
@[simp] theorem State.hardReset_bp (s : State) : (s.hardReset).bp = 0 := rfl
@[simp] theorem State.hardReset_bo (s : State) : (s.hardReset).bo = 0 := rfl
@[simp] theorem State.hardReset_p (s : State) : (s.hardReset).p = .clear := rfl
@[simp] theorem State.hardReset_a (s : State) : (s.hardReset).a = .clear := rfl
@[simp] theorem State.hardReset_x (s : State) : (s.hardReset).x = .clear := rfl
@[simp] theorem State.hardReset_f (s : State) : (s.hardReset).f = .clear := rfl
@[simp] theorem State.hardReset_st (s : State) : (s.hardReset).st = .idle := rfl
@[simp] theorem State.hardReset_err (s : State) : (s.hardReset).err = none := rfl
@[simp] theorem State.hardReset_rval (s : State) : (s.hardReset).rval = 0 := rfl
@[simp] theorem State.hardReset_afEnd (s : State) : (s.hardReset).afEnd = 0 := rfl
@[simp] theorem State.hardReset_afxEnd (s : State) : (s.hardReset).afxEnd = 0 := rfl
@[simp] theorem State.hardReset_seq (s : State) : (s.hardReset).seq = none := rfl
@[simp] theorem State.hardReset_script (s : State) : (s.hardReset).script = s.script := rfl

@[simp] theorem State.parkAt_data (s : State) (op : Composite) (r : Region) : (s.parkAt op r).data = s.data :=
  by cases r <;> rfl
@[simp] theorem State.parkAt_len (s : State) (op : Composite) (r : Region) : (s.parkAt op r).len = s.len :=
  by cases r <;> rfl
@[simp] theorem State.parkAt_bp (s : State) (op : Composite) (r : Region) : (s.parkAt op r).bp = s.bp :=
  by cases r <;> rfl
@[simp] theorem State.parkAt_bo (s : State) (op : Composite) (r : Region) : (s.parkAt op r).bo = s.bo :=
  by cases r <;> rfl
@[simp] theorem State.parkAt_p (s : State) (op : Composite) (r : Region) : (s.parkAt op r).p = s.p := by cases r <;> rfl
@[simp] theorem State.parkAt_st (s : State) (op : Composite) (r : Region) : (s.parkAt op r).st = s.st :=
  by cases r <;> rfl
@[simp] theorem State.parkAt_err (s : State) (op : Composite) (r : Region) : (s.parkAt op r).err = s.err :=
  by cases r <;> rfl
@[simp] theorem State.parkAt_rval (s : State) (op : Composite) (r : Region) : (s.parkAt op r).rval = s.rval :=
  by cases r <;> rfl
@[simp] theorem State.parkAt_afEnd (s : State) (op : Composite) (r : Region) : (s.parkAt op r).afEnd = s.afEnd :=
  by cases r <;> rfl
@[simp] theorem State.parkAt_afxEnd (s : State) (op : Composite) (r : Region) : (s.parkAt op r).afxEnd = s.afxEnd :=
  by cases r <;> rfl
@[simp] theorem State.parkAt_seq (s : State) (op : Composite) (r : Region) : (s.parkAt op r).seq = some (op, r) :=
  by cases r <;> rfl
@[simp] theorem State.parkAt_script (s : State) (op : Composite) (r : Region) : (s.parkAt op r).script = s.script :=
  by cases r <;> rfl

end Sys2Proof.Machine
end

