-- ==== Sys2Proof/Laws/Ops.lean ====
section
/-! SUPPORT. The shared operations: how operations in sequence run, and what each primitive of the cursor can do. -/

namespace Sys2Proof.Machine

variable {α β : Type}

/-! ### Operations in sequence -/

theorem bind_apply (m : Op α) (g : α → Op β) (s : State) :
    (m >>= g) s = (match m s with | .ok v s' => g v s' | .error e s' => .error e s') := by
  show EStateM.bind m g s = _
  unfold EStateM.bind
  cases m s <;> rfl

/-- A sequence goes on from where its first part ended. -/
theorem bind_ok {m : Op α} {g : α → Op β} {s s' : State} {v : α} (h : m s = .ok v s') : (m >>= g) s = g v s' := by
  rw [bind_apply, h]

/-- A sequence ends with the error of its first part (60_exceptions.md R236). -/
theorem bind_error {m : Op α} {g : α → Op β} {s s' : State} {e : DecodeError} (h : m s = .error e s') :
    (m >>= g) s = .error e s' := by rw [bind_apply, h]

@[simp] theorem pure_apply (v : α) (s : State) : (pure v : Op α) s = .ok v s := rfl

@[simp] theorem modify_apply (g : State → State) (s : State) : (modify g : Op Unit) s = .ok () (g s) := rfl

@[simp] theorem rewind_apply (s : State) : rewind s = .ok () (s.seek (0, 0)) := rfl

@[simp] theorem onFlag_set (c : State → Bool) (m : Op Unit) (s : State) (h : c s = true) : onFlag c m s = m s := by
  simp [onFlag, h]

@[simp] theorem onFlag_clear (c : State → Bool) (m : Op Unit) (s : State) (h : c s = false) :
    onFlag c m s = .ok () s := by simp [onFlag, h]

theorem given_none (m : Op α) : given none m = m := by
  funext s
  show (m >>= fun r => pure ((none : Option α).getD r)) s = m s
  rw [bind_apply]
  cases m s <;> rfl

theorem given_apply (v : Option α) (m : Op α) (s : State) :
    given v m s = (match m s with | .ok r s' => .ok (v.getD r) s' | .error e s' => .error e s') := by
  show (m >>= fun r => pure (v.getD r)) s = _
  rw [bind_apply]
  cases m s <;> rfl

/-! ### The cursor -/

@[simp] theorem State.seek_seek (s : State) (c d : Nat × Fin 8) : (s.seek c).seek d = s.seek d := rfl

@[simp] theorem State.memRead_seek (s : State) (c : Nat × Fin 8) (a : Nat) : (s.seek c).memRead a = s.memRead a := rfl

theorem State.seek_here (s : State) : s.seek (s.bp, s.bo) = s := rfl

theorem State.seek_aligned {s : State} (h : s.bo = 0) : s.seek (s.bp, 0) = s := by rw [← h]; rfl

/-- `adv` inside a byte. -/
theorem adv_within {p b k : Nat} (h : b + k < 8) : adv p b k = (p, ⟨b + k, h⟩) := by
  simp only [adv, if_neg (Nat.ne_of_lt h), Fin.ofNat]
  congr
  exact Nat.mod_eq_of_lt h

/-- `adv` to the end of a byte. -/
theorem adv_full {p b k : Nat} (h : b + k = 8) : adv p b k = (p + 1, 0) := by simp [adv, h]

/-- The bit address moves by exactly the bits read (10_state.md R26, 40_cursor.md R139). -/
theorem adv_bits {p b k : Nat} (h : b + k ≤ 8) : 8 * (adv p b k).1 + (adv p b k).2.val = 8 * p + b + k := by
  rcases Nat.lt_or_eq_of_le h with h | h
  · rw [adv_within h]; simp; omega
  · rw [adv_full h]; simp; omega

/-- `ext` selects by division and remainder. -/
theorem ext_eq (B : Byte) (b n : Nat) : ext B b n = B.toNat / 2 ^ (8 - b - n) % 2 ^ n := by
  simp [ext, Nat.shiftRight_eq_div_pow, Nat.and_two_pow_sub_one_eq_mod]

theorem ext_lt (B : Byte) (b n : Nat) : ext B b n < 2 ^ n := by
  rw [ext_eq]; exact Nat.mod_lt _ (Nat.two_pow_pos n)

/-- One bit of a byte, counted from the most significant (20_memory.md R63). -/
theorem ext_one (B : Byte) {b : Nat} (h : b < 8) : (ext B b 1 == 1) = B.getLsbD (7 - b) := by
  rw [ext_eq, BitVec.getLsbD, Nat.testBit_eq_decide_div_mod_eq, show 8 - b - 1 = 7 - b by omega]
  simp [BEq.beq]

/-! ### What each primitive does -/

theorem pbit_ok {s : State} (h : s.bp < s.len) :
    pbit s = .ok ((s.memRead s.bp).getLsbD (7 - s.bo.val)) (s.seek (adv s.bp s.bo 1)) := by
  simp [pbit, Nat.not_le.mpr h, ext_one _ s.bo.isLt]

theorem pbit_end {s : State} (h : s.len ≤ s.bp) : pbit s = .error .outOfData s := by simp [pbit, h]

theorem pbits_count {s : State} {n : Nat} (h : n = 0 ∨ 8 < n) : pbits n s = .error .invalidBitCount s := by
  simp only [pbits, if_pos h]

theorem pbits_span {s : State} {n : Nat} (h1 : 1 ≤ n) (h8 : n ≤ 8) (h : 8 < s.bo.val + n) :
    pbits n s = .error .insufficientBitsInByte s := by
  simp only [pbits, if_neg (show ¬(n = 0 ∨ 8 < n) by omega), if_pos h]

theorem pbits_end {s : State} {n : Nat} (h1 : 1 ≤ n) (h : s.bo.val + n ≤ 8) (he : s.len ≤ s.bp) :
    pbits n s = .error .outOfData s := by
  simp only [pbits, if_neg (show ¬(n = 0 ∨ 8 < n) by omega), if_neg (show ¬8 < s.bo.val + n by omega), if_pos he]

theorem pbits_ok {s : State} {n : Nat} (h1 : 1 ≤ n) (h : s.bo.val + n ≤ 8) (he : s.bp < s.len) :
    pbits n s = .ok (BitVec.ofNat 8 (ext (s.memRead s.bp) s.bo n)) (s.seek (adv s.bp s.bo n)) := by
  simp only [pbits, if_neg (show ¬(n = 0 ∨ 8 < n) by omega), if_neg (show ¬8 < s.bo.val + n by omega),
    if_neg (show ¬s.len ≤ s.bp by omega)]

theorem pbyte_unaligned {s : State} (h : s.bo ≠ 0) : pbyte s = .error .notByteAligned s := by simp [pbyte, h]

theorem pbyte_end {s : State} (h : s.bo = 0) (he : s.len ≤ s.bp) : pbyte s = .error .outOfData s := by
  simp [pbyte, h, he]

theorem pbyte_ok {s : State} (h : s.bo = 0) (he : s.bp < s.len) :
    pbyte s = .ok (s.memRead s.bp) (s.seek (s.bp + 1, 0)) := by
  simp [pbyte, h, Nat.not_le.mpr he]

theorem pwide_count {s : State} {n : Nat} (h : n = 0 ∨ 16 < n ∨ n + s.bo.val ≤ 8 ∨ 16 < n + s.bo.val) :
    pwide n s = .error .invalidBitCount s := by
  have hb := s.bo.isLt
  simp only [pwide]
  split
  · rfl
  · split
    · rfl
    · rw [if_pos (by omega)]

theorem pwide_end {s : State} {n : Nat} (h1 : 9 ≤ n + s.bo.val) (h2 : n + s.bo.val ≤ 16) (he : s.len ≤ s.bp + 1) :
    pwide n s = .error .outOfData s := by
  have hb := s.bo.isLt
  simp only [pwide, if_neg (show ¬(n = 0 ∨ 16 < n) by omega), if_neg (show ¬n ≤ 8 - s.bo.val by omega),
    if_neg (show ¬8 < n - (8 - s.bo.val) by omega), if_pos he]

theorem pwide_ok {s : State} {n : Nat} (h1 : 9 ≤ n + s.bo.val) (h2 : n + s.bo.val ≤ 16) (he : s.bp + 1 < s.len) :
    pwide n s = .ok (BitVec.ofNat 16
        ((ext (s.memRead s.bp) s.bo (8 - s.bo.val) <<< (n - (8 - s.bo.val))) |||
          ext (s.memRead (s.bp + 1)) 0 (n - (8 - s.bo.val))))
      (s.seek (adv (s.bp + 1) 0 (n - (8 - s.bo.val)))) := by
  have hb := s.bo.isLt
  simp only [pwide, if_neg (show ¬(n = 0 ∨ 16 < n) by omega), if_neg (show ¬n ≤ 8 - s.bo.val by omega),
    if_neg (show ¬8 < n - (8 - s.bo.val) by omega), if_neg (show ¬s.len ≤ s.bp + 1 by omega)]

/-- The budget check in its two cases. -/
theorem need_fits {s : State} {k e : Nat} (h : s.bp + k ≤ e) : need k e s = .ok () s := by
  simp [need, Nat.not_lt.mpr h]

theorem need_overrun {s : State} {k e : Nat} (h : e < s.bp + k) :
    need k e s = .error .adaptationFieldOverrun s := by simp [need, h]

/-! ### Frames: what every operation leaves alone -/

/-- From `s` to `s'` an operation has not written the buffer, its length, `RVAL` or the host's program, has not moved
the cursor back, and has kept the cursor inside the buffer. -/
structure Frame (s s' : State) : Prop where
  data : s'.data = s.data
  len : s'.len = s.len
  rval : s'.rval = s.rval
  script : s'.script = s.script
  forward : s.bitAddr ≤ s'.bitAddr
  inside : s.bp ≤ s.len → s'.bp ≤ s'.len
  cursor : CursorOk s → CursorOk s'

theorem Frame.refl (s : State) : Frame s s := ⟨rfl, rfl, rfl, rfl, Nat.le_refl _, id, id⟩

theorem Frame.trans {s t u : State} (h : Frame s t) (k : Frame t u) : Frame s u :=
  ⟨k.data.trans h.data, k.len.trans h.len, k.rval.trans h.rval, k.script.trans h.script, h.forward.trans k.forward,
    fun c => k.inside (h.inside c), fun c => k.cursor (h.cursor c)⟩

/-- An update of registers that leaves the buffer, the cursor, `RVAL` and the host's program alone. -/
theorem Frame.ofFields {s s' : State} (hd : s'.data = s.data) (hl : s'.len = s.len) (hr : s'.rval = s.rval)
    (hs : s'.script = s.script) (hp : s'.bp = s.bp) (hb : s'.bo = s.bo) : Frame s s' :=
  ⟨hd, hl, hr, hs, by simp [State.bitAddr, hp, hb], by rw [hp, hl]; exact id, by rintro ⟨h1, h2⟩; exact ⟨by rw [hp, hl]; exact h1, by
    rw [hp, hl, hb]; exact h2⟩⟩

/-- The state an operation ends in, with a value or with an error. -/
def endOf : EStateM.Result DecodeError State α → State
  | .ok _ s => s
  | .error _ s => s

@[simp] theorem endOf_ok (v : α) (s : State) : endOf (.ok v s) = s := rfl

@[simp] theorem endOf_error (e : DecodeError) (s : State) : endOf (.error e s : EStateM.Result _ _ α) = s := rfl

/-- An operation all of whose outcomes are framed. -/
def Framed (m : Op α) : Prop := ∀ s, Frame s (endOf (m s))

theorem Framed.ok {m : Op α} (h : Framed m) {s s' : State} {v : α} (e : m s = .ok v s') : Frame s s' := by
  have k := h s
  rwa [e] at k

theorem Framed.error {m : Op α} (h : Framed m) {s s' : State} {x : DecodeError} (e : m s = .error x s') :
    Frame s s' := by
  have k := h s
  rwa [e] at k

theorem Framed.bind {m : Op α} {g : α → Op β} (hm : Framed m) (hg : ∀ v, Framed (g v)) : Framed (m >>= g) := by
  intro s
  rw [bind_apply]
  cases hms : m s with
  | ok v s1 => exact (hm.ok hms).trans (hg v s1)
  | error e s1 => exact hm.error hms

theorem Framed.pure (v : α) : Framed (Pure.pure v : Op α) := fun s => Frame.refl s

theorem Framed.modify {g : State → State} (h : ∀ s, Frame s (g s)) : Framed (modify g : Op Unit) := h

theorem Framed.onFlag {c : State → Bool} {m : Op Unit} (h : Framed m) : Framed (onFlag c m) := by
  intro s
  unfold Sys2Proof.Machine.onFlag
  split
  · exact h s
  · exact Frame.refl s

theorem Framed.given {v : Option α} {m : Op α} (h : Framed m) : Framed (given v m) :=
  Framed.bind h fun _ => Framed.pure _

/-- An operation that depends on the state it starts from. -/
theorem Framed.ofState {g : State → Op α} (h : ∀ s, Framed (g s)) : Framed (fun s => g s s) := fun s => h s s

theorem frame_seek {s : State} {c : Nat × Fin 8} (hf : s.bitAddr ≤ 8 * c.1 + c.2.val)
    (hc : c.1 ≤ s.len) (hb : c.2 ≠ 0 → c.1 < s.len) : Frame s (s.seek c) :=
  ⟨rfl, rfl, rfl, rfl, hf, fun _ => hc, fun _ => ⟨hc, hb⟩⟩

/-- The cursor after `n` bits of a byte that is there. -/
theorem frame_adv {s : State} {p b n : Nat} (h : b + n ≤ 8) (hf : s.bitAddr ≤ 8 * p + b + n)
    (hp : p < s.len) : Frame s (s.seek (adv p b n)) := by
  refine frame_seek (by rw [adv_bits h]; exact hf) ?_ ?_
  · rcases Nat.lt_or_eq_of_le h with k | k
    · rw [adv_within k]; exact Nat.le_of_lt hp
    · rw [adv_full k]; exact hp
  · rcases Nat.lt_or_eq_of_le h with k | k
    · rw [adv_within k]; exact fun _ => hp
    · rw [adv_full k]; exact fun c => absurd rfl c

theorem framed_pbit : Framed pbit := by
  intro s
  have hb := s.bo.isLt
  by_cases h : s.len ≤ s.bp
  · rw [pbit_end h]; exact Frame.refl s
  · rw [pbit_ok (by omega)]
    exact frame_adv (by omega) (by simp [State.bitAddr]) (by omega)

theorem framed_pbits (n : Nat) : Framed (pbits n) := by
  intro s
  by_cases h0 : n = 0 ∨ 8 < n
  · rw [pbits_count h0]; exact Frame.refl s
  · by_cases h1 : 8 < s.bo.val + n
    · rw [pbits_span (by omega) (by omega) h1]; exact Frame.refl s
    · by_cases h2 : s.len ≤ s.bp
      · rw [pbits_end (by omega) (by omega) h2]; exact Frame.refl s
      · rw [pbits_ok (by omega) (by omega) (by omega)]
        exact frame_adv (by omega) (by simp [State.bitAddr]) (by omega)

theorem framed_pbyte : Framed pbyte := by
  intro s
  by_cases h0 : s.bo = 0
  · by_cases h2 : s.len ≤ s.bp
    · rw [pbyte_end h0 h2]; exact Frame.refl s
    · rw [pbyte_ok h0 (by omega)]
      refine frame_seek ?_ ?_ (fun c => absurd rfl c)
      · simp [State.bitAddr, h0]
      · show s.bp + 1 ≤ s.len
        omega
  · rw [pbyte_unaligned h0]; exact Frame.refl s

theorem framed_pwide (n : Nat) : Framed (pwide n) := by
  intro s
  have hb := s.bo.isLt
  by_cases h0 : n = 0 ∨ 16 < n ∨ n + s.bo.val ≤ 8 ∨ 16 < n + s.bo.val
  · rw [pwide_count h0]; exact Frame.refl s
  · by_cases h2 : s.len ≤ s.bp + 1
    · rw [pwide_end (by omega) (by omega) h2]; exact Frame.refl s
    · rw [pwide_ok (by omega) (by omega) (by omega)]
      exact frame_adv (by omega) (by simp only [State.bitAddr]; omega) (by omega)

theorem framed_need (k e : Nat) : Framed (need k e) := by
  intro s
  by_cases h : e < s.bp + k
  · rw [need_overrun h]; exact Frame.refl s
  · rw [need_fits (by omega)]; exact Frame.refl s

theorem framed_needWithin (k : Nat) (limit : Option Nat) : Framed (needWithin k limit) := by
  cases limit with
  | none => exact Framed.pure ()
  | some e => exact framed_need k e

theorem framed_skip (k : Nat) : Framed (skip k) := by
  induction k with
  | zero => exact Framed.pure ()
  | succ k ih => exact Framed.bind framed_pbyte fun _ => ih

theorem framed_pullBytes (k : Nat) : Framed (pullBytes k) := by
  induction k with
  | zero => exact Framed.pure []
  | succ k ih => exact Framed.bind framed_pbyte fun _ => Framed.bind ih fun _ => Framed.pure _

theorem framed_pull48 : Framed pull48 :=
  Framed.bind framed_pbyte fun _ => Framed.bind framed_pbyte fun _ => Framed.bind framed_pbyte fun _ =>
    Framed.bind framed_pbyte fun _ => Framed.bind framed_pbyte fun _ => Framed.bind framed_pbyte fun _ => Framed.pure _

end Sys2Proof.Machine
end

