-- ==== Sys2Proof/Laws/Reads.lean ====
section
/-! SUPPORT. What each sequence of reads does at a byte-aligned cursor: with its bytes in the buffer it answers the fields
of the layout tables (Machine/Layout.lean) and moves past them; else it raises `OutOfData`. -/

namespace Sys2Proof.Machine

/-! ### Numbers and bits -/

theorem getLsbD_ofNat_eq (w n i : Nat) (h : i < w) : (BitVec.ofNat w n).getLsbD i = decide (n / 2 ^ i % 2 = 1) := by
  rw [BitVec.getLsbD_ofNat, Nat.testBit_eq_decide_div_mod_eq]; simp [h]

theorem getLsbD_eq {w : Nat} (v : BitVec w) (i : Nat) : v.getLsbD i = decide (v.toNat / 2 ^ i % 2 = 1) := by
  rw [BitVec.getLsbD, Nat.testBit_eq_decide_div_mod_eq]

theorem toNat_slice {w : Nat} (hi lo : Nat) (v : BitVec w) :
    (slice hi lo v).toNat = v.toNat / 2 ^ lo % 2 ^ (hi - lo + 1) := by
  simp [BitVec.extractLsb, BitVec.extractLsb'_toNat, Nat.shiftRight_eq_div_pow]

theorem shift_or (hi lo k : Nat) (h : lo < 2 ^ k) : hi <<< k ||| lo = hi * 2 ^ k + lo := by
  rw [← Nat.shiftLeft_add_eq_or_of_lt h, Nat.shiftLeft_eq]

theorem toNat_append_eq {v w : Nat} (x : BitVec v) (y : BitVec w) : (x ++ y).toNat = x.toNat * 2 ^ w + y.toNat := by
  rw [BitVec.toNat_append, shift_or _ _ _ y.isLt]

@[simp] theorem State.number_seek (s : State) (c : Nat × Fin 8) (o k : Nat) : (s.seek c).number o k = s.number o k := by
  induction k with
  | zero => rfl
  | succ k ih => simp [State.number, ih]

@[simp] theorem State.bytesAt_seek (s : State) (c : Nat × Fin 8) (o k : Nat) :
    (s.seek c).bytesAt o k = s.bytesAt o k := by
  induction k generalizing o with
  | zero => rfl
  | succ k ih => simp [State.bytesAt, ih]

/-! ### The reads, in full -/

theorem skip_ok {k : Nat} : ∀ {s : State}, s.bo = 0 → s.bp + k ≤ s.len → skip k s = .ok () (s.seek (s.bp + k, 0)) := by
  induction k with
  | zero => intro s h0 _; simp [skip, State.seek_aligned h0]
  | succ k ih =>
    intro s h0 h
    rw [skip, bind_ok (pbyte_ok h0 (by omega)), ih rfl (by simp; omega)]
    simp [Nat.add_comm, Nat.add_left_comm]

theorem skip_short {k : Nat} : ∀ {s : State}, s.bo = 0 → s.bp ≤ s.len → s.len < s.bp + k →
    skip k s = .error .outOfData (s.seek (s.len, 0)) := by
  induction k with
  | zero => intro s _ _ _; omega
  | succ k ih =>
    intro s h0 hle h
    rcases Nat.lt_or_eq_of_le hle with hlt | heq
    · rw [skip, bind_ok (pbyte_ok h0 hlt), ih rfl (by simp; omega) (by simp; omega)]
      simp
    · rw [skip, bind_error (pbyte_end h0 (by omega)), ← heq, State.seek_aligned h0]

theorem pullBytes_ok {k : Nat} : ∀ {s : State}, s.bo = 0 → s.bp + k ≤ s.len →
    pullBytes k s = .ok (s.bytesAt s.bp k) (s.seek (s.bp + k, 0)) := by
  induction k with
  | zero => intro s h0 _; simp [pullBytes, State.bytesAt, State.seek_aligned h0]
  | succ k ih =>
    intro s h0 h
    rw [pullBytes, bind_ok (pbyte_ok h0 (by omega)), bind_ok (ih rfl (by simp; omega))]
    simp [State.bytesAt, Nat.add_comm, Nat.add_left_comm]

theorem pullBytes_short {k : Nat} : ∀ {s : State}, s.bo = 0 → s.bp ≤ s.len → s.len < s.bp + k →
    pullBytes k s = .error .outOfData (s.seek (s.len, 0)) := by
  induction k with
  | zero => intro s _ _ _; omega
  | succ k ih =>
    intro s h0 hle h
    rcases Nat.lt_or_eq_of_le hle with hlt | heq
    · rw [pullBytes, bind_ok (pbyte_ok h0 hlt), bind_error (ih rfl (by simp; omega) (by simp; omega))]
      simp
    · rw [pullBytes, bind_error (pbyte_end h0 (by omega)), ← heq, State.seek_aligned h0]

theorem pull48_ok {s : State} (h0 : s.bo = 0) (h : s.bp + 6 ≤ s.len) :
    pull48 s = .ok (BitVec.ofNat 48 (s.number s.bp 6)) (s.seek (s.bp + 6, 0)) := by
  have h1 : ¬ s.len ≤ s.bp := by omega
  have h2 : ¬ s.len ≤ s.bp + 1 := by omega
  have h3 : ¬ s.len ≤ s.bp + 2 := by omega
  have h4 : ¬ s.len ≤ s.bp + 3 := by omega
  have h5 : ¬ s.len ≤ s.bp + 4 := by omega
  have h6 : ¬ s.len ≤ s.bp + 5 := by omega
  simp only [pull48, bind_apply, pbyte, h0, h1, h2, h3, h4, h5, h6, ne_eq, not_true_eq_false, if_false, State.seek_bp,
    State.seek_bo, State.seek_len, State.memRead_seek, State.seek_seek, pure_apply, Nat.add_assoc, Nat.reduceAdd]
  congr 1
  apply BitVec.eq_of_toNat_eq
  have b0 := (s.memRead s.bp).isLt
  have b1 := (s.memRead (s.bp + 1)).isLt
  have b2 := (s.memRead (s.bp + 2)).isLt
  have b3 := (s.memRead (s.bp + 3)).isLt
  have b4 := (s.memRead (s.bp + 4)).isLt
  have b5 := (s.memRead (s.bp + 5)).isLt
  simp only [assembleClock, toNat_append_eq, BitVec.toNat_ofNat, State.number, Nat.add_zero]
  omega

theorem pull48_short {s : State} (h0 : s.bo = 0) (hle : s.bp ≤ s.len) (h : s.len < s.bp + 6) :
    pull48 s = .error .outOfData (s.seek (s.len, 0)) := by
  have go : ∀ k, s.len = s.bp + k → k < 6 → pull48 s = .error .outOfData (s.seek (s.len, 0)) := by
    intro k hk hlt
    have : k = 0 ∨ k = 1 ∨ k = 2 ∨ k = 3 ∨ k = 4 ∨ k = 5 := by omega
    rcases this with rfl | rfl | rfl | rfl | rfl | rfl <;>
      simp [pull48, bind_apply, pbyte, h0, hk, State.seek_aligned h0, -bind_pure_comp, Nat.add_assoc]
  exact go (s.len - s.bp) (by omega) (by omega)

/-! The raw reads: each primitive of a sequence at its own offset. -/

theorem readHdr_raw {s : State} (h0 : s.bo = 0) (h : s.bp + 4 ≤ s.len) :
    readHdr s = .ok
      ({ sync := s.memRead s.bp, tei := (s.memRead (s.bp + 1)).getLsbD 7, pusi := (s.memRead (s.bp + 1)).getLsbD 6,
         tpri := (s.memRead (s.bp + 1)).getLsbD 5,
         pid := (BitVec.ofNat 16 (ext (s.memRead (s.bp + 1)) 3 5 <<< 8 ||| ext (s.memRead (s.bp + 2)) 0 8)).setWidth 13,
         tsc := (BitVec.ofNat 8 (ext (s.memRead (s.bp + 3)) 0 2)).setWidth 2,
         cc := (BitVec.ofNat 8 (ext (s.memRead (s.bp + 3)) 4 4)).setWidth 4 },
        (s.memRead (s.bp + 3)).getLsbD 5, (s.memRead (s.bp + 3)).getLsbD 4) (s.seek (s.bp + 4, 0)) := by
  have h1 : ¬ s.len ≤ s.bp := by omega
  have h2 : ¬ s.len ≤ s.bp + 1 := by omega
  have h3 : ¬ s.len ≤ s.bp + 2 := by omega
  have h4 : ¬ s.len ≤ s.bp + 3 := by omega
  simp [readHdr, bind_apply, pbyte, pbit, pwide, pbits, adv, h0, h1, h2, h3, h4, -bind_pure_comp, -BitVec.setWidth_ofNat_of_le, -BitVec.ofNat_or, Nat.add_assoc, ext_one]

/-- A header cut short (41_packet_decoder.md R161): the first read whose byte is missing raises. -/
theorem readHdr_short {s : State} (h0 : s.bo = 0) (h : s.len < s.bp + 4) :
    readHdr s = .error .outOfData (s.seek (cutAt .tsh s.bp s.len)) := by
  by_cases h1 : s.len ≤ s.bp
  · rw [cutAt, if_neg (by omega), Nat.max_eq_left h1, State.seek_aligned h0]
    simp [readHdr, bind_apply, pbyte, h0, h1]
  · by_cases h2 : s.len ≤ s.bp + 1
    · rw [cutAt, if_neg (by omega), show max s.bp s.len = s.bp + 1 by omega]
      simp [readHdr, bind_apply, pbyte, pbit, h0, h1, h2]
    · by_cases h3 : s.len ≤ s.bp + 2
      · rw [cutAt, if_pos (by omega)]
        simp [readHdr, bind_apply, pbyte, pbit, pwide, adv, h0, h1, h2, h3, Nat.add_assoc]
      · have h4 : s.len ≤ s.bp + 3 := by omega
        rw [cutAt, if_neg (by omega), show max s.bp s.len = s.bp + 3 by omega]
        simp [readHdr, bind_apply, pbyte, pbit, pwide, pbits, adv, h0, h1, h2, h3, h4, Nat.add_assoc]

theorem readAfFlags_raw {s : State} {len : Byte} {stop : Nat} (h0 : s.bo = 0) (hn : s.bp + 1 ≤ stop)
    (h : s.bp + 1 ≤ s.len) :
    readAfFlags len stop s = .ok
      { len := len, di := (s.memRead s.bp).getLsbD 7, rai := (s.memRead s.bp).getLsbD 6,
        espi := (s.memRead s.bp).getLsbD 5, pcr := (s.memRead s.bp).getLsbD 4, opcr := (s.memRead s.bp).getLsbD 3,
        spl := (s.memRead s.bp).getLsbD 2, tpd := (s.memRead s.bp).getLsbD 1, afx := (s.memRead s.bp).getLsbD 0 }
      (s.seek (s.bp + 1, 0)) := by
  have h1 : ¬ s.len ≤ s.bp := by omega
  have hn' : ¬ stop < s.bp + 1 := by omega
  simp [readAfFlags, need, bind_apply, pbit, adv, h0, h1, hn', -bind_pure_comp, -BitVec.setWidth_ofNat_of_le,
    -BitVec.ofNat_or, ext_one]

theorem readAfFlags_end {s : State} {len : Byte} {stop : Nat} (hn : s.bp + 1 ≤ stop) (h : s.len ≤ s.bp) :
    readAfFlags len stop s = .error .outOfData s := by
  have hn' : ¬ stop < s.bp + 1 := by omega
  simp [readAfFlags, need, bind_apply, pbit, h, hn']

theorem readAfFlags_overrun {s : State} {len : Byte} {stop : Nat} (hn : stop < s.bp + 1) :
    readAfFlags len stop s = .error .adaptationFieldOverrun s := by
  simp [readAfFlags, need, bind_apply, hn]

theorem readAfxFlags_raw {s : State} {len : Byte} {stop : Nat} (h0 : s.bo = 0) (hn : s.bp + 1 ≤ stop)
    (h : s.bp + 1 ≤ s.len) :
    readAfxFlags len stop s = .ok
      { len := len, ltw := (s.memRead s.bp).getLsbD 7, pwr := (s.memRead s.bp).getLsbD 6,
        sms := (s.memRead s.bp).getLsbD 5,
        reserved := (BitVec.ofNat 8 (ext (s.memRead s.bp) 3 5)).setWidth 5 }
      (s.seek (s.bp + 1, 0)) := by
  have h1 : ¬ s.len ≤ s.bp := by omega
  have hn' : ¬ stop < s.bp + 1 := by omega
  simp [readAfxFlags, need, bind_apply, pbit, pbits, adv, h0, h1, hn', -bind_pure_comp, -BitVec.setWidth_ofNat_of_le,
    -BitVec.ofNat_or, ext_one]

theorem readAfxFlags_end {s : State} {len : Byte} {stop : Nat} (hn : s.bp + 1 ≤ stop) (h : s.len ≤ s.bp) :
    readAfxFlags len stop s = .error .outOfData s := by
  have hn' : ¬ stop < s.bp + 1 := by omega
  simp [readAfxFlags, need, bind_apply, pbit, h, hn']

theorem readAfxFlags_overrun {s : State} {len : Byte} {stop : Nat} (hn : stop < s.bp + 1) :
    readAfxFlags len stop s = .error .adaptationFieldOverrun s := by
  simp [readAfxFlags, need, bind_apply, hn]

theorem readLtw_raw {s : State} (h0 : s.bo = 0) (h : s.bp + 2 ≤ s.len) :
    readLtw s = .ok ((s.memRead s.bp).getLsbD 7,
      (BitVec.ofNat 16 (ext (s.memRead s.bp) 1 7 <<< 8 ||| ext (s.memRead (s.bp + 1)) 0 8)).setWidth 15)
      (s.seek (s.bp + 2, 0)) := by
  have h1 : ¬ s.len ≤ s.bp := by omega
  have h2 : ¬ s.len ≤ s.bp + 1 := by omega
  simp [readLtw, bind_apply, pbit, pwide, adv, h0, h1, h2, -bind_pure_comp, -BitVec.setWidth_ofNat_of_le, -BitVec.ofNat_or, Nat.add_assoc, ext_one]

theorem readLtw_short {s : State} (h0 : s.bo = 0) (h : s.len < s.bp + 2) :
    readLtw s = .error .outOfData (s.seek (cutAt .ltw s.bp s.len)) := by
  by_cases h1 : s.len ≤ s.bp
  · rw [cutAt, if_neg (by omega), Nat.max_eq_left h1, State.seek_aligned h0]
    simp [readLtw, bind_apply, pbit, h1]
  · have h2 : s.len ≤ s.bp + 1 := by omega
    rw [cutAt, if_pos (by omega)]
    simp [readLtw, bind_apply, pbit, pwide, adv, h0, h1, h2, -bind_pure_comp]
    rfl

theorem readRate_raw {s : State} (h0 : s.bo = 0) (h : s.bp + 3 ≤ s.len) :
    readRate s = .ok (assembleRate
      (BitVec.ofNat 16 (ext (s.memRead s.bp) 2 6 <<< 8 ||| ext (s.memRead (s.bp + 1)) 0 8)) (s.memRead (s.bp + 2)))
      (s.seek (s.bp + 3, 0)) := by
  have h1 : ¬ s.len ≤ s.bp := by omega
  have h2 : ¬ s.len ≤ s.bp + 1 := by omega
  have h3 : ¬ s.len ≤ s.bp + 2 := by omega
  simp [readRate, bind_apply, pbits, pbyte, pwide, adv, h0, h1, h2, h3, -bind_pure_comp, -BitVec.setWidth_ofNat_of_le,
    -BitVec.ofNat_or, Nat.add_assoc]

theorem readRate_short {s : State} (h0 : s.bo = 0) (h : s.len < s.bp + 3) :
    readRate s = .error .outOfData (s.seek (cutAt .pwr s.bp s.len)) := by
  by_cases h1 : s.len ≤ s.bp
  · rw [cutAt, if_neg (by omega), Nat.max_eq_left h1, State.seek_aligned h0]
    simp [readRate, bind_apply, pbits, h0, h1]
  · by_cases h2 : s.len ≤ s.bp + 1
    · rw [cutAt, if_pos (by omega)]
      simp [readRate, bind_apply, pbits, pwide, adv, h0, h1, h2]
    · have h3 : s.len ≤ s.bp + 2 := by omega
      rw [cutAt, if_neg (by omega), show max s.bp s.len = s.bp + 2 by omega]
      simp [readRate, bind_apply, pbits, pwide, pbyte, adv, h0, h1, h2, h3, Nat.add_assoc, -bind_pure_comp]

theorem readSms_raw {s : State} (h0 : s.bo = 0) (h : s.bp + 5 ≤ s.len) :
    readSms s = .ok
      ((BitVec.ofNat 8 (ext (s.memRead s.bp) 0 4)).setWidth 4,
        assembleDts ((BitVec.ofNat 8 (ext (s.memRead s.bp) 4 3)).setWidth 3)
          ((BitVec.ofNat 16 (ext (s.memRead (s.bp + 1)) 0 8 <<< 7 ||| ext (s.memRead (s.bp + 2)) 0 7)).setWidth 15)
          ((BitVec.ofNat 16 (ext (s.memRead (s.bp + 3)) 0 8 <<< 7 ||| ext (s.memRead (s.bp + 4)) 0 7)).setWidth 15))
      (s.seek (s.bp + 5, 0)) := by
  have h1 : ¬ s.len ≤ s.bp := by omega
  have h3 : ¬ s.len ≤ s.bp + 2 := by omega
  have h5 : ¬ s.len ≤ s.bp + 4 := by omega
  simp [readSms, bind_apply, pbit, pbits, pwide, adv, h0, h1, h3, h5, -bind_pure_comp, -BitVec.setWidth_ofNat_of_le, -BitVec.ofNat_or, Nat.add_assoc, ext_one]

theorem readSms_short {s : State} (h0 : s.bo = 0) (h : s.len < s.bp + 5) :
    readSms s = .error .outOfData (s.seek (cutAt .sms s.bp s.len)) := by
  by_cases h1 : s.len ≤ s.bp
  · rw [cutAt, if_neg (by omega), if_neg (by omega), Nat.max_eq_left h1, State.seek_aligned h0]
    simp [readSms, bind_apply, pbits, h0, h1]
  · by_cases h3 : s.len ≤ s.bp + 2
    · rw [show cutAt .sms s.bp s.len = (s.bp + 1, 0) by
        rw [cutAt]; split
        · rfl
        · rw [if_neg (by omega), show max s.bp s.len = s.bp + 1 by omega]]
      simp [readSms, bind_apply, pbits, pbit, pwide, adv, h0, h1, h3, Nat.add_assoc]
    · have h5 : s.len ≤ s.bp + 4 := by omega
      rw [show cutAt .sms s.bp s.len = (s.bp + 3, 0) by
        rw [cutAt, if_neg (by omega)]; split
        · rfl
        · rw [show max s.bp s.len = s.bp + 3 by omega]]
      simp [readSms, bind_apply, pbits, pbit, pwide, adv, h0, h1, h3, h5, Nat.add_assoc]

/-! ### The same reads as fields of the layout tables -/

theorem number_two (s : State) (o : Nat) : s.number o 2 = (s.memRead o).toNat * 256 + (s.memRead (o + 1)).toNat := by
  simp [State.number]

theorem number_three (s : State) (o : Nat) : s.number o 3 =
    ((s.memRead o).toNat * 256 + (s.memRead (o + 1)).toNat) * 256 + (s.memRead (o + 2)).toNat := by
  simp [State.number]

theorem number_four (s : State) (o : Nat) : s.number o 4 =
    (((s.memRead o).toNat * 256 + (s.memRead (o + 1)).toNat) * 256 + (s.memRead (o + 2)).toNat) * 256 +
      (s.memRead (o + 3)).toNat := by
  simp [State.number]

theorem number_five (s : State) (o : Nat) : s.number o 5 =
    ((((s.memRead o).toNat * 256 + (s.memRead (o + 1)).toNat) * 256 + (s.memRead (o + 2)).toNat) * 256 +
      (s.memRead (o + 3)).toNat) * 256 + (s.memRead (o + 4)).toNat := by
  simp [State.number]

/-- A bit of one of four bytes is a bit of the number they make. -/
theorem bit_of_four {s : State} {o i : Nat} (k j : Nat) (hi : i = 8 * (3 - k) + j) (hk : k < 4) (hj : j < 8) :
    (s.memRead (o + k)).getLsbD j = (BitVec.ofNat 32 (s.number o 4)).getLsbD i := by
  have b0 := (s.memRead o).isLt
  have b1 := (s.memRead (o + 1)).isLt
  have b2 := (s.memRead (o + 2)).isLt
  have b3 := (s.memRead (o + 3)).isLt
  rw [getLsbD_ofNat_eq _ _ _ (by omega), getLsbD_eq, number_four, decide_eq_decide]
  have hk' : k = 0 ∨ k = 1 ∨ k = 2 ∨ k = 3 := by omega
  have hj' : j = 0 ∨ j = 1 ∨ j = 2 ∨ j = 3 ∨ j = 4 ∨ j = 5 ∨ j = 6 ∨ j = 7 := by omega
  subst hi
  rcases hk' with rfl | rfl | rfl | rfl <;> rcases hj' with rfl | rfl | rfl | rfl | rfl | rfl | rfl | rfl <;>
    (try simp only [Nat.add_zero]) <;> omega

/-- A bit of one of two bytes is a bit of the number they make. -/
theorem bit_of_two {s : State} {o i : Nat} (k j : Nat) (hi : i = 8 * (1 - k) + j) (hk : k < 2) (hj : j < 8) :
    (s.memRead (o + k)).getLsbD j = (BitVec.ofNat 16 (s.number o 2)).getLsbD i := by
  have b0 := (s.memRead o).isLt
  have b1 := (s.memRead (o + 1)).isLt
  rw [getLsbD_ofNat_eq _ _ _ (by omega), getLsbD_eq, number_two, decide_eq_decide]
  have hk' : k = 0 ∨ k = 1 := by omega
  have hj' : j = 0 ∨ j = 1 ∨ j = 2 ∨ j = 3 ∨ j = 4 ∨ j = 5 ∨ j = 6 ∨ j = 7 := by omega
  subst hi
  rcases hk' with rfl | rfl <;> rcases hj' with rfl | rfl | rfl | rfl | rfl | rfl | rfl | rfl <;>
    (try simp only [Nat.add_zero]) <;> omega

/-- The header, read in full: the fields of `W` (30_encoding.md R91). -/
theorem readHdr_ok {s : State} (h0 : s.bo = 0) (h : s.bp + 4 ≤ s.len) :
    readHdr s = .ok (tshFields (BitVec.ofNat 32 (s.number s.bp 4)), (BitVec.ofNat 32 (s.number s.bp 4)).getLsbD 5,
      (BitVec.ofNat 32 (s.number s.bp 4)).getLsbD 4) (s.seek (s.bp + 4, 0)) := by
  have b0 := (s.memRead s.bp).isLt
  have b1 := (s.memRead (s.bp + 1)).isLt
  have b2 := (s.memRead (s.bp + 2)).isLt
  have b3 := (s.memRead (s.bp + 3)).isLt
  rw [readHdr_raw h0 h]
  congr 1
  simp only [tshFields, Prod.mk.injEq, Tsh.mk.injEq]
  refine ⟨⟨?_, bit_of_four 1 7 rfl (by omega) (by omega), bit_of_four 1 6 rfl (by omega) (by omega),
    bit_of_four 1 5 rfl (by omega) (by omega), ?_, ?_, ?_⟩, bit_of_four 3 5 rfl (by omega) (by omega),
    bit_of_four 3 4 rfl (by omega) (by omega)⟩ <;>
  · apply BitVec.eq_of_toNat_eq
    simp only [toNat_slice, BitVec.toNat_setWidth, BitVec.toNat_ofNat, number_four, ext_eq,
      shift_or _ _ 8 (show (s.memRead (s.bp + 2)).toNat / 2 ^ (8 - 0 - 8) % 2 ^ 8 < 2 ^ 8 from Nat.mod_lt _ (by omega))]
    omega

/-- The legal time window, read in full: the fields of `T` (30_encoding.md R98). -/
theorem readLtw_ok {s : State} (h0 : s.bo = 0) (h : s.bp + 2 ≤ s.len) :
    readLtw s = .ok ((BitVec.ofNat 16 (s.number s.bp 2)).getLsbD 15, slice 14 0 (BitVec.ofNat 16 (s.number s.bp 2)))
      (s.seek (s.bp + 2, 0)) := by
  have b0 := (s.memRead s.bp).isLt
  have b1 := (s.memRead (s.bp + 1)).isLt
  rw [readLtw_raw h0 h]
  congr 1
  rw [Prod.mk.injEq]
  refine ⟨bit_of_two 0 7 rfl (by omega) (by omega), ?_⟩
  apply BitVec.eq_of_toNat_eq
  simp only [toNat_slice, BitVec.toNat_setWidth, BitVec.toNat_ofNat, number_two,
    shift_or _ _ 8 (ext_lt _ _ _)]
  simp only [ext_eq]
  omega

/-- The piecewise rate, read in full: the field of `Q` (30_encoding.md R99, R106). -/
theorem readRate_ok {s : State} (h0 : s.bo = 0) (h : s.bp + 3 ≤ s.len) :
    readRate s = .ok (slice 21 0 (BitVec.ofNat 24 (s.number s.bp 3))) (s.seek (s.bp + 3, 0)) := by
  have b0 := (s.memRead s.bp).isLt
  have b1 := (s.memRead (s.bp + 1)).isLt
  have b2 := (s.memRead (s.bp + 2)).isLt
  rw [readRate_raw h0 h]
  congr 1
  apply BitVec.eq_of_toNat_eq
  simp only [toNat_slice, assembleRate, toNat_append_eq, BitVec.toNat_setWidth, BitVec.toNat_ofNat, number_three,
    shift_or _ _ 8 (ext_lt _ _ _)]
  simp only [ext_eq]
  omega

/-- The seamless splice, read in full: the fields of `S` (30_encoding.md R100, R107). -/
theorem readSms_ok {s : State} (h0 : s.bo = 0) (h : s.bp + 5 ≤ s.len) :
    readSms s = .ok (slice 39 36 (BitVec.ofNat 40 (s.number s.bp 5)),
        slice 35 33 (BitVec.ofNat 40 (s.number s.bp 5)) ++ slice 31 17 (BitVec.ofNat 40 (s.number s.bp 5)) ++
          slice 15 1 (BitVec.ofNat 40 (s.number s.bp 5))) (s.seek (s.bp + 5, 0)) := by
  have b0 := (s.memRead s.bp).isLt
  have b1 := (s.memRead (s.bp + 1)).isLt
  have b2 := (s.memRead (s.bp + 2)).isLt
  have b3 := (s.memRead (s.bp + 3)).isLt
  have b4 := (s.memRead (s.bp + 4)).isLt
  rw [readSms_raw h0 h]
  congr 1
  rw [Prod.mk.injEq, assembleDts]
  refine ⟨?_, congrArg₂ (· ++ ·) (congrArg₂ (· ++ ·) ?_ ?_) ?_⟩ <;>
  · apply BitVec.eq_of_toNat_eq
    simp only [toNat_slice, BitVec.toNat_setWidth, BitVec.toNat_ofNat, number_five, shift_or _ _ 7 (ext_lt _ _ _)]
    simp only [ext_eq]
    omega

/-- The flags byte of the adaptation field, as the low half of the word `A` (30_encoding.md R93). -/
theorem readAfFlags_ok {s : State} {len : Byte} {stop o : Nat} (h0 : s.bo = 0) (ho : s.bp = o + 1)
    (hn : s.bp + 1 ≤ stop) (h : s.bp + 1 ≤ s.len) :
    readAfFlags len stop s = .ok
      { decodeAfHead (BitVec.ofNat 16 (s.number o 2)) with len := len } (s.seek (s.bp + 1, 0)) := by
  rw [readAfFlags_raw h0 hn h]
  simp only [decodeAfHead, ho]
  congr 2 <;> exact bit_of_two 1 _ rfl (by omega) (by omega)

/-- The flags byte of the extension, as the low half of the word `X` (30_encoding.md R97). -/
theorem readAfxFlags_ok {s : State} {len : Byte} {stop o : Nat} (h0 : s.bo = 0) (ho : s.bp = o + 1)
    (hn : s.bp + 1 ≤ stop) (h : s.bp + 1 ≤ s.len) :
    readAfxFlags len stop s = .ok
      { decodeAfxHead (BitVec.ofNat 16 (s.number o 2)) with len := len } (s.seek (s.bp + 1, 0)) := by
  have b0 := (s.memRead o).isLt
  have b1 := (s.memRead (o + 1)).isLt
  rw [readAfxFlags_raw h0 hn h]
  simp only [decodeAfxHead, ho]
  congr 2
  · exact bit_of_two 1 _ rfl (by omega) (by omega)
  · exact bit_of_two 1 _ rfl (by omega) (by omega)
  · exact bit_of_two 1 _ rfl (by omega) (by omega)
  · apply BitVec.eq_of_toNat_eq
    simp only [toNat_slice, BitVec.toNat_setWidth, BitVec.toNat_ofNat, number_two, ext_eq]
    omega

/-- The length byte is the high half of the head word (30_encoding.md R93, R97). -/
theorem length_of_head (s : State) (o : Nat) : s.memRead o = slice 15 8 (BitVec.ofNat 16 (s.number o 2)) := by
  have b0 := (s.memRead o).isLt
  have b1 := (s.memRead (o + 1)).isLt
  apply BitVec.eq_of_toNat_eq
  simp only [toNat_slice, BitVec.toNat_ofNat, number_two]
  omega

end Sys2Proof.Machine
end

