-- ==== Sys2Proof/Laws/Bits.lean ====
section
/-! SUPPORT. The packet as one bit string (20_memory.md R64): the bits of a byte, of two bytes side by side, and the cursor
after a read. -/

namespace Sys2Proof.Machine

theorem ext_zero (B : Byte) (b : Nat) : ext B b 0 = 0 := by simp [ext]

/-- One bit more of a byte. -/
theorem ext_succ (B : Byte) (b n : Nat) (h : b + n + 1 ≤ 8) :
    ext B b (n + 1) = 2 * ext B b n + (B.getLsbD (7 - (b + n))).toNat := by
  rw [ext_eq, ext_eq, getLsbD_eq, show 8 - b - (n + 1) = 7 - (b + n) by omega,
    show 8 - b - n = 7 - (b + n) + 1 by omega]
  generalize 7 - (b + n) = j
  rw [show B.toNat / 2 ^ (j + 1) = B.toNat / 2 ^ j / 2 by rw [Nat.pow_succ, Nat.div_div_eq_div_mul]]
  generalize B.toNat / 2 ^ j = x
  have hx : x % 2 ^ (n + 1) = 2 * (x / 2 % 2 ^ n) + x % 2 := by
    rw [Nat.pow_succ, Nat.mul_comm (2 ^ n) 2, Nat.mod_mul]
    omega
  rw [hx]
  rcases Nat.mod_two_eq_zero_or_one x with h | h <;> simp [h]

/-- Bits of the packet inside one byte. -/
theorem bitsAt_byte (s : State) (p b n : Nat) (h : b + n ≤ 8) : s.bitsAt (8 * p + b) n = ext (s.memRead p) b n := by
  induction n with
  | zero => simp [State.bitsAt, ext_zero]
  | succ n ih =>
    rw [State.bitsAt, ih (by omega), ext_succ _ _ _ (by omega), State.bitAt, show (8 * p + b + n) / 8 = p by omega,
      show (8 * p + b + n) % 8 = b + n by omega]

/-- Two runs of bits side by side are one run. -/
theorem bitsAt_append (s : State) (A n m : Nat) : s.bitsAt A (n + m) = s.bitsAt A n * 2 ^ m + s.bitsAt (A + n) m := by
  induction m with
  | zero => simp [State.bitsAt]
  | succ m ih =>
    rw [← Nat.add_assoc, State.bitsAt, ih, State.bitsAt, Nat.pow_succ, Nat.add_assoc A n m]
    ring

/-- The cursor after `k` bits, as the quotient and the remainder of the bit address. -/
theorem adv_eq (p b k : Nat) (h : b + k ≤ 8) : adv p b k = ((8 * p + b + k) / 8, Fin.ofNat 8 (8 * p + b + k)) := by
  unfold adv
  split
  · rw [Prod.mk.injEq]
    refine ⟨by omega, Fin.ext ?_⟩
    simp only [Fin.ofNat]
    show 0 = _
    omega
  · rw [Prod.mk.injEq]
    refine ⟨by omega, Fin.ext ?_⟩
    simp only [Fin.ofNat]
    omega

/-- The bit address after a read is where the read ended (10_state.md R26). -/
theorem readBits_bitAddr (s : State) (n : Nat) : (s.readBits n).bitAddr = s.bitAddr + n := by
  simp only [State.bitAddr, State.readBits, Fin.ofNat]
  omega

end Sys2Proof.Machine
end

