-- ==== Sys2Proof/Laws/Groups.lean ====
section
/-! SUPPORT. What each region's reads do at a byte-aligned cursor: the three outcomes of a group (it is read, it does not
fit its budget, the buffer ends first), and the same behind its presence flag. -/

namespace Sys2Proof.Machine

/-! ### An optional group in its three outcomes -/

theorem seek_of_aligned_add {s : State} (h0 : s.bo = 0) : s.seek (s.bp + 0, 0) = s := by
  rw [Nat.add_zero, State.seek_aligned h0]

/-- A six-byte clock behind its budget (42_adaptation_field.md R185, R186). -/
theorem pcrGroup_ok {s : State} (h0 : s.bo = 0) (hb : s.bp + 6 ≤ s.afEnd) (hl : s.bp + 6 ≤ s.len) :
    pcrGroup none s = .ok () { s.seek (s.bp + 6, 0) with
      a := { s.a with pcr := BitVec.ofNat 48 (s.number s.bp 6), pcrV := true } } := by
  rw [pcrGroup, bind_ok (show needAf 6 s = _ from need_fits hb), given_none, bind_ok (pull48_ok h0 hl)]
  rfl

theorem opcrGroup_ok {s : State} (h0 : s.bo = 0) (hb : s.bp + 6 ≤ s.afEnd) (hl : s.bp + 6 ≤ s.len) :
    opcrGroup none s = .ok () { s.seek (s.bp + 6, 0) with
      a := { s.a with opcr := BitVec.ofNat 48 (s.number s.bp 6), opcrV := true } } := by
  rw [opcrGroup, bind_ok (show needAf 6 s = _ from need_fits hb), given_none, bind_ok (pull48_ok h0 hl)]
  rfl

theorem splGroup_ok {s : State} (h0 : s.bo = 0) (hb : s.bp + 1 ≤ s.afEnd) (hl : s.bp + 1 ≤ s.len) :
    splGroup none s = .ok () { s.seek (s.bp + 1, 0) with a := { s.a with splc := s.memRead s.bp, splV := true } } := by
  rw [splGroup, bind_ok (show needAf 1 s = _ from need_fits hb), given_none, bind_ok (pbyte_ok h0 (by omega))]
  rfl

theorem tpdGroup_ok {s : State} (h0 : s.bo = 0) (hb : s.bp + (1 + (s.memRead s.bp).toNat) ≤ s.afEnd)
    (hl : s.bp + (1 + (s.memRead s.bp).toNat) ≤ s.len) :
    tpdGroup none s = .ok () { s.seek (s.bp + (1 + (s.memRead s.bp).toNat), 0) with
      a := { s.a with tpdl := s.memRead s.bp, tpdb := s.bytesAt (s.bp + 1) (s.memRead s.bp).toNat, tpdV := true } } := by
  rw [tpdGroup, bind_ok (show needAf 1 s = _ from need_fits (by omega)), Option.map_none, given_none,
    bind_ok (pbyte_ok h0 (by omega)),
    bind_ok (show needAf _ (s.seek (s.bp + 1, 0)) = .ok () _ from need_fits (by simp; omega)), Option.map_none,
    given_none, bind_ok (pullBytes_ok rfl (by simp; omega))]
  simp [Nat.add_assoc]

theorem afHeadGroup_ok {s : State} (h0 : s.bo = 0) (hn : 1 ≤ (s.memRead s.bp).toNat) (hl : s.bp + 2 ≤ s.len) :
    afHeadGroup none s = .ok () ((s.seek (s.bp + 2, 0)).putAfHead (decodeAfHead (s.afHeadWord s.bp))
      (s.fieldEnd s.bp)) := by
  rw [afHeadGroup, Option.map_none, given_none, bind_ok (pbyte_ok h0 (by omega)),
    bind_ok (show endAfter _ (s.seek (s.bp + 1, 0)) = .ok _ _ from rfl), given_none,
    bind_ok (readAfFlags_ok (o := s.bp) rfl rfl (by simp; omega) (by simp; omega))]
  simp only [modify_apply, State.number_seek, State.seek_seek]
  rw [show ({ decodeAfHead (BitVec.ofNat 16 (s.number s.bp 2)) with len := s.memRead s.bp } : AfHead) =
    decodeAfHead (s.afHeadWord s.bp) by rw [length_of_head]; rfl]
  rfl

theorem ltwGroup_ok {s : State} (h0 : s.bo = 0) (hb : s.bp + 2 ≤ s.afxEnd) (hl : s.bp + 2 ≤ s.len) :
    ltwGroup none s = .ok () { s.seek (s.bp + 2, 0) with
      x := { s.x with ltwvf := (BitVec.ofNat 16 (s.number s.bp 2)).getLsbD 15,
                      ltwo := slice 14 0 (BitVec.ofNat 16 (s.number s.bp 2)), ltwV := true } } := by
  rw [ltwGroup, bind_ok (show needAfx 2 s = _ from need_fits hb), given_none, bind_ok (readLtw_ok h0 hl)]
  rfl

theorem pwrGroup_ok {s : State} (h0 : s.bo = 0) (hb : s.bp + 3 ≤ s.afxEnd) (hl : s.bp + 3 ≤ s.len) :
    pwrGroup none s = .ok () { s.seek (s.bp + 3, 0) with
      x := { s.x with pwr := slice 21 0 (BitVec.ofNat 24 (s.number s.bp 3)), pwrV := true } } := by
  rw [pwrGroup, bind_ok (show needAfx 3 s = _ from need_fits hb), given_none, bind_ok (readRate_ok h0 hl)]
  rfl

theorem smsGroup_ok {s : State} (h0 : s.bo = 0) (hb : s.bp + 5 ≤ s.afxEnd) (hl : s.bp + 5 ≤ s.len) :
    smsGroup none s = .ok () { s.seek (s.bp + 5, 0) with
      x := { s.x with splt := slice 39 36 (BitVec.ofNat 40 (s.number s.bp 5)),
                      dts := slice 35 33 (BitVec.ofNat 40 (s.number s.bp 5)) ++
                        slice 31 17 (BitVec.ofNat 40 (s.number s.bp 5)) ++
                        slice 15 1 (BitVec.ofNat 40 (s.number s.bp 5)), smsV := true } } := by
  rw [smsGroup, bind_ok (show needAfx 5 s = _ from need_fits hb), given_none, bind_ok (readSms_ok h0 hl)]
  rfl

/-- The limit of an extension, as a condition: none when it stands alone (43_af_extension.md R210). -/
def Within (limit : Option Nat) (e : Nat) : Prop := ∀ stop, limit = some stop → e ≤ stop

theorem needWithin_ok {limit : Option Nat} {s : State} {k : Nat} (h : Within limit (s.bp + k)) :
    needWithin k limit s = .ok () s := by
  cases limit with
  | none => rfl
  | some stop => exact need_fits (h stop rfl)

theorem extensionEnd_ok {limit : Option Nat} {s : State} {len : Byte} (h : Within limit (s.bp + len.toNat)) :
    extensionEnd len limit s = .ok (s.bp + len.toNat) s := by
  cases limit with
  | none => rfl
  | some stop =>
    have := h stop rfl
    simp [extensionEnd, Nat.not_lt.mpr this]

theorem afxHeadGroup_ok {s : State} {limit : Option Nat} (h0 : s.bo = 0) (hn : 1 ≤ (s.memRead s.bp).toNat)
    (hw : Within limit (s.fieldEnd s.bp)) (hl : s.bp + 2 ≤ s.len) :
    afxHeadGroup none limit s = .ok () ((s.seek (s.bp + 2, 0)).putAfxHead (decodeAfxHead (s.extHead s.bp))
      (s.fieldEnd s.bp)) := by
  rw [afxHeadGroup, bind_ok (needWithin_ok (fun stop e => by have := hw stop e; unfold State.fieldEnd at this; omega)),
    Option.map_none, given_none, bind_ok (pbyte_ok h0 (by omega)),
    bind_ok (extensionEnd_ok (s := s.seek (s.bp + 1, 0)) (by simpa [State.fieldEnd] using hw)), given_none,
    bind_ok (readAfxFlags_ok (o := s.bp) rfl rfl (by simp; omega) (by simp; omega))]
  simp only [modify_apply, State.number_seek, State.seek_seek]
  rw [show ({ decodeAfxHead (BitVec.ofNat 16 (s.number s.bp 2)) with len := s.memRead s.bp } : AfxHead) =
    decodeAfxHead (s.extHead s.bp) by rw [length_of_head]; rfl]
  rfl

theorem hdrGroup_ok {s : State} (h0 : s.bo = 0) (h : s.bp + 4 ≤ s.len) :
    hdrGroup none s = .ok () ((s.seek (s.bp + 4, 0)).putHdr (tshFields (BitVec.ofNat 32 (s.number s.bp 4)))
      ((BitVec.ofNat 32 (s.number s.bp 4)).getLsbD 5) ((BitVec.ofNat 32 (s.number s.bp 4)).getLsbD 4)) := by
  rw [hdrGroup, given_none, bind_ok (readHdr_ok h0 h)]
  rfl

/-! ### A group that does not fit its budget, and one that the buffer cuts short -/

theorem needAf_overrun {s : State} {k : Nat} (h : s.afEnd < s.bp + k) {g : Unit → Op Unit} :
    (needAf k >>= g) s = .error .adaptationFieldOverrun s :=
  bind_error (show needAf k s = _ from need_overrun h)

theorem needAfx_overrun {s : State} {k : Nat} (h : s.afxEnd < s.bp + k) {g : Unit → Op Unit} :
    (needAfx k >>= g) s = .error .adaptationFieldOverrun s :=
  bind_error (show needAfx k s = _ from need_overrun h)

theorem pcrGroup_overrun {s : State} (h : s.afEnd < s.bp + 6) (o : Option (BitVec 48)) :
    pcrGroup o s = .error .adaptationFieldOverrun s := needAf_overrun h

theorem opcrGroup_overrun {s : State} (h : s.afEnd < s.bp + 6) (o : Option (BitVec 48)) :
    opcrGroup o s = .error .adaptationFieldOverrun s := needAf_overrun h

theorem splGroup_overrun {s : State} (h : s.afEnd < s.bp + 1) (o : Option Byte) :
    splGroup o s = .error .adaptationFieldOverrun s := needAf_overrun h

theorem tpdGroup_overrun {s : State} (h : s.afEnd < s.bp + 1) (o : Option (Byte × List Byte)) :
    tpdGroup o s = .error .adaptationFieldOverrun s := needAf_overrun h

theorem ltwGroup_overrun {s : State} (h : s.afxEnd < s.bp + 2) (o : Option (Bool × BitVec 15)) :
    ltwGroup o s = .error .adaptationFieldOverrun s := needAfx_overrun h

theorem pwrGroup_overrun {s : State} (h : s.afxEnd < s.bp + 3) (o : Option (BitVec 22)) :
    pwrGroup o s = .error .adaptationFieldOverrun s := needAfx_overrun h

theorem smsGroup_overrun {s : State} (h : s.afxEnd < s.bp + 5) (o : Option (BitVec 4 × BitVec 33)) :
    smsGroup o s = .error .adaptationFieldOverrun s := needAfx_overrun h

theorem given_error {α : Type} {v : Option α} {m : Op α} {s t : State} {e : DecodeError} (h : m s = .error e t) :
    given v m s = .error e t := bind_error h

theorem pcrGroup_short {s : State} (h0 : s.bo = 0) (hle : s.bp ≤ s.len) (hb : s.bp + 6 ≤ s.afEnd)
    (h : s.len < s.bp + 6) (o : Option (BitVec 48)) : pcrGroup o s = .error .outOfData (s.seek (s.len, 0)) := by
  rw [pcrGroup, bind_ok (show needAf 6 s = _ from need_fits hb), bind_error (given_error (pull48_short h0 hle h))]

theorem opcrGroup_short {s : State} (h0 : s.bo = 0) (hle : s.bp ≤ s.len) (hb : s.bp + 6 ≤ s.afEnd)
    (h : s.len < s.bp + 6) (o : Option (BitVec 48)) : opcrGroup o s = .error .outOfData (s.seek (s.len, 0)) := by
  rw [opcrGroup, bind_ok (show needAf 6 s = _ from need_fits hb), bind_error (given_error (pull48_short h0 hle h))]

theorem splGroup_short {s : State} (h0 : s.bo = 0) (hb : s.bp + 1 ≤ s.afEnd) (h : s.len ≤ s.bp) (o : Option Byte) :
    splGroup o s = .error .outOfData s := by
  rw [splGroup, bind_ok (show needAf 1 s = _ from need_fits hb), bind_error (given_error (pbyte_end h0 h))]

theorem tpdGroup_noLength {s : State} (h0 : s.bo = 0) (hb : s.bp + 1 ≤ s.afEnd) (h : s.len ≤ s.bp)
    (o : Option (Byte × List Byte)) : tpdGroup o s = .error .outOfData s := by
  rw [tpdGroup, bind_ok (show needAf 1 s = _ from need_fits hb), bind_error (given_error (pbyte_end h0 h))]

theorem tpdGroup_overrunBytes {s : State} (h0 : s.bo = 0) (hb : s.bp + 1 ≤ s.afEnd) (hl : s.bp < s.len)
    (h : s.afEnd < s.bp + 1 + (s.memRead s.bp).toNat) :
    tpdGroup none s = .error .adaptationFieldOverrun (s.seek (s.bp + 1, 0)) := by
  rw [tpdGroup, bind_ok (show needAf 1 s = _ from need_fits hb), Option.map_none, given_none, bind_ok (pbyte_ok h0 hl),
    needAf_overrun (by simpa using h)]

theorem tpdGroup_short {s : State} (h0 : s.bo = 0) (hl : s.bp < s.len)
    (hb : s.bp + (1 + (s.memRead s.bp).toNat) ≤ s.afEnd) (h : s.len < s.bp + (1 + (s.memRead s.bp).toNat)) :
    tpdGroup none s = .error .outOfData (s.seek (s.len, 0)) := by
  rw [tpdGroup, bind_ok (show needAf 1 s = _ from need_fits (by omega)), Option.map_none, given_none,
    bind_ok (pbyte_ok h0 hl),
    bind_ok (show needAf _ (s.seek (s.bp + 1, 0)) = .ok () _ from need_fits (by simp; omega)), Option.map_none,
    given_none, bind_error (pullBytes_short rfl (by simp; omega) (by simp; omega))]
  rfl

theorem ltwGroup_short {s : State} (h0 : s.bo = 0) (hb : s.bp + 2 ≤ s.afxEnd) (h : s.len < s.bp + 2)
    (o : Option (Bool × BitVec 15)) : ltwGroup o s = .error .outOfData (s.seek (cutAt .ltw s.bp s.len)) :=
  (bind_ok (show needAfx 2 s = _ from need_fits hb)).trans (bind_error (given_error (readLtw_short h0 h)))

theorem pwrGroup_short {s : State} (h0 : s.bo = 0) (hb : s.bp + 3 ≤ s.afxEnd) (h : s.len < s.bp + 3)
    (o : Option (BitVec 22)) : pwrGroup o s = .error .outOfData (s.seek (cutAt .pwr s.bp s.len)) :=
  (bind_ok (show needAfx 3 s = _ from need_fits hb)).trans (bind_error (given_error (readRate_short h0 h)))

theorem smsGroup_short {s : State} (h0 : s.bo = 0) (hb : s.bp + 5 ≤ s.afxEnd) (h : s.len < s.bp + 5)
    (o : Option (BitVec 4 × BitVec 33)) : smsGroup o s = .error .outOfData (s.seek (cutAt .sms s.bp s.len)) :=
  (bind_ok (show needAfx 5 s = _ from need_fits hb)).trans (bind_error (given_error (readSms_short h0 h)))

theorem hdrGroup_short {s : State} (h0 : s.bo = 0) (h : s.len < s.bp + 4) (o : Option (Tsh × Bool × Bool)) :
    hdrGroup o s = .error .outOfData (s.seek (cutAt .tsh s.bp s.len)) := by
  rw [hdrGroup, bind_error (given_error (readHdr_short h0 h))]

theorem afHeadGroup_noLength {s : State} (h0 : s.bo = 0) (h : s.len ≤ s.bp) :
    afHeadGroup none s = .error .outOfData s := by
  rw [afHeadGroup, Option.map_none, given_none, bind_error (pbyte_end h0 h)]

/-- `field_length == 0` (42_adaptation_field.md R191). -/
theorem afHeadGroup_zero {s : State} (h0 : s.bo = 0) (hl : s.bp < s.len) (hz : (s.memRead s.bp).toNat = 0) :
    afHeadGroup none s = .error .adaptationFieldOverrun (s.seek (s.bp + 1, 0)) := by
  rw [afHeadGroup, Option.map_none, given_none, bind_ok (pbyte_ok h0 hl),
    bind_ok (show endAfter _ (s.seek (s.bp + 1, 0)) = .ok _ _ from rfl), given_none,
    bind_error (readAfFlags_overrun (by simp [hz]))]

theorem afHeadGroup_noFlags {s : State} (h0 : s.bo = 0) (hn : 1 ≤ (s.memRead s.bp).toNat) (hl : s.len = s.bp + 1) :
    afHeadGroup none s = .error .outOfData (s.seek (s.bp + 1, 0)) := by
  rw [afHeadGroup, Option.map_none, given_none, bind_ok (pbyte_ok h0 (by omega)),
    bind_ok (show endAfter _ (s.seek (s.bp + 1, 0)) = .ok _ _ from rfl), given_none,
    bind_error (readAfFlags_end (by simp; omega) (by simp; omega))]

theorem afxHeadGroup_noRoom {s : State} {stop : Nat} (h : stop < s.bp + 1) (o : Option AfxHead) :
    afxHeadGroup o (some stop) s = .error .adaptationFieldOverrun s := by
  rw [afxHeadGroup, bind_error (show needWithin 1 (some stop) s = _ from need_overrun h)]

theorem afxHeadGroup_noLength {s : State} {limit : Option Nat} (h0 : s.bo = 0) (hw : Within limit (s.bp + 1))
    (h : s.len ≤ s.bp) : afxHeadGroup none limit s = .error .outOfData s := by
  rw [afxHeadGroup, bind_ok (needWithin_ok hw), Option.map_none, given_none, bind_error (pbyte_end h0 h)]

theorem afxHeadGroup_tooLong {s : State} {stop : Nat} (h0 : s.bo = 0) (hl : s.bp < s.len) (h1 : s.bp + 1 ≤ stop)
    (h : stop < s.fieldEnd s.bp) :
    afxHeadGroup none (some stop) s = .error .adaptationFieldOverrun (s.seek (s.bp + 1, 0)) := by
  rw [afxHeadGroup, bind_ok (needWithin_ok (fun _ e => by cases e; exact h1)), Option.map_none, given_none,
    bind_ok (pbyte_ok h0 hl), bind_error (e := .adaptationFieldOverrun) (s' := s.seek (s.bp + 1, 0))]
  unfold State.fieldEnd at h
  simp [extensionEnd, h]

theorem afxHeadGroup_zero {s : State} {limit : Option Nat} (h0 : s.bo = 0) (hl : s.bp < s.len)
    (hw : Within limit (s.fieldEnd s.bp)) (hz : (s.memRead s.bp).toNat = 0) :
    afxHeadGroup none limit s = .error .adaptationFieldOverrun (s.seek (s.bp + 1, 0)) := by
  rw [afxHeadGroup, bind_ok (needWithin_ok (fun stop e => by have := hw stop e; unfold State.fieldEnd at this; omega)),
    Option.map_none, given_none, bind_ok (pbyte_ok h0 hl),
    bind_ok (extensionEnd_ok (s := s.seek (s.bp + 1, 0)) (by simpa [State.fieldEnd] using hw)), given_none,
    bind_error (readAfxFlags_overrun (by simp [hz]))]

theorem afxHeadGroup_noFlags {s : State} {limit : Option Nat} (h0 : s.bo = 0) (hn : 1 ≤ (s.memRead s.bp).toNat)
    (hw : Within limit (s.fieldEnd s.bp)) (hl : s.len = s.bp + 1) :
    afxHeadGroup none limit s = .error .outOfData (s.seek (s.bp + 1, 0)) := by
  rw [afxHeadGroup, bind_ok (needWithin_ok (fun stop e => by have := hw stop e; unfold State.fieldEnd at this; omega)),
    Option.map_none, given_none, bind_ok (pbyte_ok h0 (by omega)),
    bind_ok (extensionEnd_ok (s := s.seek (s.bp + 1, 0)) (by simpa [State.fieldEnd] using hw)), given_none,
    bind_error (readAfxFlags_end (by simp; omega) (by simp; omega))]

end Sys2Proof.Machine
end

