-- ==== Sys2Proof/Laws/Sequences.lean ====
section
/-! SUPPORT. The composite operations in closed form: at a byte-aligned cursor they succeed when the layout fits, with
the registers of Machine/Layout.lean. -/

namespace Sys2Proof.Machine

/-! ### What depends on the buffer only -/

theorem State.memRead_of_data {s t : State} (h : t.data = s.data) (a : Nat) : t.memRead a = s.memRead a := by
  rw [State.memRead, State.memRead, h]

theorem State.number_of_data {s t : State} (h : t.data = s.data) (o k : Nat) : t.number o k = s.number o k := by
  induction k with
  | zero => rfl
  | succ k ih => rw [State.number, State.number, ih, State.memRead_of_data h]

theorem State.bytesAt_of_data {s t : State} (h : t.data = s.data) (o k : Nat) : t.bytesAt o k = s.bytesAt o k := by
  induction k generalizing o with
  | zero => rfl
  | succ k ih => rw [State.bytesAt, State.bytesAt, ih, State.memRead_of_data h]

theorem State.fieldEnd_of_data {s t : State} (h : t.data = s.data) (o : Nat) : t.fieldEnd o = s.fieldEnd o := by
  simp only [State.fieldEnd, State.memRead_of_data h]

theorem State.extHead_of_data {s t : State} (h : t.data = s.data) (o : Nat) : t.extHead o = s.extHead o := by
  simp only [State.extHead, State.number_of_data h]

theorem State.pwrAt_of_data {s t : State} (h : t.data = s.data) (o : Nat) : t.pwrAt o = s.pwrAt o := by
  simp only [State.pwrAt, State.extHead_of_data h]

theorem State.smsAt_of_data {s t : State} (h : t.data = s.data) (o : Nat) : t.smsAt o = s.smsAt o := by
  simp only [State.smsAt, State.pwrAt_of_data h, State.extHead_of_data h]

theorem State.padAt_of_data {s t : State} (h : t.data = s.data) (o : Nat) : t.padAt o = s.padAt o := by
  simp only [State.padAt, State.smsAt_of_data h, State.extHead_of_data h]

theorem State.extHolds_of_data {s t : State} (h : t.data = s.data) (o : Nat) : t.extHolds o = s.extHolds o := by
  simp only [State.extHolds, State.padAt_of_data h, State.fieldEnd_of_data h]

theorem State.layoutX_of_data {s t : State} (h : t.data = s.data) (o : Nat) : t.layoutX o = s.layoutX o := by
  simp only [State.layoutX, State.extHead_of_data h, State.number_of_data h, State.pwrAt_of_data h,
    State.smsAt_of_data h]

theorem State.layoutF_of_data {s t : State} (h : t.data = s.data) (o : Nat) : t.layoutF o = s.layoutF o := by
  simp only [State.layoutF, State.afHeadWord, State.number_of_data h]

theorem State.opcrAt_of_data {s t : State} (h : t.data = s.data) (o : Nat) : t.opcrAt o = s.opcrAt o := by
  simp only [State.opcrAt, State.layoutF_of_data h]

theorem State.splAt_of_data {s t : State} (h : t.data = s.data) (o : Nat) : t.splAt o = s.splAt o := by
  simp only [State.splAt, State.opcrAt_of_data h, State.layoutF_of_data h]

theorem State.tpdAt_of_data {s t : State} (h : t.data = s.data) (o : Nat) : t.tpdAt o = s.tpdAt o := by
  simp only [State.tpdAt, State.splAt_of_data h, State.layoutF_of_data h]

theorem State.afxAt_of_data {s t : State} (h : t.data = s.data) (o : Nat) : t.afxAt o = s.afxAt o := by
  simp only [State.afxAt, State.tpdAt_of_data h, State.layoutF_of_data h, State.memRead_of_data h]

theorem State.stfAt_of_data {s t : State} (h : t.data = s.data) (o : Nat) : t.stfAt o = s.stfAt o := by
  simp only [State.stfAt, State.afxAt_of_data h, State.layoutF_of_data h, State.memRead_of_data h]

theorem State.fieldHolds_of_data {s t : State} (h : t.data = s.data) (o : Nat) : t.fieldHolds o = s.fieldHolds o := by
  simp only [State.fieldHolds, State.stfAt_of_data h, State.fieldEnd_of_data h, State.layoutF_of_data h,
    State.extHolds_of_data h, State.afxAt_of_data h]

theorem State.layoutA_of_data {s t : State} (h : t.data = s.data) (o : Nat) : t.layoutA o = s.layoutA o := by
  simp only [State.layoutA, State.afHeadWord, State.layoutF_of_data h, State.number_of_data h, State.opcrAt_of_data h,
    State.splAt_of_data h, State.tpdAt_of_data h, State.memRead_of_data h, State.bytesAt_of_data h,
    State.fieldEnd_of_data h, State.stfAt_of_data h]

theorem State.layoutAX_of_data {s t : State} (h : t.data = s.data) (o : Nat) : t.layoutAX o = s.layoutAX o := by
  simp only [State.layoutAX, State.layoutF_of_data h, State.layoutX_of_data h, State.afxAt_of_data h]

theorem State.layoutP_of_data {s t : State} (h : t.data = s.data) (o : Nat) : t.layoutP o = s.layoutP o := by
  simp only [State.layoutP, State.number_of_data h]

theorem State.extStop_of_data {s t : State} (h : t.data = s.data) (o : Nat) : t.extStop o = s.extStop o := by
  simp only [State.extStop, State.fieldEnd_of_data h, State.pwrAt_of_data h, State.smsAt_of_data h]

theorem State.fieldStop_of_data {s t : State} (h : t.data = s.data) (o : Nat) : t.fieldStop o = s.fieldStop o := by
  simp only [State.fieldStop, State.fieldEnd_of_data h, State.opcrAt_of_data h, State.splAt_of_data h,
    State.tpdAt_of_data h, State.afxAt_of_data h, State.stfAt_of_data h, State.extStop_of_data h]

theorem State.extCut_of_data {s t : State} (h : t.data = s.data) (hl : t.len = s.len) (o : Nat) :
    t.extCut o = s.extCut o := by
  simp only [State.extCut, State.pwrAt_of_data h, State.smsAt_of_data h, State.padAt_of_data h, hl]

theorem State.fieldCut_of_data {s t : State} (h : t.data = s.data) (hl : t.len = s.len) (o : Nat) :
    t.fieldCut o = s.fieldCut o := by
  simp only [State.fieldCut, State.layoutF_of_data h, State.afxAt_of_data h, State.extCut_of_data h hl, hl]

theorem State.with_x {s : State} {x : GroupX} (h : x = s.x) : { s with x := x } = s := by rw [h]

theorem State.with_a {s : State} {a : GroupA} (h : a = s.a) : { s with a := a } = s := by rw [h]

/-! ### The extension, group by group -/

theorem ltwStep_ok {s : State} (h0 : s.bo = 0) (hv : s.x.ltwV = false) (hz : s.x.ltwvf = false) (hz' : s.x.ltwo = 0)
    (hb : s.bp + room s.x.ltwf 2 ≤ s.afxEnd) (hl : s.bp + room s.x.ltwf 2 ≤ s.len) :
    onFlag (·.x.ltwf) (ltwGroup none) s = .ok () { s.seek (s.bp + room s.x.ltwf 2, 0) with
      x := { s.x with ltwV := s.x.ltwf, ltwvf := s.x.ltwf && (BitVec.ofNat 16 (s.number s.bp 2)).getLsbD 15,
                      ltwo := orZero s.x.ltwf (slice 14 0 (BitVec.ofNat 16 (s.number s.bp 2))) } } := by
  cases hf : s.x.ltwf
  · rw [onFlag_clear _ _ _ hf]
    simp only [room, orZero, Bool.false_eq_true, if_false, seek_of_aligned_add h0, Bool.false_and]
    congr 1
    exact (State.with_x (by cases h : s.x; simp_all)).symm
  · rw [onFlag_set _ _ _ hf]
    simp only [room, hf, if_true] at hb hl
    rw [ltwGroup_ok h0 hb hl]
    simp [room, orZero, ← hf]

theorem pwrStep_ok {s : State} (h0 : s.bo = 0) (hv : s.x.pwrV = false) (hz : s.x.pwr = 0)
    (hb : s.bp + room s.x.pwrf 3 ≤ s.afxEnd) (hl : s.bp + room s.x.pwrf 3 ≤ s.len) :
    onFlag (·.x.pwrf) (pwrGroup none) s = .ok () { s.seek (s.bp + room s.x.pwrf 3, 0) with
      x := { s.x with pwrV := s.x.pwrf,
                      pwr := orZero s.x.pwrf (slice 21 0 (BitVec.ofNat 24 (s.number s.bp 3))) } } := by
  cases hf : s.x.pwrf
  · rw [onFlag_clear _ _ _ hf]
    simp only [room, orZero, Bool.false_eq_true, if_false, seek_of_aligned_add h0]
    congr 1
    exact (State.with_x (by cases h : s.x; simp_all)).symm
  · rw [onFlag_set _ _ _ hf]
    simp only [room, hf, if_true] at hb hl
    rw [pwrGroup_ok h0 hb hl]
    simp [room, orZero, ← hf]

theorem smsStep_ok {s : State} (h0 : s.bo = 0) (hv : s.x.smsV = false) (hz : s.x.splt = 0) (hz' : s.x.dts = 0)
    (hb : s.bp + room s.x.smsf 5 ≤ s.afxEnd) (hl : s.bp + room s.x.smsf 5 ≤ s.len) :
    onFlag (·.x.smsf) (smsGroup none) s = .ok () { s.seek (s.bp + room s.x.smsf 5, 0) with
      x := { s.x with smsV := s.x.smsf, splt := orZero s.x.smsf (slice 39 36 (BitVec.ofNat 40 (s.number s.bp 5))),
                      dts := orZero s.x.smsf (slice 35 33 (BitVec.ofNat 40 (s.number s.bp 5)) ++
                        slice 31 17 (BitVec.ofNat 40 (s.number s.bp 5)) ++
                        slice 15 1 (BitVec.ofNat 40 (s.number s.bp 5))) } } := by
  cases hf : s.x.smsf
  · rw [onFlag_clear _ _ _ hf]
    simp only [room, orZero, Bool.false_eq_true, if_false, seek_of_aligned_add h0]
    congr 1
    exact (State.with_x (by cases h : s.x; simp_all)).symm
  · rw [onFlag_set _ _ _ hf]
    simp only [room, hf, if_true] at hb hl
    rw [smsGroup_ok h0 hb hl]
    simp [room, orZero, ← hf]

theorem afxPadding_ok {s : State} (h0 : s.bo = 0) (hb : s.bp ≤ s.afxEnd) (hl : s.afxEnd ≤ s.len) :
    afxPadding s = .ok () (s.seek (s.afxEnd, 0)) := by
  show skip _ s = _
  rw [skip_ok h0 (by omega), Nat.add_sub_cancel' hb]

/-- Inside an extension that starts at the cursor of `s`: at offset `o`, with `x` read so far. -/
def State.extAt (s : State) (o : Nat) (x : GroupX) : State :=
  { s with bp := o, bo := 0, x := x, afxEnd := s.fieldEnd s.bp }

/-- Group X of the extension at offset `o`, up to and with the legal time window. -/
def State.layoutX1 (s : State) (o : Nat) : GroupX :=
  { s.layoutX o with pwrV := false, pwr := 0, smsV := false, splt := 0, dts := 0 }

/-- The same up to and with the piecewise rate. -/
def State.layoutX2 (s : State) (o : Nat) : GroupX := { s.layoutX o with smsV := false, splt := 0, dts := 0 }

theorem afxSeq_ok {s : State} {limit : Option Nat} (h0 : s.bo = 0) (hfit : s.padAt s.bp ≤ s.fieldEnd s.bp)
    (hw : Within limit (s.fieldEnd s.bp)) (hl : s.fieldEnd s.bp ≤ s.len) :
    afxSeq limit s = .ok () (s.extAt (s.fieldEnd s.bp) (s.layoutX s.bp)) := by
  have h1 : s.bp + 2 ≤ s.pwrAt s.bp := Nat.le_add_right ..
  have h2 : s.pwrAt s.bp ≤ s.smsAt s.bp := Nat.le_add_right ..
  have h3 : s.smsAt s.bp ≤ s.padAt s.bp := Nat.le_add_right ..
  have hn : 1 ≤ (s.memRead s.bp).toNat := by unfold State.fieldEnd at hfit; omega
  have e0 : afxHeadGroup none limit s.clearX = .ok () (s.extAt (s.bp + 2)
      { GroupX.clear with
        afxl := (decodeAfxHead (s.extHead s.bp)).len, ltwf := (decodeAfxHead (s.extHead s.bp)).ltw,
        pwrf := (decodeAfxHead (s.extHead s.bp)).pwr, smsf := (decodeAfxHead (s.extHead s.bp)).sms }) :=
    afxHeadGroup_ok (s := s.clearX) h0 hn hw (show s.bp + 2 ≤ s.len by omega)
  have e1 := ltwStep_ok (s := s.extAt (s.bp + 2)
      { GroupX.clear with
        afxl := (decodeAfxHead (s.extHead s.bp)).len, ltwf := (decodeAfxHead (s.extHead s.bp)).ltw,
        pwrf := (decodeAfxHead (s.extHead s.bp)).pwr, smsf := (decodeAfxHead (s.extHead s.bp)).sms })
    rfl rfl rfl rfl (show s.pwrAt s.bp ≤ s.fieldEnd s.bp by omega) (show s.pwrAt s.bp ≤ s.len by omega)
  have e1 : _ = EStateM.Result.ok () (s.extAt (s.pwrAt s.bp) (s.layoutX1 s.bp)) := e1
  have e2 : _ = EStateM.Result.ok () (s.extAt (s.smsAt s.bp) (s.layoutX2 s.bp)) :=
    pwrStep_ok (s := s.extAt (s.pwrAt s.bp) (s.layoutX1 s.bp)) rfl rfl rfl
      (show s.smsAt s.bp ≤ s.fieldEnd s.bp by omega) (show s.smsAt s.bp ≤ s.len by omega)
  have e3 : _ = EStateM.Result.ok () (s.extAt (s.padAt s.bp) (s.layoutX s.bp)) :=
    smsStep_ok (s := s.extAt (s.smsAt s.bp) (s.layoutX2 s.bp)) rfl rfl rfl rfl
      (show s.padAt s.bp ≤ s.fieldEnd s.bp by omega) (show s.padAt s.bp ≤ s.len by omega)
  rw [afxSeq, bind_ok (modify_apply _ _), bind_ok e0, bind_ok e1, bind_ok e2, bind_ok e3,
    afxPadding_ok (s := s.extAt (s.padAt s.bp) (s.layoutX s.bp)) rfl hfit hl]
  rfl

/-! ### How the extension fails -/

theorem afxPadding_short {s : State} (h0 : s.bo = 0) (hle : s.bp ≤ s.len) (h : s.len < s.afxEnd) :
    afxPadding s = .error .outOfData (s.seek (s.len, 0)) := skip_short h0 hle (by omega)

theorem ltwStep_error {s : State} (h0 : s.bo = 0) (hl : s.bp ≤ s.len)
    (h : s.afxEnd < s.bp + room s.x.ltwf 2 ∨ s.len < s.bp + room s.x.ltwf 2) (hb : s.bp ≤ s.afxEnd) :
    (onFlag (·.x.ltwf) (ltwGroup none) s = .error .adaptationFieldOverrun s ∧ s.afxEnd < s.bp + room s.x.ltwf 2) ∨
      (onFlag (·.x.ltwf) (ltwGroup none) s = .error .outOfData (s.seek (cutAt .ltw s.bp s.len)) ∧
        s.bp + room s.x.ltwf 2 ≤ s.afxEnd ∧ s.len < s.bp + room s.x.ltwf 2) := by
  cases hf : s.x.ltwf
  · simp only [room, hf, Bool.false_eq_true, if_false] at h; omega
  · simp only [room, hf, if_true] at h ⊢
    rw [onFlag_set _ _ _ hf]
    rcases Nat.lt_or_ge s.afxEnd (s.bp + 2) with k | k
    · exact .inl ⟨ltwGroup_overrun k _, k⟩
    · exact .inr ⟨ltwGroup_short h0 k (by omega) none, k, by omega⟩

theorem pwrStep_error {s : State} (h0 : s.bo = 0) (hl : s.bp ≤ s.len)
    (h : s.afxEnd < s.bp + room s.x.pwrf 3 ∨ s.len < s.bp + room s.x.pwrf 3) (hb : s.bp ≤ s.afxEnd) :
    (onFlag (·.x.pwrf) (pwrGroup none) s = .error .adaptationFieldOverrun s ∧ s.afxEnd < s.bp + room s.x.pwrf 3) ∨
      (onFlag (·.x.pwrf) (pwrGroup none) s = .error .outOfData (s.seek (cutAt .pwr s.bp s.len)) ∧
        s.bp + room s.x.pwrf 3 ≤ s.afxEnd ∧ s.len < s.bp + room s.x.pwrf 3) := by
  cases hf : s.x.pwrf
  · simp only [room, hf, Bool.false_eq_true, if_false] at h; omega
  · simp only [room, hf, if_true] at h ⊢
    rw [onFlag_set _ _ _ hf]
    rcases Nat.lt_or_ge s.afxEnd (s.bp + 3) with k | k
    · exact .inl ⟨pwrGroup_overrun k _, k⟩
    · exact .inr ⟨pwrGroup_short h0 k (by omega) none, k, by omega⟩

theorem smsStep_error {s : State} (h0 : s.bo = 0) (hl : s.bp ≤ s.len)
    (h : s.afxEnd < s.bp + room s.x.smsf 5 ∨ s.len < s.bp + room s.x.smsf 5) (hb : s.bp ≤ s.afxEnd) :
    (onFlag (·.x.smsf) (smsGroup none) s = .error .adaptationFieldOverrun s ∧ s.afxEnd < s.bp + room s.x.smsf 5) ∨
      (onFlag (·.x.smsf) (smsGroup none) s = .error .outOfData (s.seek (cutAt .sms s.bp s.len)) ∧
        s.bp + room s.x.smsf 5 ≤ s.afxEnd ∧ s.len < s.bp + room s.x.smsf 5) := by
  cases hf : s.x.smsf
  · simp only [room, hf, Bool.false_eq_true, if_false] at h; omega
  · simp only [room, hf, if_true] at h ⊢
    rw [onFlag_set _ _ _ hf]
    rcases Nat.lt_or_ge s.afxEnd (s.bp + 5) with k | k
    · exact .inl ⟨smsGroup_overrun k _, k⟩
    · exact .inr ⟨smsGroup_short h0 k (by omega) none, k, by omega⟩

/-- Where the first budget check fails in an extension at the cursor that is not well formed or passes its limit. -/
def State.extStopIn (s : State) : Option Nat → Nat
  | none => s.extStop s.bp
  | some stop =>
    if stop < s.bp + 1 then s.bp else if stop < s.fieldEnd s.bp then s.bp + 1 else s.extStop s.bp

/-- Within its limit an extension is stopped where one that stands alone is. -/
theorem extStopIn_within {s : State} {limit : Option Nat} (h : Within limit (s.fieldEnd s.bp)) :
    s.extStopIn limit = s.extStop s.bp := by
  cases limit with
  | none => rfl
  | some stop =>
    have hk := h stop rfl
    have hE : s.fieldEnd s.bp = s.bp + 1 + (s.memRead s.bp).toNat := rfl
    rw [State.extStopIn, if_neg (by omega), if_neg (by omega)]

/-- An extension at the cursor that is not well formed, not within its limit or not in the buffer ends with an error
(43_af_extension.md R218): with `AdaptationFieldOverrun` at the first budget check that fails where the buffer reaches to
it, else with `OutOfData` at the first primitive that lacks a byte. -/
theorem afxSeq_error {s : State} {limit : Option Nat} (h0 : s.bo = 0) (hle : ∀ stop, limit = some stop → s.bp ≤ s.len)
    (h : ¬(s.padAt s.bp ≤ s.fieldEnd s.bp ∧ Within limit (s.fieldEnd s.bp) ∧ s.fieldEnd s.bp ≤ s.len)) :
    ∃ t, (afxSeq limit s = .error .adaptationFieldOverrun t ∧ (t.bp, t.bo) = (s.extStopIn limit, 0) ∧
        s.extStopIn limit ≤ s.len ∧ ¬(s.padAt s.bp ≤ s.fieldEnd s.bp ∧ Within limit (s.fieldEnd s.bp))) ∨
      (afxSeq limit s = .error .outOfData t ∧ (t.bp, t.bo) = s.extCut s.bp ∧
        (¬(s.padAt s.bp ≤ s.fieldEnd s.bp ∧ Within limit (s.fieldEnd s.bp)) → s.len < s.extStopIn limit) ∧
        s.len < s.fieldEnd s.bp ∧ Within limit (s.len + 1)) := by
  have h1 : s.bp + 2 ≤ s.pwrAt s.bp := Nat.le_add_right ..
  have h2 : s.pwrAt s.bp ≤ s.smsAt s.bp := Nat.le_add_right ..
  have h3 : s.smsAt s.bp ≤ s.padAt s.bp := Nat.le_add_right ..
  have hE : s.fieldEnd s.bp = s.bp + 1 + (s.memRead s.bp).toNat := rfl
  have go : ∀ {e t}, afxHeadGroup none limit s.clearX = .error e t → afxSeq limit s = .error e t := by
    intro e t hm
    rw [afxSeq, bind_ok (modify_apply _ _), bind_error hm]
  by_cases hw1 : Within limit (s.bp + 1)
  swap
  · cases limit with
    | none => exact absurd (fun _ e => by cases e) hw1
    | some stop =>
      have hs : stop < s.bp + 1 := by
        refine Nat.lt_of_not_le fun k => hw1 fun x e => ?_
        cases e; exact k
      have hk : s.extStopIn (some stop) = s.bp := by rw [State.extStopIn, if_pos hs]
      refine ⟨_, .inl ⟨go (afxHeadGroup_noRoom (s := s.clearX) hs none), ?_, hk ▸ hle stop rfl, fun c => ?_⟩⟩
      · rw [hk, ← h0]; rfl
      · have := c.2 stop rfl
        omega
  by_cases hl0 : s.len ≤ s.bp
  · refine ⟨_, .inr ⟨go (afxHeadGroup_noLength (s := s.clearX) h0 hw1 hl0), ?_, fun _ => ?_, by omega,
      fun x e => by have := hw1 x e; omega⟩⟩
    · rw [State.extCut, if_pos (by omega), cutAt, Nat.max_eq_left hl0, ← h0]; rfl
    · cases limit with
      | none => show s.len < s.extStop s.bp; simp only [State.extStop]; split_ifs <;> omega
      | some stop =>
        have := hw1 stop rfl
        simp only [State.extStopIn, State.extStop]; split_ifs <;> omega
  by_cases hw : Within limit (s.fieldEnd s.bp)
  swap
  · cases limit with
    | none => exact absurd (fun _ e => by cases e) hw
    | some stop =>
      have hs : stop < s.fieldEnd s.bp := by
        refine Nat.lt_of_not_le fun k => hw fun x e => ?_
        cases e; exact k
      have hk : s.extStopIn (some stop) = s.bp + 1 := by
        rw [State.extStopIn, if_neg (by have := hw1 stop rfl; omega), if_pos hs]
      exact ⟨_, .inl ⟨go (afxHeadGroup_tooLong (s := s.clearX) h0 (show s.bp < s.len by omega) (hw1 stop rfl) hs),
        by rw [hk]; rfl, by omega, fun c => hw c.2⟩⟩
  rw [extStopIn_within hw]
  have hW : ∀ k, s.len < k → k ≤ s.fieldEnd s.bp → s.len < s.fieldEnd s.bp ∧ Within limit (s.len + 1) :=
    fun k a b => ⟨by omega, fun x e => by have := hw x e; omega⟩
  by_cases hz : (s.memRead s.bp).toNat = 0
  · have hk : s.extStop s.bp = s.bp + 1 := by rw [State.extStop, if_pos (by omega)]
    exact ⟨_, .inl ⟨go (afxHeadGroup_zero (s := s.clearX) h0 (show s.bp < s.len by omega) hw hz), by rw [hk]; rfl,
      by omega, fun c => by omega⟩⟩
  have stop0 : s.bp + 2 ≤ s.extStop s.bp := by simp only [State.extStop]; split_ifs <;> omega
  by_cases hl1 : s.len = s.bp + 1
  · refine ⟨_, .inr ⟨go (afxHeadGroup_noFlags (s := s.clearX) h0 (show 1 ≤ (s.memRead s.bp).toNat by omega) hw hl1), ?_,
      fun _ => by omega, hW (s.bp + 2) (by omega) (by omega)⟩⟩
    rw [State.extCut, if_pos (by omega), cutAt, show max s.bp s.len = s.bp + 1 by omega]; rfl
  have e0 : afxHeadGroup none limit s.clearX = .ok () (s.extAt (s.bp + 2)
      { GroupX.clear with
        afxl := (decodeAfxHead (s.extHead s.bp)).len, ltwf := (decodeAfxHead (s.extHead s.bp)).ltw,
        pwrf := (decodeAfxHead (s.extHead s.bp)).pwr, smsf := (decodeAfxHead (s.extHead s.bp)).sms }) :=
    afxHeadGroup_ok (s := s.clearX) h0 (show 1 ≤ (s.memRead s.bp).toNat by omega) hw (show s.bp + 2 ≤ s.len by omega)
  rw [afxSeq, bind_ok (modify_apply _ _), bind_ok e0]
  by_cases k1 : s.fieldEnd s.bp < s.pwrAt s.bp ∨ s.len < s.pwrAt s.bp
  · rcases ltwStep_error (s := s.extAt (s.bp + 2)
      { GroupX.clear with
        afxl := (decodeAfxHead (s.extHead s.bp)).len, ltwf := (decodeAfxHead (s.extHead s.bp)).ltw,
        pwrf := (decodeAfxHead (s.extHead s.bp)).pwr, smsf := (decodeAfxHead (s.extHead s.bp)).sms }) rfl
      (show s.bp + 2 ≤ s.len by omega) k1 (show s.bp + 2 ≤ s.fieldEnd s.bp by omega) with ⟨he, c⟩ | ⟨he, c⟩
    · have c : s.fieldEnd s.bp < s.pwrAt s.bp := c
      have hk : s.extStop s.bp = s.bp + 2 := by rw [State.extStop, if_neg (by omega), if_pos c]
      exact ⟨_, .inl ⟨bind_error he, by rw [hk]; rfl, by omega, fun k => by omega⟩⟩
    · have c : s.pwrAt s.bp ≤ s.fieldEnd s.bp ∧ s.len < s.pwrAt s.bp := c
      refine ⟨_, .inr ⟨bind_error he, ?_, fun _ => ?_, hW _ c.2 c.1⟩⟩
      · rw [State.extCut, if_neg (by omega), if_pos c.2]; rfl
      · simp only [State.extStop]; split_ifs <;> omega
  have e1 := ltwStep_ok (s := s.extAt (s.bp + 2)
      { GroupX.clear with
        afxl := (decodeAfxHead (s.extHead s.bp)).len, ltwf := (decodeAfxHead (s.extHead s.bp)).ltw,
        pwrf := (decodeAfxHead (s.extHead s.bp)).pwr, smsf := (decodeAfxHead (s.extHead s.bp)).sms })
    rfl rfl rfl rfl (show s.pwrAt s.bp ≤ s.fieldEnd s.bp by omega) (show s.pwrAt s.bp ≤ s.len by omega)
  have e1 : _ = EStateM.Result.ok () (s.extAt (s.pwrAt s.bp) (s.layoutX1 s.bp)) := e1
  rw [bind_ok e1]
  by_cases k2 : s.fieldEnd s.bp < s.smsAt s.bp ∨ s.len < s.smsAt s.bp
  · rcases pwrStep_error (s := s.extAt (s.pwrAt s.bp) (s.layoutX1 s.bp)) rfl
      (show s.pwrAt s.bp ≤ s.len by omega) k2 (show s.pwrAt s.bp ≤ s.fieldEnd s.bp by omega) with ⟨he, c⟩ | ⟨he, c⟩
    · have c : s.fieldEnd s.bp < s.smsAt s.bp := c
      have hk : s.extStop s.bp = s.pwrAt s.bp := by
        rw [State.extStop, if_neg (by omega), if_neg (by omega), if_pos c]
      exact ⟨_, .inl ⟨bind_error he, by rw [hk]; rfl, by omega, fun k => by omega⟩⟩
    · have c : s.smsAt s.bp ≤ s.fieldEnd s.bp ∧ s.len < s.smsAt s.bp := c
      refine ⟨_, .inr ⟨bind_error he, ?_, fun _ => ?_, hW _ c.2 c.1⟩⟩
      · rw [State.extCut, if_neg (by omega), if_neg (by omega), if_pos c.2]; rfl
      · simp only [State.extStop]; split_ifs <;> omega
  have e2 : _ = EStateM.Result.ok () (s.extAt (s.smsAt s.bp) (s.layoutX2 s.bp)) :=
    pwrStep_ok (s := s.extAt (s.pwrAt s.bp) (s.layoutX1 s.bp)) rfl rfl rfl
      (show s.smsAt s.bp ≤ s.fieldEnd s.bp by omega) (show s.smsAt s.bp ≤ s.len by omega)
  rw [bind_ok e2]
  by_cases k3 : s.fieldEnd s.bp < s.padAt s.bp ∨ s.len < s.padAt s.bp
  · rcases smsStep_error (s := s.extAt (s.smsAt s.bp) (s.layoutX2 s.bp)) rfl
      (show s.smsAt s.bp ≤ s.len by omega) k3 (show s.smsAt s.bp ≤ s.fieldEnd s.bp by omega) with ⟨he, c⟩ | ⟨he, c⟩
    · have c : s.fieldEnd s.bp < s.padAt s.bp := c
      have hk : s.extStop s.bp = s.smsAt s.bp := by
        rw [State.extStop, if_neg (by omega), if_neg (by omega), if_neg (by omega)]
      exact ⟨_, .inl ⟨bind_error he, by rw [hk]; rfl, by omega, fun k => by omega⟩⟩
    · have c : s.padAt s.bp ≤ s.fieldEnd s.bp ∧ s.len < s.padAt s.bp := c
      refine ⟨_, .inr ⟨bind_error he, ?_, fun k => absurd ⟨c.1, hw⟩ k, hW _ c.2 c.1⟩⟩
      rw [State.extCut, if_neg (by omega), if_neg (by omega), if_neg (by omega), if_pos c.2]; rfl
  have e3 : _ = EStateM.Result.ok () (s.extAt (s.padAt s.bp) (s.layoutX s.bp)) :=
    smsStep_ok (s := s.extAt (s.smsAt s.bp) (s.layoutX2 s.bp)) rfl rfl rfl rfl
      (show s.padAt s.bp ≤ s.fieldEnd s.bp by omega) (show s.padAt s.bp ≤ s.len by omega)
  rw [bind_ok e3]
  have hlast : s.len < s.fieldEnd s.bp := Nat.lt_of_not_le fun c => h ⟨by omega, hw, c⟩
  refine ⟨_, .inr ⟨afxPadding_short (s := s.extAt (s.padAt s.bp) (s.layoutX s.bp)) rfl
    (show s.padAt s.bp ≤ s.len by omega) hlast, ?_, fun k => absurd ⟨by omega, hw⟩ k, hW _ hlast (Nat.le_refl _)⟩⟩
  rw [State.extCut, if_neg (by omega), if_neg (by omega), if_neg (by omega), if_neg (by omega)]; rfl

/-! ### The adaptation field, group by group -/

theorem pcrStep_ok {s : State} (h0 : s.bo = 0) (hv : s.a.pcrV = false) (hz : s.a.pcr = 0)
    (hb : s.bp + room s.f.pcr 6 ≤ s.afEnd) (hl : s.bp + room s.f.pcr 6 ≤ s.len) :
    onFlag (·.f.pcr) (pcrGroup none) s = .ok () { s.seek (s.bp + room s.f.pcr 6, 0) with
      a := { s.a with pcrV := s.f.pcr, pcr := orZero s.f.pcr (BitVec.ofNat 48 (s.number s.bp 6)) } } := by
  cases hf : s.f.pcr
  · rw [onFlag_clear _ _ _ hf]
    simp only [room, orZero, Bool.false_eq_true, if_false, seek_of_aligned_add h0]
    congr 1
    exact (State.with_a (by cases h : s.a; simp_all)).symm
  · rw [onFlag_set _ _ _ hf]
    simp only [room, hf, if_true] at hb hl
    rw [pcrGroup_ok h0 hb hl]
    simp [room, orZero]

theorem opcrStep_ok {s : State} (h0 : s.bo = 0) (hv : s.a.opcrV = false) (hz : s.a.opcr = 0)
    (hb : s.bp + room s.f.opcr 6 ≤ s.afEnd) (hl : s.bp + room s.f.opcr 6 ≤ s.len) :
    onFlag (·.f.opcr) (opcrGroup none) s = .ok () { s.seek (s.bp + room s.f.opcr 6, 0) with
      a := { s.a with opcrV := s.f.opcr, opcr := orZero s.f.opcr (BitVec.ofNat 48 (s.number s.bp 6)) } } := by
  cases hf : s.f.opcr
  · rw [onFlag_clear _ _ _ hf]
    simp only [room, orZero, Bool.false_eq_true, if_false, seek_of_aligned_add h0]
    congr 1
    exact (State.with_a (by cases h : s.a; simp_all)).symm
  · rw [onFlag_set _ _ _ hf]
    simp only [room, hf, if_true] at hb hl
    rw [opcrGroup_ok h0 hb hl]
    simp [room, orZero]

theorem splStep_ok {s : State} (h0 : s.bo = 0) (hv : s.a.splV = false) (hz : s.a.splc = 0)
    (hb : s.bp + room s.f.spl 1 ≤ s.afEnd) (hl : s.bp + room s.f.spl 1 ≤ s.len) :
    onFlag (·.f.spl) (splGroup none) s = .ok () { s.seek (s.bp + room s.f.spl 1, 0) with
      a := { s.a with splV := s.f.spl, splc := orZero s.f.spl (s.memRead s.bp) } } := by
  cases hf : s.f.spl
  · rw [onFlag_clear _ _ _ hf]
    simp only [room, orZero, Bool.false_eq_true, if_false, seek_of_aligned_add h0]
    congr 1
    exact (State.with_a (by cases h : s.a; simp_all)).symm
  · rw [onFlag_set _ _ _ hf]
    simp only [room, hf, if_true] at hb hl
    rw [splGroup_ok h0 hb hl]
    simp [room, orZero]

theorem tpdStep_ok {s : State} (h0 : s.bo = 0) (hv : s.a.tpdV = false) (hz : s.a.tpdl = 0) (hz' : s.a.tpdb = [])
    (hb : s.bp + room s.f.tpd (1 + (s.memRead s.bp).toNat) ≤ s.afEnd)
    (hl : s.bp + room s.f.tpd (1 + (s.memRead s.bp).toNat) ≤ s.len) :
    onFlag (·.f.tpd) (tpdGroup none) s = .ok ()
      { s.seek (s.bp + room s.f.tpd (1 + (s.memRead s.bp).toNat), 0) with
        a := { s.a with tpdV := s.f.tpd, tpdl := orZero s.f.tpd (s.memRead s.bp),
                        tpdb := if s.f.tpd then s.bytesAt (s.bp + 1) (s.memRead s.bp).toNat else [] } } := by
  cases hf : s.f.tpd
  · rw [onFlag_clear _ _ _ hf]
    simp only [room, orZero, Bool.false_eq_true, if_false, seek_of_aligned_add h0]
    congr 1
    exact (State.with_a (by cases h : s.a; simp_all)).symm
  · rw [onFlag_set _ _ _ hf]
    simp only [room, hf, if_true] at hb hl
    rw [tpdGroup_ok h0 hb hl]
    simp [room, orZero]

theorem extStep_ok {s : State} (h0 : s.bo = 0) (hv : s.a.afxV = false) (hx : s.x = .clear)
    (hh : s.f.afx = true → s.padAt s.bp ≤ s.fieldEnd s.bp)
    (hb : s.bp + room s.f.afx (1 + (s.memRead s.bp).toNat) ≤ s.afEnd)
    (hl : s.bp + room s.f.afx (1 + (s.memRead s.bp).toNat) ≤ s.len) :
    onFlag (·.f.afx) extensionGroup s = .ok ()
      { s.seek (s.bp + room s.f.afx (1 + (s.memRead s.bp).toNat), 0) with
        a := { s.a with afxV := s.f.afx }
        x := if s.f.afx then s.layoutX s.bp else .clear
        afxEnd := if s.f.afx then s.fieldEnd s.bp else s.afxEnd } := by
  cases hf : s.f.afx
  · rw [onFlag_clear _ _ _ hf]
    simp only [room, Bool.false_eq_true, if_false, seek_of_aligned_add h0]
    rw [← hx, ← hv]
  · rw [onFlag_set _ _ _ hf]
    simp only [room, hf, if_true] at hb hl
    have e : afxWithinField s = _ := afxSeq_ok h0 (hh hf)
      (fun stop h => by cases h; unfold State.fieldEnd; omega) (by unfold State.fieldEnd; omega)
    rw [extensionGroup, bind_ok e]
    simp [room, State.extAt, State.fieldEnd, State.seek, Nat.add_assoc]

theorem stuffing_ok {s : State} (h0 : s.bo = 0) (hv : s.a.stfV = false) (hz : s.a.stfOff = 0) (hz' : s.a.stfLen = 0)
    (hb : s.bp ≤ s.afEnd) (hl : s.afEnd ≤ s.len) :
    stuffing s = .ok () { s.seek (s.afEnd, 0) with
      a := { s.a with stfV := decide (0 < s.afEnd - s.bp), stfOff := if 0 < s.afEnd - s.bp then s.bp else 0,
                      stfLen := BitVec.ofNat 8 (s.afEnd - s.bp) } } := by
  rcases Nat.eq_or_lt_of_le hb with h | h
  · simp only [stuffing, h, Nat.sub_self, if_true, Nat.lt_irrefl, decide_false, if_false]
    rw [← h, State.seek_aligned h0]
    congr 1
    exact (State.with_a (by cases h : s.a; simp_all)).symm
  · have hk : 0 < s.afEnd - s.bp := by omega
    simp only [stuffing, Nat.ne_of_gt hk, if_false, hk, decide_true, if_true]
    rw [skip_ok (by exact h0) (by simp; omega)]
    simp [State.seek, Nat.add_sub_cancel' hb]

/-- Inside an adaptation field that starts at the cursor of `s`: at offset `o`, with `a` read so far. -/
def State.fieldAt (s : State) (o : Nat) (a : GroupA) : State :=
  { s with bp := o, bo := 0, a := a, x := .clear, f := s.layoutF s.bp, afEnd := s.fieldEnd s.bp }

/-- Group A of the adaptation field at offset `o`, its head only. -/
def State.layoutA0 (s : State) (o : Nat) : GroupA :=
  { GroupA.clear with afl := (s.layoutA o).afl, di := (s.layoutA o).di, rai := (s.layoutA o).rai, espi := (s.layoutA o).espi }

/-- The same up to and with the PCR. -/
def State.layoutA1 (s : State) (o : Nat) : GroupA :=
  { s.layoutA0 o with pcrV := (s.layoutA o).pcrV, pcr := (s.layoutA o).pcr }

/-- The same up to and with the OPCR. -/
def State.layoutA2 (s : State) (o : Nat) : GroupA :=
  { s.layoutA1 o with opcrV := (s.layoutA o).opcrV, opcr := (s.layoutA o).opcr }

/-- The same up to and with the splice countdown. -/
def State.layoutA3 (s : State) (o : Nat) : GroupA :=
  { s.layoutA2 o with splV := (s.layoutA o).splV, splc := (s.layoutA o).splc }

/-- The same up to and with the private data. -/
def State.layoutA4 (s : State) (o : Nat) : GroupA :=
  { s.layoutA3 o with tpdV := (s.layoutA o).tpdV, tpdl := (s.layoutA o).tpdl, tpdb := (s.layoutA o).tpdb }

/-- The same up to and with the extension. -/
def State.layoutA5 (s : State) (o : Nat) : GroupA := { s.layoutA4 o with afxV := (s.layoutA o).afxV }

/-- The state that a successful `AF` at the cursor of `s` leaves, `ST` and `ERR` not yet written. -/
def State.afterField (s : State) : State :=
  { s.fieldAt (s.fieldEnd s.bp) (s.layoutA s.bp) with
    p := { s.p with afV := true }
    x := s.layoutAX s.bp
    afxEnd := if (s.layoutF s.bp).afx then s.fieldEnd (s.afxAt s.bp) else s.afxEnd }

theorem afSeq_ok {s : State} (h0 : s.bo = 0) (hh : s.fieldHolds s.bp = true) (hl : s.fieldEnd s.bp ≤ s.len) :
    afSeq s = .ok () s.afterField := by
  have h1 : s.bp + 2 ≤ s.opcrAt s.bp := Nat.le_add_right ..
  have h2 : s.opcrAt s.bp ≤ s.splAt s.bp := Nat.le_add_right ..
  have h3 : s.splAt s.bp ≤ s.tpdAt s.bp := Nat.le_add_right ..
  have h4 : s.tpdAt s.bp ≤ s.afxAt s.bp := Nat.le_add_right ..
  have h5 : s.afxAt s.bp ≤ s.stfAt s.bp := Nat.le_add_right ..
  simp only [State.fieldHolds, State.extHolds, Bool.and_eq_true, decide_eq_true_eq, Bool.or_eq_true,
    Bool.not_eq_true'] at hh
  obtain ⟨h6, hx⟩ := hh
  have hn : 1 ≤ (s.memRead s.bp).toNat := by unfold State.fieldEnd at h6; omega
  have e0 : afHeadGroup none s.clearAf = .ok () (s.fieldAt (s.bp + 2) (s.layoutA0 s.bp)) :=
    afHeadGroup_ok (s := s.clearAf) h0 hn (show s.bp + 2 ≤ s.len by omega)
  have e1 : _ = EStateM.Result.ok () (s.fieldAt (s.opcrAt s.bp) (s.layoutA1 s.bp)) :=
    pcrStep_ok (s := s.fieldAt (s.bp + 2) (s.layoutA0 s.bp)) rfl rfl rfl
      (show s.opcrAt s.bp ≤ s.fieldEnd s.bp by omega) (show s.opcrAt s.bp ≤ s.len by omega)
  have e2 : _ = EStateM.Result.ok () (s.fieldAt (s.splAt s.bp) (s.layoutA2 s.bp)) :=
    opcrStep_ok (s := s.fieldAt (s.opcrAt s.bp) (s.layoutA1 s.bp)) rfl rfl rfl
      (show s.splAt s.bp ≤ s.fieldEnd s.bp by omega) (show s.splAt s.bp ≤ s.len by omega)
  have e3 : _ = EStateM.Result.ok () (s.fieldAt (s.tpdAt s.bp) (s.layoutA3 s.bp)) :=
    splStep_ok (s := s.fieldAt (s.splAt s.bp) (s.layoutA2 s.bp)) rfl rfl rfl
      (show s.tpdAt s.bp ≤ s.fieldEnd s.bp by omega) (show s.tpdAt s.bp ≤ s.len by omega)
  have e4 := tpdStep_ok (s := s.fieldAt (s.tpdAt s.bp) (s.layoutA3 s.bp)) rfl rfl rfl rfl
      (show s.afxAt s.bp ≤ s.fieldEnd s.bp by omega) (show s.afxAt s.bp ≤ s.len by omega)
  rw [State.bytesAt_of_data (s := s) (t := s.fieldAt (s.tpdAt s.bp) (s.layoutA3 s.bp)) rfl] at e4
  have e4 : _ = EStateM.Result.ok () (s.fieldAt (s.afxAt s.bp) (s.layoutA4 s.bp)) := e4
  have e5 := extStep_ok (s := s.fieldAt (s.afxAt s.bp) (s.layoutA4 s.bp)) rfl rfl rfl
      (fun hf => hx.resolve_left (by rw [show (s.layoutF s.bp).afx = true from hf]; decide))
      (show s.stfAt s.bp ≤ s.fieldEnd s.bp by omega) (show s.stfAt s.bp ≤ s.len by omega)
  have e5 : _ = EStateM.Result.ok () { s.fieldAt (s.stfAt s.bp) (s.layoutA5 s.bp) with
      x := s.layoutAX s.bp
      afxEnd := if (s.layoutF s.bp).afx then s.fieldEnd (s.afxAt s.bp) else s.afxEnd } := e5
  have e6 := stuffing_ok (s := { s.fieldAt (s.stfAt s.bp) (s.layoutA5 s.bp) with
      x := s.layoutAX s.bp
      afxEnd := if (s.layoutF s.bp).afx then s.fieldEnd (s.afxAt s.bp) else s.afxEnd }) rfl rfl rfl rfl h6 hl
  rw [afSeq, bind_ok (modify_apply _ _), bind_ok e0, bind_ok e1, bind_ok e2, bind_ok e3, bind_ok e4, bind_ok e5,
    bind_ok e6]
  rfl

/-! ### How the adaptation field fails -/

theorem pcrStep_error {s : State} (h0 : s.bo = 0) (hl : s.bp ≤ s.len)
    (h : s.afEnd < s.bp + room s.f.pcr 6 ∨ s.len < s.bp + room s.f.pcr 6) (hb : s.bp ≤ s.afEnd) :
    (onFlag (·.f.pcr) (pcrGroup none) s = .error .adaptationFieldOverrun s ∧ s.afEnd < s.bp + room s.f.pcr 6) ∨
      (onFlag (·.f.pcr) (pcrGroup none) s = .error .outOfData (s.seek (s.len, 0)) ∧
        s.bp + room s.f.pcr 6 ≤ s.afEnd ∧ s.len < s.bp + room s.f.pcr 6) := by
  cases hf : s.f.pcr
  · simp only [room, hf, Bool.false_eq_true, if_false] at h; omega
  · simp only [room, hf, if_true] at h ⊢
    rw [onFlag_set _ _ _ hf]
    rcases Nat.lt_or_ge s.afEnd (s.bp + 6) with k | k
    · exact .inl ⟨pcrGroup_overrun k _, k⟩
    · exact .inr ⟨pcrGroup_short h0 hl k (by omega) none, k, by omega⟩

theorem opcrStep_error {s : State} (h0 : s.bo = 0) (hl : s.bp ≤ s.len)
    (h : s.afEnd < s.bp + room s.f.opcr 6 ∨ s.len < s.bp + room s.f.opcr 6) (hb : s.bp ≤ s.afEnd) :
    (onFlag (·.f.opcr) (opcrGroup none) s = .error .adaptationFieldOverrun s ∧ s.afEnd < s.bp + room s.f.opcr 6) ∨
      (onFlag (·.f.opcr) (opcrGroup none) s = .error .outOfData (s.seek (s.len, 0)) ∧
        s.bp + room s.f.opcr 6 ≤ s.afEnd ∧ s.len < s.bp + room s.f.opcr 6) := by
  cases hf : s.f.opcr
  · simp only [room, hf, Bool.false_eq_true, if_false] at h; omega
  · simp only [room, hf, if_true] at h ⊢
    rw [onFlag_set _ _ _ hf]
    rcases Nat.lt_or_ge s.afEnd (s.bp + 6) with k | k
    · exact .inl ⟨opcrGroup_overrun k _, k⟩
    · exact .inr ⟨opcrGroup_short h0 hl k (by omega) none, k, by omega⟩

theorem splStep_error {s : State} (h0 : s.bo = 0) (hl : s.bp ≤ s.len)
    (h : s.afEnd < s.bp + room s.f.spl 1 ∨ s.len < s.bp + room s.f.spl 1) (hb : s.bp ≤ s.afEnd) :
    (onFlag (·.f.spl) (splGroup none) s = .error .adaptationFieldOverrun s ∧ s.afEnd < s.bp + room s.f.spl 1) ∨
      (onFlag (·.f.spl) (splGroup none) s = .error .outOfData (s.seek (s.len, 0)) ∧
        s.bp + room s.f.spl 1 ≤ s.afEnd ∧ s.len < s.bp + room s.f.spl 1) := by
  cases hf : s.f.spl
  · simp only [room, hf, Bool.false_eq_true, if_false] at h; omega
  · simp only [room, hf, if_true] at h ⊢
    rw [onFlag_set _ _ _ hf]
    rcases Nat.lt_or_ge s.afEnd (s.bp + 1) with k | k
    · exact .inl ⟨splGroup_overrun k _, k⟩
    · have e : s.len = s.bp := by omega
      exact .inr ⟨by rw [e, State.seek_aligned h0]; exact splGroup_short h0 k (by omega) none, k, by omega⟩

theorem tpdStep_error {s : State} (h0 : s.bo = 0) (hl : s.bp ≤ s.len)
    (h : s.afEnd < s.bp + room s.f.tpd (1 + (s.memRead s.bp).toNat) ∨
      s.len < s.bp + room s.f.tpd (1 + (s.memRead s.bp).toNat)) (hb : s.bp ≤ s.afEnd) :
    (∃ c, onFlag (·.f.tpd) (tpdGroup none) s = .error .adaptationFieldOverrun (s.seek (c, 0)) ∧
        c = (if s.afEnd < s.bp + 1 then s.bp else s.bp + 1) ∧ c ≤ s.len ∧
        s.afEnd < s.bp + room s.f.tpd (1 + (s.memRead s.bp).toNat)) ∨
      (onFlag (·.f.tpd) (tpdGroup none) s = .error .outOfData (s.seek (s.len, 0)) ∧ s.len < s.afEnd ∧
        (s.afEnd < s.bp + room s.f.tpd (1 + (s.memRead s.bp).toNat) →
          s.len < if s.afEnd < s.bp + 1 then s.bp else s.bp + 1) ∧
        s.len < s.bp + room s.f.tpd (1 + (s.memRead s.bp).toNat)) := by
  cases hf : s.f.tpd
  · simp only [room, hf, Bool.false_eq_true, if_false] at h; omega
  · simp only [room, hf, if_true] at h ⊢
    rw [onFlag_set _ _ _ hf]
    rcases Nat.lt_or_ge s.afEnd (s.bp + 1) with k | k
    · exact .inl ⟨s.bp, by rw [State.seek_aligned h0]; exact tpdGroup_overrun k _, (if_pos k).symm, hl, by omega⟩
    rw [if_neg (Nat.not_lt.mpr k)]
    rcases Nat.lt_or_ge s.bp s.len with k1 | k1
    swap
    · have e : s.len = s.bp := by omega
      exact .inr ⟨by rw [e, State.seek_aligned h0]; exact tpdGroup_noLength h0 k k1 none, by omega, fun _ => by omega,
        by omega⟩
    rcases Nat.lt_or_ge s.afEnd (s.bp + (1 + (s.memRead s.bp).toNat)) with k2 | k2
    · exact .inl ⟨_, tpdGroup_overrunBytes h0 k k1 (by omega), rfl, by omega, k2⟩
    · exact .inr ⟨tpdGroup_short h0 k1 k2 (by omega), by omega, fun _ => by omega, by omega⟩

theorem extStep_error {s : State} (h0 : s.bo = 0) (hl : s.bp ≤ s.len)
    (h : ¬((s.f.afx = true → s.padAt s.bp ≤ s.fieldEnd s.bp) ∧ s.bp + room s.f.afx (1 + (s.memRead s.bp).toNat) ≤ s.afEnd ∧
      s.bp + room s.f.afx (1 + (s.memRead s.bp).toNat) ≤ s.len)) (hb : s.bp ≤ s.afEnd) :
    s.f.afx = true ∧
    ∃ t, (onFlag (·.f.afx) extensionGroup s = .error .adaptationFieldOverrun t ∧
        (t.bp, t.bo) = (s.extStopIn (some s.afEnd), 0) ∧ s.extStopIn (some s.afEnd) ≤ s.len ∧
        ¬(s.padAt s.bp ≤ s.fieldEnd s.bp ∧ s.fieldEnd s.bp ≤ s.afEnd)) ∨
      (onFlag (·.f.afx) extensionGroup s = .error .outOfData t ∧ (t.bp, t.bo) = s.extCut s.bp ∧
        (¬(s.padAt s.bp ≤ s.fieldEnd s.bp ∧ s.fieldEnd s.bp ≤ s.afEnd) → s.len < s.extStopIn (some s.afEnd)) ∧
        s.len < s.afEnd) := by
  have hE : s.fieldEnd s.bp = s.bp + 1 + (s.memRead s.bp).toNat := rfl
  cases hf : s.f.afx
  · simp only [room, hf, Bool.false_eq_true, if_false] at h
    exact absurd ⟨fun c => False.elim c, hb, hl⟩ h
  · simp only [room, hf, if_true, forall_const] at h
    refine ⟨rfl, ?_⟩
    rw [onFlag_set _ _ _ hf, extensionGroup]
    have hw : Within (some s.afEnd) (s.fieldEnd s.bp) ↔ s.fieldEnd s.bp ≤ s.afEnd :=
      ⟨fun c => c _ rfl, by rintro c _ ⟨⟩; exact c⟩
    obtain ⟨t, ⟨he, hc⟩ | ⟨he, hc, hs, _, hx⟩⟩ := afxSeq_error (s := s) (limit := some s.afEnd) h0 (fun _ _ => hl)
      (fun c => h ⟨c.1, by have := hw.mp c.2.1; omega, by omega⟩)
    · rw [hw] at hc
      exact ⟨t, .inl ⟨bind_error (show afxWithinField s = _ from he), hc⟩⟩
    · rw [hw] at hs
      exact ⟨t, .inr ⟨bind_error (show afxWithinField s = _ from he), hc, hs, hx _ rfl⟩⟩

theorem stuffing_short {s : State} (h0 : s.bo = 0) (hle : s.bp ≤ s.len) (h : s.len < s.afEnd) :
    ∃ t, stuffing s = .error .outOfData t ∧ (t.bp, t.bo) = (s.len, 0) := by
  have hk : 0 < s.afEnd - s.bp := by omega
  simp only [stuffing, Nat.ne_of_gt hk, if_false]
  exact ⟨_, skip_short (by exact h0) (by exact hle) (by simp; omega), rfl⟩

/-- An adaptation field at the cursor that is not well formed or not in the buffer ends with an error
(42_adaptation_field.md R193): with `AdaptationFieldOverrun` at the first budget check that fails where the buffer reaches
to it, else with `OutOfData` at the first primitive that lacks a byte. -/
theorem afSeq_error {s : State} (h0 : s.bo = 0) (h : ¬(s.fieldHolds s.bp = true ∧ s.fieldEnd s.bp ≤ s.len)) :
    ∃ t, (afSeq s = .error .adaptationFieldOverrun t ∧ (t.bp, t.bo) = (s.fieldStop s.bp, 0) ∧
        s.fieldStop s.bp ≤ s.len ∧ ¬s.fieldHolds s.bp = true) ∨
      (afSeq s = .error .outOfData t ∧ (t.bp, t.bo) = s.fieldCut s.bp ∧
        (¬s.fieldHolds s.bp = true → s.len < s.fieldStop s.bp) ∧ s.len < s.fieldEnd s.bp) := by
  have h1 : s.bp + 2 ≤ s.opcrAt s.bp := Nat.le_add_right ..
  have h2 : s.opcrAt s.bp ≤ s.splAt s.bp := Nat.le_add_right ..
  have h3 : s.splAt s.bp ≤ s.tpdAt s.bp := Nat.le_add_right ..
  have h4 : s.tpdAt s.bp ≤ s.afxAt s.bp := Nat.le_add_right ..
  have h5 : s.afxAt s.bp ≤ s.stfAt s.bp := Nat.le_add_right ..
  have hX : s.afxAt s.bp + 1 ≤ s.extStop (s.afxAt s.bp) := by
    have a1 : s.afxAt s.bp + 2 ≤ s.pwrAt (s.afxAt s.bp) := Nat.le_add_right ..
    have a2 : s.pwrAt (s.afxAt s.bp) ≤ s.smsAt (s.afxAt s.bp) := Nat.le_add_right ..
    simp only [State.extStop]; split_ifs <;> omega
  have hE : s.fieldEnd s.bp = s.bp + 1 + (s.memRead s.bp).toNat := rfl
  have hH : s.fieldHolds s.bp = true ↔ s.stfAt s.bp ≤ s.fieldEnd s.bp ∧
      ((s.layoutF s.bp).afx = true → s.padAt (s.afxAt s.bp) ≤ s.fieldEnd (s.afxAt s.bp)) := by
    simp only [State.fieldHolds, State.extHolds, Bool.and_eq_true, decide_eq_true_eq, Bool.or_eq_true,
      Bool.not_eq_true']
    cases (s.layoutF s.bp).afx <;> simp
  rw [hH] at h ⊢
  have plain : s.len < s.afxAt s.bp → s.fieldCut s.bp = (max s.bp s.len, 0) := fun hl => by
    rw [State.fieldCut, if_neg (by omega)]
  have go : ∀ {e t}, afHeadGroup none s.clearAf = .error e t → afSeq s = .error e t := by
    intro e t hm
    rw [afSeq, bind_ok (modify_apply _ _), bind_error hm]
  by_cases hl0 : s.len ≤ s.bp
  · refine ⟨_, .inr ⟨go (afHeadGroup_noLength (s := s.clearAf) h0 hl0), ?_, fun _ => ?_, by omega⟩⟩
    · rw [plain (by omega), Nat.max_eq_left hl0, ← h0]; rfl
    · simp only [State.fieldStop]; split_ifs <;> omega
  by_cases hz : (s.memRead s.bp).toNat = 0
  · have hk : s.fieldStop s.bp = s.bp + 1 := by rw [State.fieldStop, if_pos (by omega)]
    exact ⟨_, .inl ⟨go (afHeadGroup_zero (s := s.clearAf) h0 (show s.bp < s.len by omega) hz), by rw [hk]; rfl, by omega,
      fun c => by omega⟩⟩
  have stop0 : s.bp + 2 ≤ s.fieldStop s.bp := by simp only [State.fieldStop]; split_ifs <;> omega
  by_cases hl1 : s.len = s.bp + 1
  · refine ⟨_, .inr ⟨go (afHeadGroup_noFlags (s := s.clearAf) h0 (show 1 ≤ (s.memRead s.bp).toNat by omega) hl1), ?_,
      fun _ => by omega, by omega⟩⟩
    rw [plain (by omega), show max s.bp s.len = s.bp + 1 by omega]; rfl
  have hmax : max s.bp s.len = s.len := by omega
  have e0 : afHeadGroup none s.clearAf = .ok () (s.fieldAt (s.bp + 2) (s.layoutA0 s.bp)) :=
    afHeadGroup_ok (s := s.clearAf) h0 (show 1 ≤ (s.memRead s.bp).toNat by omega) (show s.bp + 2 ≤ s.len by omega)
  rw [afSeq, bind_ok (modify_apply _ _), bind_ok e0]
  by_cases k1 : s.fieldEnd s.bp < s.opcrAt s.bp ∨ s.len < s.opcrAt s.bp
  · rcases pcrStep_error (s := s.fieldAt (s.bp + 2) (s.layoutA0 s.bp)) rfl
      (show s.bp + 2 ≤ s.len by omega) k1 (show s.bp + 2 ≤ s.fieldEnd s.bp by omega) with ⟨he, c⟩ | ⟨he, c⟩
    · have c : s.fieldEnd s.bp < s.opcrAt s.bp := c
      have hk : s.fieldStop s.bp = s.bp + 2 := by rw [State.fieldStop, if_neg (by omega), if_pos c]
      exact ⟨_, .inl ⟨bind_error he, by rw [hk]; rfl, by omega, fun k => by omega⟩⟩
    · have c : s.opcrAt s.bp ≤ s.fieldEnd s.bp ∧ s.len < s.opcrAt s.bp := c
      refine ⟨_, .inr ⟨bind_error he, by rw [plain (by omega), hmax]; rfl, fun _ => ?_, by omega⟩⟩
      simp only [State.fieldStop]; split_ifs <;> omega
  have e1 : _ = EStateM.Result.ok () (s.fieldAt (s.opcrAt s.bp) (s.layoutA1 s.bp)) :=
    pcrStep_ok (s := s.fieldAt (s.bp + 2) (s.layoutA0 s.bp)) rfl rfl rfl
      (show s.opcrAt s.bp ≤ s.fieldEnd s.bp by omega) (show s.opcrAt s.bp ≤ s.len by omega)
  rw [bind_ok e1]
  by_cases k2 : s.fieldEnd s.bp < s.splAt s.bp ∨ s.len < s.splAt s.bp
  · rcases opcrStep_error (s := s.fieldAt (s.opcrAt s.bp) (s.layoutA1 s.bp)) rfl
      (show s.opcrAt s.bp ≤ s.len by omega) k2 (show s.opcrAt s.bp ≤ s.fieldEnd s.bp by omega) with ⟨he, c⟩ | ⟨he, c⟩
    · have c : s.fieldEnd s.bp < s.splAt s.bp := c
      have hk : s.fieldStop s.bp = s.opcrAt s.bp := by
        rw [State.fieldStop, if_neg (by omega), if_neg (by omega), if_pos c]
      exact ⟨_, .inl ⟨bind_error he, by rw [hk]; rfl, by omega, fun k => by omega⟩⟩
    · have c : s.splAt s.bp ≤ s.fieldEnd s.bp ∧ s.len < s.splAt s.bp := c
      refine ⟨_, .inr ⟨bind_error he, by rw [plain (by omega), hmax]; rfl, fun _ => ?_, by omega⟩⟩
      simp only [State.fieldStop]; split_ifs <;> omega
  have e2 : _ = EStateM.Result.ok () (s.fieldAt (s.splAt s.bp) (s.layoutA2 s.bp)) :=
    opcrStep_ok (s := s.fieldAt (s.opcrAt s.bp) (s.layoutA1 s.bp)) rfl rfl rfl
      (show s.splAt s.bp ≤ s.fieldEnd s.bp by omega) (show s.splAt s.bp ≤ s.len by omega)
  rw [bind_ok e2]
  by_cases k3 : s.fieldEnd s.bp < s.tpdAt s.bp ∨ s.len < s.tpdAt s.bp
  · rcases splStep_error (s := s.fieldAt (s.splAt s.bp) (s.layoutA2 s.bp)) rfl
      (show s.splAt s.bp ≤ s.len by omega) k3 (show s.splAt s.bp ≤ s.fieldEnd s.bp by omega) with ⟨he, c⟩ | ⟨he, c⟩
    · have c : s.fieldEnd s.bp < s.tpdAt s.bp := c
      have hk : s.fieldStop s.bp = s.splAt s.bp := by
        rw [State.fieldStop, if_neg (by omega), if_neg (by omega), if_neg (by omega), if_pos c]
      exact ⟨_, .inl ⟨bind_error he, by rw [hk]; rfl, by omega, fun k => by omega⟩⟩
    · have c : s.tpdAt s.bp ≤ s.fieldEnd s.bp ∧ s.len < s.tpdAt s.bp := c
      refine ⟨_, .inr ⟨bind_error he, by rw [plain (by omega), hmax]; rfl, fun _ => ?_, by omega⟩⟩
      simp only [State.fieldStop]; split_ifs <;> omega
  have e3 : _ = EStateM.Result.ok () (s.fieldAt (s.tpdAt s.bp) (s.layoutA3 s.bp)) :=
    splStep_ok (s := s.fieldAt (s.splAt s.bp) (s.layoutA2 s.bp)) rfl rfl rfl
      (show s.tpdAt s.bp ≤ s.fieldEnd s.bp by omega) (show s.tpdAt s.bp ≤ s.len by omega)
  rw [bind_ok e3]
  by_cases k4 : s.fieldEnd s.bp < s.afxAt s.bp ∨ s.len < s.afxAt s.bp
  · rcases tpdStep_error (s := s.fieldAt (s.tpdAt s.bp) (s.layoutA3 s.bp)) rfl
      (show s.tpdAt s.bp ≤ s.len by omega) k4 (show s.tpdAt s.bp ≤ s.fieldEnd s.bp by omega) with ⟨x, he, hx, hl, c⟩ | ⟨he, c⟩
    · have c : s.fieldEnd s.bp < s.afxAt s.bp := c
      have hx : x = if s.fieldEnd s.bp < s.tpdAt s.bp + 1 then s.tpdAt s.bp else s.tpdAt s.bp + 1 := hx
      have hk : s.fieldStop s.bp = x := by
        rw [State.fieldStop, if_neg (by omega), if_neg (by omega), if_neg (by omega), if_neg (by omega), if_pos c, hx]
      exact ⟨_, .inl ⟨bind_error he, by rw [hk]; rfl, hk ▸ hl, fun k => by omega⟩⟩
    · have c : s.len < s.fieldEnd s.bp ∧ (s.fieldEnd s.bp < s.afxAt s.bp → s.len <
          if s.fieldEnd s.bp < s.tpdAt s.bp + 1 then s.tpdAt s.bp else s.tpdAt s.bp + 1) ∧ s.len < s.afxAt s.bp := c
      refine ⟨_, .inr ⟨bind_error he, by rw [plain c.2.2, hmax]; rfl, fun _ => ?_, c.1⟩⟩
      rw [State.fieldStop, if_neg (by omega), if_neg (by omega), if_neg (by omega), if_neg (by omega)]
      by_cases k : s.fieldEnd s.bp < s.afxAt s.bp
      · rw [if_pos k]; exact c.2.1 k
      · rw [if_neg k]; split_ifs <;> omega
  have e4 := tpdStep_ok (s := s.fieldAt (s.tpdAt s.bp) (s.layoutA3 s.bp)) rfl rfl rfl rfl
      (show s.afxAt s.bp ≤ s.fieldEnd s.bp by omega) (show s.afxAt s.bp ≤ s.len by omega)
  rw [State.bytesAt_of_data (s := s) (t := s.fieldAt (s.tpdAt s.bp) (s.layoutA3 s.bp)) rfl] at e4
  have e4 : _ = EStateM.Result.ok () (s.fieldAt (s.afxAt s.bp) (s.layoutA4 s.bp)) := e4
  rw [bind_ok e4]
  by_cases k5 : ((s.layoutF s.bp).afx = true → s.padAt (s.afxAt s.bp) ≤ s.fieldEnd (s.afxAt s.bp)) ∧
      s.stfAt s.bp ≤ s.fieldEnd s.bp ∧ s.stfAt s.bp ≤ s.len
  swap
  · obtain ⟨hf, t, c⟩ := extStep_error (s := s.fieldAt (s.afxAt s.bp) (s.layoutA4 s.bp)) rfl
      (show s.afxAt s.bp ≤ s.len by omega) k5 (show s.afxAt s.bp ≤ s.fieldEnd s.bp by omega)
    have hf : (s.layoutF s.bp).afx = true := hf
    have hS : s.stfAt s.bp = s.fieldEnd (s.afxAt s.bp) := by
      simp only [State.stfAt, hf, room, if_true, State.fieldEnd]; omega
    have hk : s.fieldStop s.bp = (s.fieldAt (s.afxAt s.bp) (s.layoutA4 s.bp)).extStopIn (some (s.fieldEnd s.bp)) := by
      rw [State.fieldStop, if_neg (by omega), if_neg (by omega), if_neg (by omega), if_neg (by omega), if_neg (by omega)]
      show _ = if s.fieldEnd s.bp < s.afxAt s.bp + 1 then s.afxAt s.bp
        else if s.fieldEnd s.bp < s.fieldEnd (s.afxAt s.bp) then s.afxAt s.bp + 1 else s.extStop (s.afxAt s.bp)
      have : s.fieldEnd (s.afxAt s.bp) = s.afxAt s.bp + 1 + (s.memRead (s.afxAt s.bp)).toNat := rfl
      rw [hS]
      split_ifs <;> first | rfl | omega
    have hc : s.fieldCut s.bp = s.extCut (s.afxAt s.bp) := by rw [State.fieldCut, if_pos ⟨hf, by omega⟩]
    rw [hk, hc]
    rcases c with ⟨he, h1, h2, h3⟩ | ⟨he, h1, h2, h3⟩
    · exact ⟨t, .inl ⟨bind_error he, h1, h2, fun k => h3 ⟨k.2 hf, hS ▸ k.1⟩⟩⟩
    · exact ⟨t, .inr ⟨bind_error he, h1, fun k => h2 fun j => k ⟨hS ▸ j.2, fun _ => j.1⟩, h3⟩⟩
  obtain ⟨hx, k6, k7⟩ := k5
  have e5 := extStep_ok (s := s.fieldAt (s.afxAt s.bp) (s.layoutA4 s.bp)) rfl rfl rfl hx k6 k7
  have hlast : s.len < s.fieldEnd s.bp := Nat.lt_of_not_le fun c => h ⟨⟨k6, hx⟩, c⟩
  rw [bind_ok e5]
  obtain ⟨t, e6, hc⟩ := stuffing_short (s := { s.fieldAt (s.stfAt s.bp) (s.layoutA5 s.bp) with
      x := s.layoutAX s.bp
      afxEnd := if (s.layoutF s.bp).afx then s.fieldEnd (s.afxAt s.bp) else s.afxEnd }) rfl k7 hlast
  refine ⟨t, .inr ⟨bind_error e6, hc.trans ?_, fun k => absurd ⟨k6, hx⟩ k, hlast⟩⟩
  show (s.len, 0) = s.fieldCut s.bp
  rw [State.fieldCut]
  split
  · rename_i hf
    have hS : s.stfAt s.bp = s.fieldEnd (s.afxAt s.bp) := by
      simp only [State.stfAt, hf.1, room, if_true, State.fieldEnd]; omega
    have a0 := hx hf.1
    have a1 : s.afxAt s.bp + 2 ≤ s.pwrAt (s.afxAt s.bp) := Nat.le_add_right ..
    have a2 : s.pwrAt (s.afxAt s.bp) ≤ s.smsAt (s.afxAt s.bp) := Nat.le_add_right ..
    have a3 : s.smsAt (s.afxAt s.bp) ≤ s.padAt (s.afxAt s.bp) := Nat.le_add_right ..
    rw [State.extCut, if_neg (by omega), if_neg (by omega), if_neg (by omega), if_neg (by omega)]
  · rw [hmax]

end Sys2Proof.Machine
end

