-- ==== Sys2Proof/Laws/Frames.lean ====
section
/-! SUPPORT. The frame of every operation: the buffer, its length, `RVAL` and the host's program stay, the cursor does not
move back, and it stays inside the buffer. -/

namespace Sys2Proof.Machine

/-! ### The regions -/

theorem framed_readHdr : Framed readHdr :=
  Framed.bind framed_pbyte fun _ => Framed.bind framed_pbit fun _ => Framed.bind framed_pbit fun _ =>
    Framed.bind framed_pbit fun _ => Framed.bind (framed_pwide 13) fun _ => Framed.bind (framed_pbits 2) fun _ =>
      Framed.bind framed_pbit fun _ => Framed.bind framed_pbit fun _ => Framed.bind (framed_pbits 4) fun _ =>
        Framed.pure _

theorem framed_fields {g : State → State} (h : ∀ s, (g s).data = s.data ∧ (g s).len = s.len ∧ (g s).rval = s.rval ∧
    (g s).script = s.script ∧ (g s).bp = s.bp ∧ (g s).bo = s.bo) : Framed (modify g : Op Unit) :=
  Framed.modify fun s => Frame.ofFields (h s).1 (h s).2.1 (h s).2.2.1 (h s).2.2.2.1 (h s).2.2.2.2.1 (h s).2.2.2.2.2

theorem framed_hdrGroup (o : Option (Tsh × Bool × Bool)) : Framed (hdrGroup o) :=
  Framed.bind (Framed.given framed_readHdr) fun _ => framed_fields fun _ => ⟨rfl, rfl, rfl, rfl, rfl, rfl⟩

theorem framed_endAfter (n : Byte) : Framed (endAfter n) := fun s => Frame.refl s

theorem framed_readAfFlags (len : Byte) (stop : Nat) : Framed (readAfFlags len stop) :=
  Framed.bind (framed_need 1 stop) fun _ => Framed.bind framed_pbit fun _ => Framed.bind framed_pbit fun _ =>
    Framed.bind framed_pbit fun _ => Framed.bind framed_pbit fun _ => Framed.bind framed_pbit fun _ =>
      Framed.bind framed_pbit fun _ => Framed.bind framed_pbit fun _ => Framed.bind framed_pbit fun _ => Framed.pure _

theorem framed_afHeadGroup (o : Option AfHead) : Framed (afHeadGroup o) :=
  Framed.bind (Framed.given framed_pbyte) fun _ => Framed.bind (framed_endAfter _) fun _ =>
    Framed.bind (Framed.given (framed_readAfFlags _ _)) fun _ => framed_fields fun _ => ⟨rfl, rfl, rfl, rfl, rfl, rfl⟩

theorem framed_needAf (k : Nat) : Framed (needAf k) := fun s => framed_need k s.afEnd s

theorem framed_needAfx (k : Nat) : Framed (needAfx k) := fun s => framed_need k s.afxEnd s

theorem framed_pcrGroup (o : Option (BitVec 48)) : Framed (pcrGroup o) :=
  Framed.bind (framed_needAf 6) fun _ => Framed.bind (Framed.given framed_pull48) fun _ =>
    framed_fields fun _ => ⟨rfl, rfl, rfl, rfl, rfl, rfl⟩

theorem framed_opcrGroup (o : Option (BitVec 48)) : Framed (opcrGroup o) :=
  Framed.bind (framed_needAf 6) fun _ => Framed.bind (Framed.given framed_pull48) fun _ =>
    framed_fields fun _ => ⟨rfl, rfl, rfl, rfl, rfl, rfl⟩

theorem framed_splGroup (o : Option Byte) : Framed (splGroup o) :=
  Framed.bind (framed_needAf 1) fun _ => Framed.bind (Framed.given framed_pbyte) fun _ =>
    framed_fields fun _ => ⟨rfl, rfl, rfl, rfl, rfl, rfl⟩

theorem framed_tpdGroup (o : Option (Byte × List Byte)) : Framed (tpdGroup o) :=
  Framed.bind (framed_needAf 1) fun _ => Framed.bind (Framed.given framed_pbyte) fun _ =>
    Framed.bind (framed_needAf _) fun _ => Framed.bind (Framed.given (framed_pullBytes _)) fun _ =>
      framed_fields fun _ => ⟨rfl, rfl, rfl, rfl, rfl, rfl⟩

theorem framed_extensionEnd (len : Byte) (limit : Option Nat) : Framed (extensionEnd len limit) := by
  intro s
  cases limit with
  | none => exact Frame.refl s
  | some stop =>
    show Frame s (endOf (if stop < s.bp + len.toNat then _ else _))
    split <;> exact Frame.refl s

theorem framed_readAfxFlags (len : Byte) (stop : Nat) : Framed (readAfxFlags len stop) :=
  Framed.bind (framed_need 1 stop) fun _ => Framed.bind framed_pbit fun _ => Framed.bind framed_pbit fun _ =>
    Framed.bind framed_pbit fun _ => Framed.bind (framed_pbits 5) fun _ => Framed.pure _

theorem framed_afxHeadGroup (o : Option AfxHead) (limit : Option Nat) : Framed (afxHeadGroup o limit) :=
  Framed.bind (framed_needWithin 1 limit) fun _ => Framed.bind (Framed.given framed_pbyte) fun _ =>
    Framed.bind (framed_extensionEnd _ _) fun _ => Framed.bind (Framed.given (framed_readAfxFlags _ _)) fun _ =>
      framed_fields fun _ => ⟨rfl, rfl, rfl, rfl, rfl, rfl⟩

theorem framed_ltwGroup (o : Option (Bool × BitVec 15)) : Framed (ltwGroup o) :=
  Framed.bind (framed_needAfx 2) fun _ =>
    Framed.bind (Framed.given (Framed.bind framed_pbit fun _ => Framed.bind (framed_pwide 15) fun _ => Framed.pure _))
      fun _ => framed_fields fun _ => ⟨rfl, rfl, rfl, rfl, rfl, rfl⟩

theorem framed_pwrGroup (o : Option (BitVec 22)) : Framed (pwrGroup o) :=
  Framed.bind (framed_needAfx 3) fun _ =>
    Framed.bind (Framed.given (Framed.bind (framed_pbits 2) fun _ => Framed.bind (framed_pwide 14) fun _ =>
      Framed.bind framed_pbyte fun _ => Framed.pure _))
      fun _ => framed_fields fun _ => ⟨rfl, rfl, rfl, rfl, rfl, rfl⟩

theorem framed_smsGroup (o : Option (BitVec 4 × BitVec 33)) : Framed (smsGroup o) :=
  Framed.bind (framed_needAfx 5) fun _ =>
    Framed.bind (Framed.given (Framed.bind (framed_pbits 4) fun _ => Framed.bind (framed_pbits 3) fun _ =>
      Framed.bind framed_pbit fun _ => Framed.bind (framed_pwide 15) fun _ => Framed.bind framed_pbit fun _ =>
        Framed.bind (framed_pwide 15) fun _ => Framed.bind framed_pbit fun _ => Framed.pure _))
      fun _ => framed_fields fun _ => ⟨rfl, rfl, rfl, rfl, rfl, rfl⟩

theorem framed_afxPadding : Framed afxPadding := fun s => framed_skip (s.afxEnd - s.bp) s

theorem framed_stuffing : Framed stuffing := by
  intro s
  by_cases h : s.afEnd - s.bp = 0
  · simp only [stuffing, h, if_true]; exact Frame.refl s
  · simp only [stuffing, h, if_false]
    exact Frame.trans (Frame.ofFields (s' := { s with a := { s.a with
      stfV := true, stfOff := s.bp, stfLen := BitVec.ofNat 8 (s.afEnd - s.bp) } }) rfl rfl rfl rfl rfl rfl) (framed_skip _ _)

theorem framed_payload : Framed payload := framed_fields fun _ => ⟨rfl, rfl, rfl, rfl, rfl, rfl⟩

theorem framed_finishOp : Framed finishOp := framed_fields fun _ => ⟨rfl, rfl, rfl, rfl, rfl, rfl⟩

/-! ### The composite operations -/

theorem framed_afxSeq (limit : Option Nat) : Framed (afxSeq limit) :=
  Framed.bind (framed_fields fun _ => ⟨rfl, rfl, rfl, rfl, rfl, rfl⟩) fun _ =>
    Framed.bind (framed_afxHeadGroup _ _) fun _ => Framed.bind (framed_ltwGroup _).onFlag fun _ =>
      Framed.bind (framed_pwrGroup _).onFlag fun _ => Framed.bind (framed_smsGroup _).onFlag fun _ => framed_afxPadding

theorem framed_extensionGroup : Framed extensionGroup :=
  Framed.bind (fun s => framed_afxSeq (some s.afEnd) s) fun _ => framed_fields fun _ => ⟨rfl, rfl, rfl, rfl, rfl, rfl⟩

theorem framed_afSeq : Framed afSeq :=
  Framed.bind (framed_fields fun _ => ⟨rfl, rfl, rfl, rfl, rfl, rfl⟩) fun _ =>
    Framed.bind (framed_afHeadGroup _) fun _ => Framed.bind (framed_pcrGroup _).onFlag fun _ =>
      Framed.bind (framed_opcrGroup _).onFlag fun _ => Framed.bind (framed_splGroup _).onFlag fun _ =>
        Framed.bind (framed_tpdGroup _).onFlag fun _ => Framed.bind framed_extensionGroup.onFlag fun _ =>
          Framed.bind framed_stuffing fun _ => framed_fields fun _ => ⟨rfl, rfl, rfl, rfl, rfl, rfl⟩

theorem framed_hdrOp : Framed hdrOp :=
  Framed.bind (framed_fields fun _ => ⟨rfl, rfl, rfl, rfl, rfl, rfl⟩) fun _ =>
    Framed.bind (framed_hdrGroup none) fun _ => framed_finishOp

theorem framed_afxOp : Framed afxOp :=
  Framed.bind (framed_afxSeq none) fun _ =>
    Framed.bind (framed_fields fun _ => ⟨rfl, rfl, rfl, rfl, rfl, rfl⟩) fun _ => framed_finishOp

theorem framed_afOp : Framed afOp := Framed.bind framed_afSeq fun _ => framed_finishOp

/-- What `DECODE` does once everything is cleared and the cursor is rewound. -/
theorem framed_decodeTail : Framed (do hdrGroup none; onFlag (·.p.afp) afSeq; onFlag (·.p.plp) payload; finishOp) :=
  Framed.bind (framed_hdrGroup none) fun _ => Framed.bind framed_afSeq.onFlag fun _ =>
    Framed.bind framed_payload.onFlag fun _ => framed_finishOp

/-! ### The sequencer -/

theorem framed_parkAt (op : Composite) (r : Region) : Framed (modify (State.parkAt op r) : Op Unit) :=
  framed_fields fun s => by cases r <;> exact ⟨rfl, rfl, rfl, rfl, rfl, rfl⟩

theorem framed_endPacket (op : Composite) : Framed (endPacket op) :=
  Framed.bind framed_payload.onFlag fun _ => framed_finishOp

theorem framed_endAf (op : Composite) : Framed (endAf op) :=
  Framed.bind framed_stuffing fun _ => Framed.bind (framed_fields fun _ => ⟨rfl, rfl, rfl, rfl, rfl, rfl⟩) fun _ =>
    framed_endPacket op

theorem framed_endAfx (op : Composite) : Framed (endAfx op) :=
  Framed.bind framed_afxPadding fun _ => Framed.bind (framed_fields fun _ => ⟨rfl, rfl, rfl, rfl, rfl, rfl⟩) fun _ => by
    split
    · exact framed_finishOp
    · exact framed_endAf op

theorem framed_endStructure (op : Composite) (r : Region) : Framed (endStructure op r) := by
  cases r
  · exact framed_endPacket op
  all_goals first | exact framed_endAf op | exact framed_endAfx op

theorem framed_advance (op : Composite) (r : Region) : Framed (advance op r) := by
  intro s
  show Frame s (endOf (parkOr op (nextRegion op r s) (endStructure op r) s))
  cases nextRegion op r s with
  | some r' => exact framed_parkAt op r' s
  | none => exact framed_endStructure op r s

/-! ### What the host sees of them -/

/-- Taking a composite operation's error (60_exceptions.md R241) in a state framed by `s`. -/
theorem takeError_composite {s t : State} (h : Frame s t) (e : DecodeError) :
    t.takeError .composite e = s.failedAt e (t.bp, t.bo) := by
  simp only [State.takeError, State.leaveSequencer, State.failedAt, h.data, h.len, h.rval, h.script]

/-- A composite operation that is framed gives a next state, which is its last state or its error taken. -/
theorem settleComposite_cases {m : Op Unit} (hm : Framed m) (s : State) :
    (∃ t, m s = .ok () t ∧ settleComposite m s = .next t ∧ Frame s t) ∨
    (∃ e t, m s = .error e t ∧ settleComposite m s = .next (s.failedAt e (t.bp, t.bo)) ∧ Frame s t) := by
  cases hs : m s with
  | ok v t => exact .inl ⟨t, rfl, by rw [settleComposite, hs], hm.ok hs⟩
  | error e t =>
    exact .inr ⟨e, t, rfl, by rw [settleComposite, hs]; exact congrArg _ (takeError_composite (hm.error hs) e), hm.error hs⟩

theorem settleComposite_ok {m : Op Unit} {s t : State} (h : m s = .ok () t) : settleComposite m s = .next t := by
  rw [settleComposite, h]

theorem settleComposite_error {m : Op Unit} {s t : State} {e : DecodeError} (hm : Framed m) (h : m s = .error e t) :
    settleComposite m s = .next (s.failedAt e (t.bp, t.bo)) := by
  rw [settleComposite, h]
  exact congrArg _ (takeError_composite (hm.error h) e)

end Sys2Proof.Machine
end

