-- ==== Sys2Proof/Laws/Packet.lean ====
section
/-! SUPPORT. `DECODE` in closed form: what it has read after the header and after the adaptation field, how it ends, and
the four composite operations with their errors taken. -/

namespace Sys2Proof.Machine

/-- `DECODE` after its header (41_packet_decoder.md R162). -/
def State.afterHeader (s : State) : State := { s.clearAll with bp := 4, bo := 0, p := s.layoutP 0 }

/-- `DECODE` after its adaptation field. -/
def State.afterHeaderAndField (s : State) : State :=
  { s.afterHeader with
    bp := s.fieldEnd 4, p := { s.layoutP 0 with afV := true }, a := s.layoutA 4, x := s.layoutAX 4, f := s.layoutF 4,
    afEnd := s.fieldEnd 4, afxEnd := if (s.layoutF 4).afx then s.fieldEnd (s.afxAt 4) else s.afxEnd }

/-- The payload selected iff `PLP`, then the end (R163, R164). -/
theorem payload_finish (t : State) :
    (do onFlag (·.p.plp) payload; finishOp : Op Unit) t = .ok () (t.packetEnded .decode) := by
  cases hp : t.p.plp
  · rw [bind_ok (onFlag_clear (fun s => s.p.plp) _ _ hp)]
    show EStateM.Result.ok _ _ = _
    simp [State.finish, State.leaveSequencer, State.packetEnded, hp]
  · rw [bind_ok ((onFlag_set (fun s => s.p.plp) _ _ hp).trans (show payload t = .ok () _ from rfl))]
    show EStateM.Result.ok _ _ = _
    simp [State.finish, State.leaveSequencer, State.packetEnded, hp]

theorem decodeOp_header {s : State} (h : 4 ≤ s.len) :
    decodeOp s = (do onFlag (·.p.afp) afSeq; onFlag (·.p.plp) payload; finishOp : Op Unit) s.afterHeader := by
  have e : hdrGroup none (s.clearAll.seek (0, 0)) = .ok () s.afterHeader :=
    hdrGroup_ok (s := s.clearAll.seek (0, 0)) rfl (show 0 + 4 ≤ s.len by omega)
  rw [decodeOp, bind_ok (modify_apply _ _), bind_ok (rewind_apply _), bind_ok e]

theorem decodeOp_short {s : State} (h : s.len < 4) :
    decodeOp s = .error .outOfData (s.clearAll.seek (cutAt .tsh 0 s.len)) :=
  (bind_ok (modify_apply _ _)).trans ((bind_ok (rewind_apply _)).trans
    (bind_error (hdrGroup_short (s := s.clearAll.seek (0, 0)) rfl (show s.len < 0 + 4 by omega) none)))

theorem decodeOp_plain {s : State} (h : 4 ≤ s.len) (ha : (s.layoutP 0).afp = false) :
    decodeOp s = .ok () (s.afterHeader.packetEnded .decode) := by
  rw [decodeOp_header h, bind_ok (onFlag_clear (fun s => s.p.afp) _ _ (show s.afterHeader.p.afp = false from ha))]
  exact payload_finish _

theorem decodeOp_field {s : State} (h : 4 ≤ s.len) (ha : (s.layoutP 0).afp = true) (hf : s.fieldFits 4 = true) :
    decodeOp s = .ok () (s.afterHeaderAndField.packetEnded .decode) := by
  simp only [State.fieldFits, Bool.and_eq_true, decide_eq_true_eq] at hf
  have hd : s.afterHeader.data = s.data := rfl
  have e := afSeq_ok (s := s.afterHeader) rfl (by rw [State.fieldHolds_of_data hd]; exact hf.1)
    (by rw [State.fieldEnd_of_data hd]; exact hf.2)
  have e2 : s.afterHeader.afterField = s.afterHeaderAndField := by
    simp only [State.afterField, State.fieldAt, show s.afterHeader.bp = 4 from rfl, State.fieldEnd_of_data hd,
      State.layoutA_of_data hd, State.layoutAX_of_data hd, State.layoutF_of_data hd, State.afxAt_of_data hd]
    rfl
  rw [decodeOp_header h, bind_ok ((onFlag_set (fun s => s.p.afp) _ _ (show s.afterHeader.p.afp = true from ha)).trans e), e2]
  exact payload_finish _

theorem decodeOp_badField {s : State} (h : 4 ≤ s.len) (ha : (s.layoutP 0).afp = true) (hf : s.fieldFits 4 = false) :
    ∃ t, (decodeOp s = .error .adaptationFieldOverrun t ∧ (t.bp, t.bo) = (s.fieldStop 4, 0) ∧ s.fieldStop 4 ≤ s.len ∧
        s.fieldHolds 4 = false) ∨
      (decodeOp s = .error .outOfData t ∧ (t.bp, t.bo) = s.fieldCut 4 ∧
        (s.fieldHolds 4 = false → s.len < s.fieldStop 4) ∧ s.len < s.fieldEnd 4) := by
  have hf : ¬(s.fieldHolds 4 = true ∧ s.fieldEnd 4 ≤ s.len) := by
    simpa only [State.fieldFits, ← Bool.not_eq_true, Bool.and_eq_true, decide_eq_true_eq] using hf
  have hd : s.afterHeader.data = s.data := rfl
  obtain ⟨t, hc⟩ := afSeq_error (s := s.afterHeader) rfl
    (by rw [State.fieldHolds_of_data hd, State.fieldEnd_of_data hd]; exact hf)
  rw [State.fieldHolds_of_data hd, State.fieldEnd_of_data hd, State.fieldStop_of_data hd,
    State.fieldCut_of_data hd rfl, Bool.not_eq_true] at hc
  have go : ∀ {e t}, afSeq s.afterHeader = .error e t → decodeOp s = .error e t := fun he => by
    rw [decodeOp_header h,
      bind_error ((onFlag_set (fun s => s.p.afp) _ _ (show s.afterHeader.p.afp = true from ha)).trans he)]
  exact ⟨t, hc.imp (And.imp_left go) (And.imp_left go)⟩

/-- Which error `DECODE` takes, and in which state (60_exceptions.md R241). -/
theorem execDecode_error {s t : State} {e : DecodeError} (n : BitVec 5) (h : decodeOp s = .error e t) :
    execDecode n s = .next (s.failedAt e (t.bp, t.bo)) ∧ Frame (s.clearAll.seek (0, 0)) t := by
  have h' : (do hdrGroup none; onFlag (·.p.afp) afSeq; onFlag (·.p.plp) payload; finishOp : Op Unit)
      (s.clearAll.seek (0, 0)) = .error e t := by
    rw [← h, decodeOp, bind_ok (modify_apply _ _), bind_ok (rewind_apply _)]
  refine ⟨?_, framed_decodeTail.error h'⟩
  rw [execDecode, settleComposite, h]
  exact congrArg _ (takeError_composite (s := s.clearAll.seek (0, 0)) (framed_decodeTail.error h') e)

/-- `DECODE` in its two outcomes. -/
theorem execDecode_cases (n : BitVec 5) (s : State) :
    (4 ≤ s.len ∧ (s.layoutP 0).afp = false ∧ execDecode n s = .next (s.afterHeader.packetEnded .decode)) ∨
    (4 ≤ s.len ∧ (s.layoutP 0).afp = true ∧ s.fieldFits 4 = true ∧
      execDecode n s = .next (s.afterHeaderAndField.packetEnded .decode)) ∨
    (∃ e c, execDecode n s = .next (s.failedAt e c) ∧ (e = .outOfData ∨ e = .adaptationFieldOverrun) ∧
      Frame (s.clearAll.seek (0, 0)) (s.clearAll.seek c)) := by
  have go : ∀ {e t}, decodeOp s = .error e t → (e = .outOfData ∨ e = .adaptationFieldOverrun) →
      ∃ e c, execDecode n s = .next (s.failedAt e c) ∧ (e = .outOfData ∨ e = .adaptationFieldOverrun) ∧
        Frame (s.clearAll.seek (0, 0)) (s.clearAll.seek c) := by
    intro e t h he
    obtain ⟨h1, h2⟩ := execDecode_error n h
    have hl : t.len = s.len := h2.len
    refine ⟨e, _, h1, he, rfl, rfl, rfl, rfl, h2.forward, fun c => hl ▸ h2.inside c, fun c => ?_⟩
    obtain ⟨k1, k2⟩ := h2.cursor c
    exact ⟨hl ▸ k1, hl ▸ k2⟩
  by_cases hl : 4 ≤ s.len
  · rcases Bool.eq_false_or_eq_true (s.layoutP 0).afp with ha | ha
    · rcases Bool.eq_false_or_eq_true (s.fieldFits 4) with hf | hf
      · exact .inr (.inl ⟨hl, ha, hf, settleComposite_ok (decodeOp_field hl ha hf)⟩)
      · obtain ⟨t, ⟨he, _⟩ | ⟨he, _⟩⟩ := decodeOp_badField hl ha hf
        · exact .inr (.inr (go he (.inr rfl)))
        · exact .inr (.inr (go he (.inl rfl)))
    · exact .inl ⟨hl, ha, settleComposite_ok (decodeOp_plain hl ha)⟩
  · exact .inr (.inr (go (decodeOp_short (by omega)) (.inl rfl)))

end Sys2Proof.Machine
end

