-- ==== Sys2Proof/Laws/Regions.lean ====
section
/-! SUPPORT. The sequencer: how a structure ends, and how a region whose reads succeeded or failed is left. -/

namespace Sys2Proof.Machine

theorem endPacket_ok (op : Composite) (t : State) : endPacket op t = .ok () (t.packetEnded op) := by
  rw [endPacket]
  by_cases h : op = .decode ∧ t.p.plp = true
  · obtain ⟨rfl, hp⟩ := h
    rw [bind_ok ((onFlag_set _ _ _ (by simp [hp])).trans (show payload t = .ok () _ from rfl))]
    show EStateM.Result.ok _ _ = _
    simp [State.finish, State.leaveSequencer, State.packetEnded, hp]
  · rw [bind_ok (onFlag_clear _ _ _ (by simp only [Bool.and_eq_false_iff, decide_eq_false_iff_not]; by_cases c : op = .decode
                                        · exact .inr (Bool.eq_false_iff.mpr fun k => h ⟨c, k⟩)
                                        · exact .inl c))]
    show EStateM.Result.ok _ _ = _
    simp only [State.finish, State.leaveSequencer, State.packetEnded, if_neg h]

theorem endAf_ok (op : Composite) {t : State} (h0 : t.bo = 0) (hl : t.afEnd ≤ t.len) :
    endAf op t = .ok () (t.fieldClosed.packetEnded op) := by
  rcases Nat.lt_or_ge t.bp t.afEnd with h | h
  · have hk : ¬t.afEnd - t.bp = 0 := by omega
    have e : stuffing t = .ok () { t with bp := t.afEnd, a := { t.a with
        stfV := true, stfOff := t.bp, stfLen := BitVec.ofNat 8 (t.afEnd - t.bp) } } := by
      simp only [stuffing, hk, if_false]
      rw [skip_ok (by exact h0) (by simp; omega)]
      simp [State.seek, Nat.add_sub_cancel' (Nat.le_of_lt h), h0]
    rw [endAf, bind_ok e, bind_ok (modify_apply _ _), endPacket_ok]
    simp only [State.fieldClosed, if_pos h, Nat.max_eq_right (Nat.le_of_lt h)]
  · have hk : t.afEnd - t.bp = 0 := by omega
    have e : stuffing t = .ok () t := by simp only [stuffing, hk, if_true]
    rw [endAf, bind_ok e, bind_ok (modify_apply _ _), endPacket_ok]
    simp only [State.fieldClosed, if_neg (Nat.not_lt.mpr h), Nat.max_eq_left h]

theorem endAf_short (op : Composite) {t : State} (h0 : t.bo = 0) (hle : t.bp ≤ t.len) (hl : t.len < t.afEnd) :
    ∃ u, endAf op t = .error .outOfData u ∧ (u.bp, u.bo) = (t.len, 0) := by
  obtain ⟨u, h, hc⟩ := stuffing_short h0 hle hl
  exact ⟨u, bind_error h, hc⟩

theorem afxPadding_closed {t : State} (h0 : t.bo = 0) (hl : t.afxEnd ≤ t.len) :
    afxPadding t = .ok () { t with bp := max t.bp t.afxEnd } := by
  show skip _ t = _
  rcases Nat.le_total t.bp t.afxEnd with h | h
  · rw [skip_ok h0 (by omega), Nat.add_sub_cancel' h, Nat.max_eq_right h]
    simp [State.seek, h0]
  · rw [Nat.sub_eq_zero_of_le h, Nat.max_eq_left h]; rfl

theorem endAfx_ok (op : Composite) {t : State} (h0 : t.bo = 0) (hl : t.afxEnd ≤ t.len)
    (ha : op ≠ .afx → t.afEnd ≤ t.len) :
    endAfx op t = .ok () (if op = .afx then t.extClosed.packetEnded op else t.extClosed.fieldClosed.packetEnded op) := by
  rw [endAfx, bind_ok (afxPadding_closed h0 hl), bind_ok (modify_apply _ _)]
  by_cases c : op = .afx
  · subst c
    rfl
  · rw [if_neg c, if_neg c]
    exact endAf_ok op (t := t.extClosed) h0 (ha c)

theorem endAfx_short (op : Composite) {t : State} (h0 : t.bo = 0) (hle : t.bp ≤ t.len)
    (h : t.len < (if op = .afx then t.afxEnd else max t.afxEnd t.afEnd)) :
    ∃ u, endAfx op t = .error .outOfData u ∧ (u.bp, u.bo) = (t.len, 0) := by
  rcases Nat.lt_or_ge t.len t.afxEnd with k | k
  · exact ⟨_, bind_error (afxPadding_short h0 hle k), rfl⟩
  · by_cases c : op = .afx
    · rw [if_pos c] at h
      omega
    · rw [if_neg c] at h
      obtain ⟨u, hu, hc⟩ := endAf_short op (t := t.extClosed) h0 (show max t.bp t.afxEnd ≤ t.len by omega)
        (show t.len < t.afEnd by omega)
      refine ⟨u, ?_, hc⟩
      rw [endAfx, bind_ok (afxPadding_closed h0 k), bind_ok (modify_apply _ _), if_neg c]
      exact hu

theorem endStructure_ok (op : Composite) (r : Region) {t : State} (h0 : t.bo = 0) (hl : t.endOffset op r ≤ t.len) :
    endStructure op r t = .ok () (t.structureEnded op r) := by
  have hx : (if op = .afx then t.afxEnd else max t.afxEnd t.afEnd) ≤ t.len →
      t.afxEnd ≤ t.len ∧ (op ≠ .afx → t.afEnd ≤ t.len) := by
    intro h
    by_cases c : op = .afx
    · rw [if_pos c] at h; exact ⟨h, fun k => absurd c k⟩
    · rw [if_neg c] at h; exact ⟨by omega, fun _ => by omega⟩
  cases r with
  | tsh => exact endPacket_ok op t
  | afHead => exact endAf_ok op h0 hl
  | pcr => exact endAf_ok op h0 hl
  | opcr => exact endAf_ok op h0 hl
  | spl => exact endAf_ok op h0 hl
  | tpd => exact endAf_ok op h0 hl
  | afxHead => exact endAfx_ok op h0 (hx hl).1 (hx hl).2
  | ltw => exact endAfx_ok op h0 (hx hl).1 (hx hl).2
  | pwr => exact endAfx_ok op h0 (hx hl).1 (hx hl).2
  | sms => exact endAfx_ok op h0 (hx hl).1 (hx hl).2

theorem endStructure_short (op : Composite) (r : Region) {t : State} (h0 : t.bo = 0) (hle : t.bp ≤ t.len)
    (hl : t.len < t.endOffset op r) : ∃ u, endStructure op r t = .error .outOfData u ∧ (u.bp, u.bo) = (t.len, 0) := by
  cases r with
  | tsh => exact absurd hl (Nat.not_lt_zero _)
  | afHead => exact endAf_short op h0 hle hl
  | pcr => exact endAf_short op h0 hle hl
  | opcr => exact endAf_short op h0 hle hl
  | spl => exact endAf_short op h0 hle hl
  | tpd => exact endAf_short op h0 hle hl
  | afxHead => exact endAfx_short op h0 hle hl
  | ltw => exact endAfx_short op h0 hle hl
  | pwr => exact endAfx_short op h0 hle hl
  | sms => exact endAfx_short op h0 hle hl

/-- A region whose reads succeeded. -/
theorem runRegion_ok {op : Composite} {r : Region} {reads : Op Unit} {s t : State} (h : reads s = .ok () t)
    (h0 : t.bo = 0) (hle : t.bp ≤ t.len) : Continues op r t (runRegion op r reads s) := by
  have e : runRegion op r reads s = settleComposite (advance op r) t := by
    rw [runRegion, settleComposite, settleComposite, bind_ok h]
  rw [e]
  have ea : advance op r t = parkOr op (nextRegion op r t) (endStructure op r) t := rfl
  refine ⟨fun r' hn => ?_, fun hn hl => ?_, fun hn hl => ?_⟩
  · rw [hn] at ea
    exact settleComposite_ok ea
  · rw [hn] at ea
    exact settleComposite_ok (ea.trans (endStructure_ok op r h0 hl))
  · rw [hn] at ea
    obtain ⟨u, hu, hc⟩ := endStructure_short op r h0 hle hl
    rw [← hc]
    exact settleComposite_error (framed_advance op r) (ea.trans hu)

/-- A region whose reads raised. -/
theorem runRegion_error {op : Composite} {r : Region} {reads : Op Unit} {s t : State} {e : DecodeError}
    (h : reads s = .error e t) (hf : Frame s t) : runRegion op r reads s = .next (s.failedAt e (t.bp, t.bo)) := by
  rw [runRegion, settleComposite, bind_error h]
  exact congrArg _ (takeError_composite hf e)

end Sys2Proof.Machine
end

