-- ==== Sys2Proof/Laws/Exec.lean ====
section
/-! SUPPORT. What every instruction does, said once: it answers a next state, keeps the buffer,
  its length and the host program, and moves the cursor forward and inside the buffer. -/

namespace Sys2Proof.Machine

theorem settleComposite_next (m : Op Unit) (s : State) : ∃ t, settleComposite m s = .next t := by
  unfold settleComposite; split <;> exact ⟨_, rfl⟩

theorem settleRaw_next {α} (v : α → BitVec 16) (m : Op α) (s : State) : ∃ t, settleRaw v m s = .next t := by
  unfold settleRaw; split <;> exact ⟨_, rfl⟩

/-- Every instruction answers a next state (60_exceptions.md R241). -/
theorem exec_next (i : Instr) (s : State) : ∃ t, exec i s = .next t := by
  cases i <;> first | exact settleComposite_next _ _ | exact settleRaw_next _ _ _ | exact ⟨_, rfl⟩

/-- What no instruction writes: the buffer, its length, the host program (20_memory.md R61). -/
structure Keeps (s t : State) : Prop where
  data : t.data = s.data
  len : t.len = s.len
  script : t.script = s.script

theorem framed_region (op r) {m : Op Unit} (hm : Framed m) : Framed (do m; advance op r) :=
    Framed.bind hm fun _ => framed_advance op r

/-- A cursor command in its two outcomes: the frame of the read, and the host registers. -/
theorem settleRaw_cases {α} {v : α → BitVec 16} {m : Op α} (hm : Framed m) (s : State) :
    ∃ u, Frame s u ∧ ∃ r e st, settleRaw v m s = .next { u with rval := r, err := e, st := st } := by
  unfold settleRaw
  cases h : m s with
  | ok x u => exact ⟨u, hm.ok h, _, _, _, rfl⟩
  | error e u => exact ⟨u, hm.error h, _, _, _, rfl⟩

theorem keeps_settle {m : Op Unit} (hm : Framed m) {s t : State} (h : settleComposite m s = .next t) : Keeps s t := by
  rcases settleComposite_cases hm s with ⟨u, _, h2, hf⟩ | ⟨e, u, _, h2, hf⟩
  · rw [h2] at h; cases h; exact ⟨hf.data, hf.len, hf.script⟩
  · rw [h2] at h; cases h; exact ⟨rfl, rfl, rfl⟩

theorem keeps_raw {α} {v : α → BitVec 16} {m : Op α} (hm : Framed m) {s t : State} (h : settleRaw v m s = .next t) :
    Keeps s t := by
  obtain ⟨u, hf, r, e, st, h2⟩ := settleRaw_cases (v := v) hm s
  rw [h2] at h; cases h; exact ⟨hf.data, hf.len, hf.script⟩

theorem keeps_decode {n} {s t : State} (h : execDecode n s = .next t) : Keeps s t := by
  rcases execDecode_cases n s with ⟨_, _, hh⟩ | ⟨_, _, _, hh⟩ | ⟨e, c, hh,
    _⟩ <;> rw [hh] at h <;> cases h <;> exact ⟨rfl, rfl, rfl⟩

/-- No instruction writes the buffer, its length or the host program. -/
theorem exec_keeps {i : Instr} {s t : State} (h : exec i s = .next t) : Keeps s t := by
  cases i with
  | openCur n => cases h; exact ⟨rfl, rfl, rfl⟩
  | pbit n => exact keeps_raw framed_pbit h
  | pbits n => exact keeps_raw (framed_pbits _) h
  | pbyte n => exact keeps_raw framed_pbyte h
  | pwide n => exact keeps_raw (framed_pwide _) h
  | hdr n => exact keeps_settle framed_hdrOp h
  | af n => exact keeps_settle framed_afOp h
  | afx n => exact keeps_settle framed_afxOp h
  | decode n => exact keeps_decode (n := n) h
  | tspNone _ => exact keeps_settle (framed_region _ _ (framed_hdrGroup _)) h
  | tspPayload _ => exact keeps_settle (framed_region _ _ (framed_hdrGroup _)) h
  | tspAf _ => exact keeps_settle (framed_region _ _ (framed_hdrGroup _)) h
  | tspAfPayload _ => exact keeps_settle (framed_region _ _ (framed_hdrGroup _)) h
  | afHead _ => exact keeps_settle (framed_region _ _ (framed_afHeadGroup _)) h
  | afPcr _ => exact keeps_settle (framed_region _ _ (framed_pcrGroup _)) h
  | afOpcr _ => exact keeps_settle (framed_region _ _ (framed_opcrGroup _)) h
  | afSplice _ => exact keeps_settle (framed_region _ _ (framed_splGroup _)) h
  | afPrivate _ _ => exact keeps_settle (framed_region _ _ (framed_tpdGroup _)) h
  | afxHead _ => exact keeps_settle (framed_region _ _ (framed_afxHeadGroup _ _)) h
  | afxLtw _ _ => exact keeps_settle (framed_region _ _ (framed_ltwGroup _)) h
  | afxPwr _ _ => exact keeps_settle (framed_region _ _ (framed_pwrGroup _)) h
  | afxSms _ => exact keeps_settle (framed_region _ _ (framed_smsGroup _)) h
  | _ n => cases h; exact ⟨rfl, rfl, rfl⟩

/-- What every instruction does to the cursor: the invariants of 10_state.md R24 and R25 are kept. -/
structure Moves (s t : State) : Prop where
  inside : s.bp ≤ s.len → t.bp ≤ t.len
  cursor : CursorOk s → CursorOk t

theorem moves_settle {m : Op Unit} (hm : Framed m) {s t : State} (h : settleComposite m s = .next t) : Moves s t ∧
    s.bitAddr ≤ t.bitAddr := by
  rcases settleComposite_cases hm s with ⟨u, _, h2, hf⟩ | ⟨e, u, _, h2, hf⟩
  · rw [h2] at h; cases h; exact ⟨⟨hf.inside, hf.cursor⟩, hf.forward⟩
  · rw [h2] at h; cases h
    have hl := hf.len
    refine ⟨⟨fun k => ?_, fun k => ?_⟩, hf.forward⟩
    · have := hf.inside k; rw [hl] at this; exact this
    · have := hf.cursor k; unfold CursorOk at this; rw [hl] at this; exact this

theorem moves_raw {α} {v : α → BitVec 16} {m : Op α} (hm : Framed m) {s t : State} (h : settleRaw v m s = .next t) :
    Moves s t ∧ s.bitAddr ≤ t.bitAddr := by
  obtain ⟨u, hf, r, e, st, h2⟩ := settleRaw_cases (v := v) hm s
  rw [h2] at h; cases h; exact ⟨⟨hf.inside, hf.cursor⟩, hf.forward⟩

theorem execDecode_cursorOk {n} {s t : State} (h : execDecode n s = .next t) : CursorOk t := by
  rcases execDecode_cases n s with ⟨h4, _, hh⟩ | ⟨_, _, hf, hh⟩ | ⟨e, c, hh, _, hf⟩ <;> rw [hh] at h <;> cases h
  · exact ⟨h4, fun k => absurd rfl k⟩
  · simp only [State.fieldFits, Bool.and_eq_true, decide_eq_true_eq] at hf
    exact ⟨hf.2, fun k => absurd rfl k⟩
  · exact hf.cursor ⟨Nat.zero_le _, fun k => absurd rfl k⟩

/-- The cursor's invariants are kept; the cursor moves forward, or is bound afresh. -/
theorem exec_moves {i : Instr} {s t : State} (h : exec i s = .next t) : Moves s t ∧ (bindsCursor i =
    false → s.bitAddr ≤ t.bitAddr) ∧ (bindsCursor i = true → CursorOk t) := by
  have A : ∀ {m : Op Unit}, Framed m → settleComposite m s = .next t → bindsCursor i = false → _ := fun hm h hb =>
    (⟨(moves_settle hm h).1, fun _ => (moves_settle hm h).2, fun k => by rw [hb] at k; cases k⟩ : Moves s t ∧
      (bindsCursor i = false → s.bitAddr ≤ t.bitAddr) ∧ (bindsCursor i = true → CursorOk t))
  have B : ∀ {α} {v : α → BitVec 16} {m : Op α}, Framed m → settleRaw v m s = .next t → bindsCursor i =
    false → Moves s t ∧ (bindsCursor i = false → s.bitAddr ≤ t.bitAddr) ∧ (bindsCursor i = true → CursorOk t) :=
    fun hm h hb =>
    ⟨(moves_raw hm h).1, fun _ => (moves_raw hm h).2, fun k => by rw [hb] at k; cases k⟩
  cases i with
  | openCur n => cases h; exact ⟨⟨fun _ => Nat.zero_le _, fun _ => ⟨Nat.zero_le _, fun k => absurd rfl k⟩⟩, fun k =>
    by (cases k), fun _ => ⟨Nat.zero_le _, fun k => absurd rfl k⟩⟩
  | pbit n => exact B framed_pbit h rfl
  | pbits n => exact B (framed_pbits _) h rfl
  | pbyte n => exact B framed_pbyte h rfl
  | pwide n => exact B (framed_pwide _) h rfl
  | hdr n => exact A framed_hdrOp h rfl
  | af n => exact A framed_afOp h rfl
  | afx n => exact A framed_afxOp h rfl
  | decode n => exact ⟨⟨fun _ => (execDecode_cursorOk (n := n) h).1, fun _ => execDecode_cursorOk (n :=
    n) h⟩, fun k => by (cases k), fun _ => execDecode_cursorOk (n := n) h⟩
  | tspNone _ => exact A (framed_region _ _ (framed_hdrGroup _)) h rfl
  | tspPayload _ => exact A (framed_region _ _ (framed_hdrGroup _)) h rfl
  | tspAf _ => exact A (framed_region _ _ (framed_hdrGroup _)) h rfl
  | tspAfPayload _ => exact A (framed_region _ _ (framed_hdrGroup _)) h rfl
  | afHead _ => exact A (framed_region _ _ (framed_afHeadGroup _)) h rfl
  | afPcr _ => exact A (framed_region _ _ (framed_pcrGroup _)) h rfl
  | afOpcr _ => exact A (framed_region _ _ (framed_opcrGroup _)) h rfl
  | afSplice _ => exact A (framed_region _ _ (framed_splGroup _)) h rfl
  | afPrivate _ _ => exact A (framed_region _ _ (framed_tpdGroup _)) h rfl
  | afxHead _ => exact A (framed_region _ _ (framed_afxHeadGroup _ _)) h rfl
  | afxLtw _ _ => exact A (framed_region _ _ (framed_ltwGroup _)) h rfl
  | afxPwr _ _ => exact A (framed_region _ _ (framed_pwrGroup _)) h rfl
  | afxSms _ => exact A (framed_region _ _ (framed_smsGroup _)) h rfl
  | _ n => cases h; exact ⟨⟨id, id⟩, fun _ => Nat.le_refl _, fun k => by (cases k)⟩

theorem bitAddr_le {s : State} (h : CursorOk s) : s.bitAddr ≤ 8 * s.len := by
  obtain ⟨h1, h2⟩ := h
  have := s.bo.isLt
  unfold State.bitAddr
  by_cases hb : s.bo.val = 0
  · omega
  · have := h2 (fun k => hb (by rw [k]; rfl)); omega

theorem framed_regionReads (op r) : Framed (regionReads op r) := by
  cases r with
  | tsh => exact framed_hdrGroup _
  | afHead => exact framed_afHeadGroup _
  | pcr => exact framed_pcrGroup _
  | opcr => exact framed_opcrGroup _
  | spl => exact framed_splGroup _
  | tpd => exact framed_tpdGroup _
  | afxHead => exact fun s => framed_afxHeadGroup _ _ s
  | ltw => exact framed_ltwGroup _
  | pwr => exact framed_pwrGroup _
  | sms => exact framed_smsGroup _

theorem stepRegion_moves {op r} {s t : State} (h : stepRegion op r s = .next t) : Keeps s t ∧ Moves s t := by
  unfold stepRegion at h
  split at h
  · exact ⟨exec_keeps h, (exec_moves h).1⟩
  · have fr := framed_regionReads op r
    exact ⟨keeps_settle (framed_region _ _ fr) h, (moves_settle (framed_region _ _ fr) h).1⟩

/-- A command that neither binds nor uses the cursor is a reserved one. -/
theorem exec_of_unused {w : Cmd} (h1 : bindsCursor (decodeCmd w) = false) (h2 : usesCursor (decodeCmd w) = false)
    (s : State) : exec (decodeCmd w) s = .next s ∧ compositeOf (decodeCmd w) = none := by
  revert h1 h2
  generalize decodeCmd w = i
  intro h1 h2
  cases i
  all_goals first
    | exact ⟨rfl, rfl⟩
    | exact Bool.noConfusion h1
    | exact Bool.noConfusion h2

/-- What a host may do with the cursor unbound it may do with the cursor bound. -/
theorem admitted_mono {l : List HostAction} (h : admitted false l = true) : admitted true l = true := by
  induction l with
  | nil => rfl
  | cons a l ih =>
    cases a <;> simp only [admitted] at h ⊢ <;> try exact h
    · split at h <;> rename_i hb
      · simp [hb, h]
      · simp at h; simp [hb, ih h.2]
    · split at h <;> rename_i hb
      · simp [hb, h]
      · simp at h; simp [hb, ih h.2]
    · exact ih h

theorem start_cursor (op : Composite) (s : State) (h : op = .decode ∨ CursorOk s) : CursorOk (s.start op) ∧
    (s.start op).script = s.script := by
  cases op
  · exact ⟨h.resolve_left (by simp), rfl⟩
  · exact ⟨h.resolve_left (by simp), rfl⟩
  · exact ⟨h.resolve_left (by simp), rfl⟩
  · exact ⟨⟨Nat.zero_le _, fun k => absurd rfl k⟩, rfl⟩

theorem keeps_rval {m : Op Unit} (hm : Framed m) {s t : State} (h : settleComposite m s = .next t) :
    t.rval = s.rval := by
  rcases settleComposite_cases hm s with ⟨u, _, h2, hf⟩ | ⟨e, u, _, h2, hf⟩
  · rw [h2] at h; cases h; exact hf.rval
  · rw [h2] at h; cases h; rfl

end Sys2Proof.Machine
end

