-- ==== Sys2Proof/Laws/Blind.lean ====
section
/-! SUPPORT. What the reads do not look at: `DATA` past `LEN`, `ST`, `ERR`, `RVAL`,
  the sequencer and the host program, and, until a head writes them, the budgets. -/

namespace Sys2Proof.Machine

/-- The fields a part of an operation does not look at; a budget only where it is given. -/
structure Hidden where
  data : Memory
  st : Status
  err : Option DecodeError
  rval : BitVec 16
  seq : Option (Composite × Region)
  script : List HostAction
  afEnd : Option Nat
  afxEnd : Option Nat

/-- The state with those fields replaced. -/
def State.under (k : Hidden) (s : State) : State :=
  { s with data := k.data, st := k.st, err := k.err, rval := k.rval, seq := k.seq, script := k.script,
           afEnd := k.afEnd.getD s.afEnd, afxEnd := k.afxEnd.getD s.afxEnd }

/-- A result with those fields replaced in its state. -/
def resultUnder {α} (k : Hidden) : EStateM.Result DecodeError State α → EStateM.Result DecodeError State α
  | .ok v s => .ok v (s.under k)
  | .error e s => .error e (s.under k)

/-- Memory `d` agrees with the state's buffer below `LEN`. -/
def Agrees (d : Memory) (s : State) : Prop := ∀ a, a < s.len → d.read a = s.data.read a

/-- A part of an operation whose outcome is the same whatever the hidden fields hold. -/
structure Blind {α} (c : Hidden → Prop) (m : Op α) : Prop where
  framed : Framed m
  same : ∀ k s, c k → Agrees k.data s → m (s.under k) = resultUnder k (m s)

variable {α β : Type} {c : Hidden → Prop}

theorem Blind.bind {m : Op α} {g : α → Op β} (h : Blind c m) (q : ∀ v, Blind c (g v)) : Blind c (m >>= g) where
  framed := Framed.bind h.framed fun v => (q v).framed
  same k s hc ha := by
    rw [bind_apply, bind_apply, h.same k s hc ha]
    cases hm : m s with
    | ok v t =>
      have f := h.framed.ok hm
      exact (q v).same k t hc (fun a hl => (ha a (f.len ▸ hl)).trans (by rw [f.data]))
    | error e t => rfl

theorem Blind.pure (v : α) : Blind c (Pure.pure v : Op α) := ⟨Framed.pure v, fun _ _ _ _ => rfl⟩

theorem Blind.given {v : Option α} {m : Op α} (h : Blind c m) : Blind c (given v m) := h.bind fun _ => .pure _

theorem Blind.modify {g : State → State} (hf : Framed (modify g : Op Unit)) (h : ∀ k s, c k → g (s.under k) =
    (g s).under k) :
    Blind c (modify g : Op Unit) := ⟨hf, fun k s hc _ => congrArg (EStateM.Result.ok ()) (h k s hc)⟩

theorem Blind.onFlag {b : State → Bool} {m : Op Unit} (h : Blind c m) (hb : ∀ k s, c k → b (s.under k) = b s) :
    Blind c (onFlag b m) :=
  ⟨h.framed.onFlag, fun k s hc ha => by
    unfold Machine.onFlag
    rw [hb k s hc]
    split
    · exact h.same k s hc ha
    · rfl⟩

theorem Blind.ofState {g : State → Op α} (h : ∀ s, Blind c (g s)) (e : ∀ k s, c k → g (s.under k) = g s) :
    Blind c (fun s => g s s) where
  framed s := (h s).framed s
  same k s hc ha := by
    show g (s.under k) (s.under k) = _
    rw [e k s hc]
    exact (h s).same k s hc ha

theorem read_under {k : Hidden} {s : State} (ha : Agrees k.data s) {a : Nat} (h : ¬s.len ≤ a) :
    (s.under k).memRead a = s.memRead a := ha a (Nat.lt_of_not_le h)

theorem blind_pbit : Blind c pbit := ⟨framed_pbit, fun k s _ ha => by
  show (if s.len ≤ s.bp then _ else _) = _
  unfold pbit
  split
  · rfl
  · rename_i h; rw [show (s.under k).bp = s.bp from rfl, read_under ha h]; rfl⟩

theorem blind_pbits (n : Nat) : Blind c (pbits n) := ⟨framed_pbits n, fun k s _ ha => by
  unfold pbits
  show (if _ then _ else if 8 < s.bo.val + n then _ else if s.len ≤ s.bp then _ else _) = _
  split
  · rfl
  · split
    · rfl
    · split
      · rfl
      · rename_i h; rw [show (s.under k).bp = s.bp from rfl, read_under ha h]; rfl⟩

theorem blind_pbyte : Blind c pbyte := ⟨framed_pbyte, fun k s _ ha => by
  unfold pbyte
  show (if s.bo ≠ 0 then _ else if s.len ≤ s.bp then _ else _) = _
  split
  · rfl
  · split
    · rfl
    · rename_i h; rw [show (s.under k).bp = s.bp from rfl, read_under ha h]; rfl⟩

theorem blind_pwide (n : Nat) : Blind c (pwide n) := ⟨framed_pwide n, fun k s _ ha => by
  unfold pwide
  dsimp only
  simp only [show (s.under k).bp = s.bp from rfl, show (s.under k).bo = s.bo from rfl, show (s.under k).len =
    s.len from rfl]
  split
  · rfl
  · split
    · rfl
    · split
      · rfl
      · split
        · rfl
        · rename_i h; rw [read_under ha h, read_under ha (by omega : ¬s.len ≤ s.bp)]; rfl⟩

theorem blind_need (n e : Nat) : Blind c (need n e) := ⟨framed_need n e, fun k s _ _ => by
  unfold need
  show (if e < s.bp + n then _ else _) = _
  split <;> rfl⟩

theorem blind_needWithin (n : Nat) (l : Option Nat) : Blind c (needWithin n l) := by
  cases l
  · exact .pure _
  · exact blind_need _ _

theorem blind_skip (n : Nat) : Blind c (skip n) := by
  induction n with
  | zero => exact .pure _
  | succ n ih => exact blind_pbyte.bind fun _ => ih

theorem blind_pullBytes (n : Nat) : Blind c (pullBytes n) := by
  induction n with
  | zero => exact .pure _
  | succ n ih => exact blind_pbyte.bind fun _ => ih.bind fun _ => .pure _

theorem blind_pull48 : Blind c pull48 := blind_pbyte.bind fun _ => blind_pbyte.bind fun _ =>
    blind_pbyte.bind fun _ => blind_pbyte.bind fun _ => blind_pbyte.bind fun _ => blind_pbyte.bind fun _ => .pure _

theorem blind_readHdr : Blind c readHdr := blind_pbyte.bind fun _ => blind_pbit.bind fun _ =>
    blind_pbit.bind fun _ => blind_pbit.bind fun _ => (blind_pwide 13).bind fun _ => (blind_pbits 2).bind fun _ =>
    blind_pbit.bind fun _ => blind_pbit.bind fun _ => (blind_pbits 4).bind fun _ => .pure _

theorem blind_afFlags (len : Byte) (e : Nat) : Blind c (readAfFlags len e) := (blind_need 1 e).bind fun _ =>
    blind_pbit.bind fun _ => blind_pbit.bind fun _ => blind_pbit.bind fun _ => blind_pbit.bind fun _ =>
    blind_pbit.bind fun _ => blind_pbit.bind fun _ => blind_pbit.bind fun _ => blind_pbit.bind fun _ => .pure _

theorem blind_afxFlags (len : Byte) (e : Nat) : Blind c (readAfxFlags len e) := (blind_need 1 e).bind fun _ =>
    blind_pbit.bind fun _ => blind_pbit.bind fun _ => blind_pbit.bind fun _ => (blind_pbits 5).bind fun _ => .pure _

theorem blind_readLtw : Blind c readLtw := blind_pbit.bind fun _ => (blind_pwide 15).bind fun _ => .pure _

theorem blind_readRate : Blind c readRate := (blind_pbits 2).bind fun _ => (blind_pwide 14).bind fun _ =>
    blind_pbyte.bind fun _ => .pure _

theorem blind_readSms : Blind c readSms := (blind_pbits 4).bind fun _ => (blind_pbits 3).bind fun _ =>
    blind_pbit.bind fun _ => (blind_pwide 15).bind fun _ => blind_pbit.bind fun _ => (blind_pwide 15).bind fun _ =>
    blind_pbit.bind fun _ => .pure _

theorem blind_endAfter (n : Byte) : Blind c (endAfter n) := ⟨framed_endAfter n, fun _ _ _ _ => rfl⟩

theorem blind_extensionEnd (len : Byte) (l : Option Nat) : Blind c (extensionEnd len l) :=
    ⟨framed_extensionEnd len l, fun k s _ _ => by
  cases l
  · rfl
  · unfold extensionEnd
    show (if _ < s.bp + len.toNat then _ else _) = _
    dsimp only
    split <;> rfl⟩

theorem blind_needAf (n : Nat) (h : ∀ k, c k → k.afEnd = none) : Blind c (needAf n) :=
  Blind.ofState (g := fun s => need n s.afEnd) (fun _ => blind_need _ _) fun k s hc => by simp [State.under, h k hc]

theorem blind_needAfx (n : Nat) (h : ∀ k, c k → k.afxEnd = none) : Blind c (needAfx n) :=
  Blind.ofState (g := fun s => need n s.afxEnd) (fun _ => blind_need _ _) fun k s hc => by simp [State.under, h k hc]

theorem blind_fields {g : State → State} (h : ∀ s, (g s).data = s.data ∧ (g s).len = s.len ∧ (g s).rval = s.rval ∧
    (g s).script = s.script ∧ (g s).bp = s.bp ∧ (g s).bo = s.bo) (e : ∀ k s, c k → g (s.under k) = (g s).under k) :
      Blind c (modify g : Op Unit) := Blind.modify (framed_fields h) e

theorem blind_hdrGroup (o : Option (Tsh × Bool × Bool)) : Blind c (hdrGroup o) := blind_readHdr.given.bind fun _ =>
    blind_fields (fun _ => ⟨rfl, rfl, rfl, rfl, rfl, rfl⟩) fun _ _ _ => rfl

theorem blind_afHeadGroup (o : Option AfHead) (h : ∀ k, c k → k.afEnd = none) : Blind c (afHeadGroup o) :=
    blind_pbyte.given.bind fun _ => (blind_endAfter _).bind fun _ => (blind_afFlags _ _).given.bind fun _ =>
    blind_fields (fun _ => ⟨rfl, rfl, rfl, rfl, rfl, rfl⟩) fun k s hc => by simp [State.under, State.putAfHead, h k hc]

theorem blind_pcrGroup (o : Option (BitVec 48)) (h : ∀ k, c k → k.afEnd = none) : Blind c (pcrGroup o) :=
    (blind_needAf _ h).bind fun _ => blind_pull48.given.bind fun _ => blind_fields (fun _ => ⟨rfl, rfl, rfl, rfl, rfl,
    rfl⟩) fun _ _ _ => rfl

theorem blind_opcrGroup (o : Option (BitVec 48)) (h : ∀ k, c k → k.afEnd = none) : Blind c (opcrGroup o) :=
    (blind_needAf _ h).bind fun _ => blind_pull48.given.bind fun _ => blind_fields (fun _ => ⟨rfl, rfl, rfl, rfl, rfl,
    rfl⟩) fun _ _ _ => rfl

theorem blind_splGroup (o : Option Byte) (h : ∀ k, c k → k.afEnd = none) : Blind c (splGroup o) :=
    (blind_needAf _ h).bind fun _ => blind_pbyte.given.bind fun _ => blind_fields (fun _ => ⟨rfl, rfl, rfl, rfl, rfl,
    rfl⟩) fun _ _ _ => rfl

theorem blind_tpdGroup (o : Option (Byte × List Byte)) (h : ∀ k, c k → k.afEnd = none) : Blind c (tpdGroup o) :=
    (blind_needAf _ h).bind fun _ => blind_pbyte.given.bind fun _ => (blind_needAf _ h).bind fun _ =>
    (blind_pullBytes _).given.bind fun _ => blind_fields (fun _ => ⟨rfl, rfl, rfl, rfl, rfl, rfl⟩) fun _ _ _ => rfl

theorem blind_afxHeadGroup (o : Option AfxHead) (l : Option Nat) (h : ∀ k, c k → k.afxEnd = none) :
    Blind c (afxHeadGroup o l) := (blind_needWithin _ _).bind fun _ => blind_pbyte.given.bind fun _ =>
    (blind_extensionEnd _ _).bind fun _ => (blind_afxFlags _ _).given.bind fun _ => blind_fields (fun _ => ⟨rfl, rfl,
    rfl, rfl, rfl, rfl⟩) fun k s hc => by simp [State.under, State.putAfxHead, h k hc]

theorem blind_ltwGroup (o : Option (Bool × BitVec 15)) (h : ∀ k, c k → k.afxEnd = none) : Blind c (ltwGroup o) :=
    (blind_needAfx _ h).bind fun _ => blind_readLtw.given.bind fun _ => blind_fields (fun _ => ⟨rfl, rfl, rfl, rfl,
    rfl, rfl⟩) fun _ _ _ => rfl

theorem blind_pwrGroup (o : Option (BitVec 22)) (h : ∀ k, c k → k.afxEnd = none) : Blind c (pwrGroup o) :=
    (blind_needAfx _ h).bind fun _ => blind_readRate.given.bind fun _ => blind_fields (fun _ => ⟨rfl, rfl, rfl, rfl,
    rfl, rfl⟩) fun _ _ _ => rfl

theorem blind_smsGroup (o : Option (BitVec 4 × BitVec 33)) (h : ∀ k, c k → k.afxEnd = none) :
    Blind c (smsGroup o) := (blind_needAfx _ h).bind fun _ => blind_readSms.given.bind fun _ =>
    blind_fields (fun _ => ⟨rfl, rfl, rfl, rfl, rfl, rfl⟩) fun _ _ _ => rfl

theorem blind_afxPadding (h : ∀ k, c k → k.afxEnd = none) : Blind c afxPadding := Blind.ofState (g :=
    fun s => skip (s.afxEnd - s.bp)) (fun _ => blind_skip _) fun k s hc => by simp [State.under, h k hc]

theorem blind_stuffing (h : ∀ k, c k → k.afEnd = none) : Blind c stuffing := ⟨framed_stuffing, fun k s hc ha => by
  unfold stuffing
  have e : (s.under k).afEnd = s.afEnd := by simp [State.under, h k hc]
  simp only [e, show (s.under k).bp = s.bp from rfl]
  split
  · rfl
  · refine Eq.trans ?_ ((blind_skip (c := c) (s.afEnd - s.bp)).same k { s with a := { s.a with
      stfV := true, stfOff := s.bp, stfLen := BitVec.ofNat 8 (s.afEnd - s.bp) } } hc ha)
    simp [State.under, h k hc]⟩

theorem blind_payload : Blind c payload := blind_fields (fun _ => ⟨rfl, rfl, rfl, rfl, rfl, rfl⟩) fun _ _ _ => rfl

theorem blind_afxSeq (l : Option Nat) (h : ∀ k, c k → k.afxEnd = none) : Blind c (afxSeq l) :=
  (blind_fields (g := State.clearX) (fun _ => ⟨rfl, rfl, rfl, rfl, rfl, rfl⟩) fun _ _ _ => rfl).bind fun _ =>
    (blind_afxHeadGroup _ _ h).bind fun _ => ((blind_ltwGroup _ h).onFlag fun _ _ _ => rfl).bind fun _ =>
    ((blind_pwrGroup _ h).onFlag fun _ _ _ => rfl).bind fun _ => ((blind_smsGroup _ h).onFlag fun _ _ _ =>
    rfl).bind fun _ => blind_afxPadding h

theorem blind_extensionGroup (h : ∀ k, c k → k.afEnd = none) (h' : ∀ k, c k → k.afxEnd = none) :
    Blind c extensionGroup :=
  (Blind.ofState (g := fun s => afxSeq (some s.afEnd)) (fun _ => blind_afxSeq _ h') fun k s hc =>
    by simp [State.under, h k hc]).bind fun _ => blind_fields (fun _ => ⟨rfl, rfl, rfl, rfl, rfl, rfl⟩) fun _ _ _ => rfl

theorem blind_afSeq (h : ∀ k, c k → k.afEnd = none) (h' : ∀ k, c k → k.afxEnd = none) : Blind c afSeq :=
  (blind_fields (g := State.clearAf) (fun _ => ⟨rfl, rfl, rfl, rfl, rfl, rfl⟩) fun _ _ _ => rfl).bind fun _ =>
    (blind_afHeadGroup _ h).bind fun _ => ((blind_pcrGroup _ h).onFlag fun _ _ _ => rfl).bind fun _ =>
    ((blind_opcrGroup _ h).onFlag fun _ _ _ => rfl).bind fun _ => ((blind_splGroup _ h).onFlag fun _ _ _ =>
    rfl).bind fun _ => ((blind_tpdGroup _ h).onFlag fun _ _ _ => rfl).bind fun _ =>
    ((blind_extensionGroup h h').onFlag fun _ _ _ => rfl).bind fun _ => (blind_stuffing h).bind fun _ =>
    blind_fields (fun _ => ⟨rfl, rfl, rfl, rfl, rfl, rfl⟩) fun _ _ _ => rfl

variable {c' c'' : Hidden → Prop}

/-- The hidden fields with other budgets. -/
def Hidden.ends (k : Hidden) (x y : Option Nat) : Hidden := { k with afEnd := x, afxEnd := y }

/-- A part of an operation that overwrites hidden budgets: `c` may be hidden before it, `c'` after it. -/
structure Forgets {α} (c c' : Hidden → Prop) (m : Op α) : Prop where
  framed : Framed m
  same : ∀ k s, c k → Agrees k.data s →
    (∀ v t, m s = .ok v t → ∃ x y, c' (k.ends x y) ∧ m (s.under k) = .ok v (t.under (k.ends x y))) ∧
    (∀ e t, m s = .error e t → ∃ x y, m (s.under k) = .error e (t.under (k.ends x y)))

theorem Forgets.of {m : Op α} (h : Blind c m) : Forgets c c m := ⟨h.framed, fun k s hc ha => by
  have := h.same k s hc ha
  constructor
  · intro v t hm; rw [hm] at this; exact ⟨k.afEnd, k.afxEnd, hc, this⟩
  · intro e t hm; rw [hm] at this; exact ⟨k.afEnd, k.afxEnd, this⟩⟩

theorem Forgets.bind {m : Op α} {g : α → Op β} (h : Forgets c c' m) (q : ∀ v, Forgets c' c'' (g v)) :
    Forgets c c'' (m >>= g) :=
  ⟨Framed.bind h.framed fun v => (q v).framed, fun k s hc ha => by
    obtain ⟨h1, h2⟩ := h.same k s hc ha
    rw [bind_apply, bind_apply]
    cases hm : m s with
    | ok v t =>
      obtain ⟨x, y, hc', e⟩ := h1 v t hm
      rw [e]
      have f := h.framed.ok hm
      exact (q v).same (k.ends x y) t hc' (fun a hl => (ha a (f.len ▸ hl)).trans (by rw [f.data]))
    | error e t =>
      obtain ⟨x, y, e'⟩ := h2 e t hm
      rw [e']
      exact ⟨fun v u hu => (nomatch hu), fun e2 u hu => by cases hu; exact ⟨x, y, rfl⟩⟩⟩

theorem Forgets.weak {m : Op α} {d d' : Hidden → Prop} (h : Forgets c c' m) (a : ∀ k, d k → c k) (b :
    ∀ k, c' k → d' k) : Forgets d d' m :=
  ⟨h.framed, fun k s hc ha => by
    obtain ⟨h1, h2⟩ := h.same k s (a k hc) ha
    exact ⟨fun v t hm => let ⟨x, y, p, q⟩ := h1 v t hm; ⟨x, y, b _ p, q⟩, h2⟩⟩

theorem Forgets.onFlag {b : State → Bool} {m : Op Unit} (h : Forgets c c m) (hb : ∀ k s, c k → b (s.under k) = b s) :
    Forgets c c (onFlag b m) :=
  ⟨h.framed.onFlag, fun k s hc ha => by
    unfold Machine.onFlag
    rw [hb k s hc]
    split
    · exact h.same k s hc ha
    · exact ⟨fun v t hm => by cases hm; exact ⟨_, _, hc, rfl⟩, fun e t hm => nomatch hm⟩⟩

theorem Forgets.ofState {g : State → Op α} (h : ∀ s, Forgets c c' (g s)) (e : ∀ k s, c k → g (s.under k) = g s) :
    Forgets c c' (fun s => g s s) :=
  ⟨fun s => (h s).framed s, fun k s hc ha => by
    have := (h s).same k s hc ha
    show _ ∧ (∀ e' t, _ → ∃ x y, g (s.under k) (s.under k) = _)
    rw [← e k s hc] at this
    simp only [e k s hc] at this ⊢
    exact this⟩

/-- Both budgets may be hidden. -/
abbrev AnyHidden : Hidden → Prop := fun _ => True

/-- `AF_END` is seen. -/
abbrev FieldSeen : Hidden → Prop := fun k => k.afEnd = none

/-- Both budgets are seen. -/
abbrev EndsSeen : Hidden → Prop := fun k => k.afEnd = none ∧ k.afxEnd = none

theorem forgets_afHeadGroup : Forgets AnyHidden FieldSeen (afHeadGroup none) :=
  (Forgets.of blind_pbyte.given).bind fun _ => (Forgets.of (blind_endAfter _)).bind fun _ =>
    (Forgets.of (blind_afFlags _ _).given).bind fun _ =>
    ⟨framed_fields fun _ => ⟨rfl, rfl, rfl, rfl, rfl, rfl⟩, fun k s _ _ => ⟨fun v t hm => by
      cases hm; exact ⟨none, k.afxEnd, rfl, rfl⟩, fun e t hm => nomatch hm⟩⟩

theorem forgets_afxHeadGroup (l) : Forgets FieldSeen EndsSeen (afxHeadGroup none l) :=
  (Forgets.of (blind_needWithin _ _)).bind fun _ => (Forgets.of blind_pbyte.given).bind fun _ =>
    (Forgets.of (blind_extensionEnd _ _)).bind fun _ => (Forgets.of (blind_afxFlags _ _).given).bind fun _ =>
    ⟨framed_fields fun _ => ⟨rfl, rfl, rfl, rfl, rfl, rfl⟩, fun k s hc _ => ⟨fun v t hm => by
      cases hm; exact ⟨k.afEnd, none, ⟨hc, rfl⟩, rfl⟩, fun e t hm => nomatch hm⟩⟩

theorem forgets_afxSeq (l) : Forgets FieldSeen EndsSeen (afxSeq l) :=
  (Forgets.of (blind_fields (g := State.clearX) (fun _ => ⟨rfl, rfl, rfl, rfl, rfl, rfl⟩) fun _ _ _ =>
    rfl)).bind fun _ => (forgets_afxHeadGroup l).bind fun _ => Forgets.of <|
    ((blind_ltwGroup _ fun _ h => h.2).onFlag fun _ _ _ => rfl).bind fun _ => ((blind_pwrGroup _ fun _ h =>
      h.2).onFlag fun _ _ _ => rfl).bind fun _ => ((blind_smsGroup _ fun _ h => h.2).onFlag fun _ _ _ =>
      rfl).bind fun _ => blind_afxPadding fun _ h => h.2

theorem forgets_extensionGroup : Forgets FieldSeen FieldSeen extensionGroup :=
  ((Forgets.ofState (g := fun s => afxSeq (some s.afEnd)) (fun _ => forgets_afxSeq _) fun k s hc =>
    by simp [State.under, hc]).bind fun _ =>
   Forgets.of (c := EndsSeen) (blind_fields (g := fun s => { s with a := { s.a with afxV :=
     true } }) (fun _ => ⟨rfl, rfl, rfl, rfl, rfl, rfl⟩) fun _ _ _ => rfl)).weak (fun _ h => h) fun _ h => h.1

theorem forgets_afSeq : Forgets AnyHidden FieldSeen afSeq :=
  (Forgets.of (blind_fields (g := State.clearAf) (fun _ => ⟨rfl, rfl, rfl, rfl, rfl, rfl⟩) fun _ _ _ =>
    rfl)).bind fun _ => forgets_afHeadGroup.bind fun _ =>
  (Forgets.of ((blind_pcrGroup _ fun _ h => h).onFlag fun _ _ _ => rfl)).bind fun _ =>
    (Forgets.of ((blind_opcrGroup _ fun _ h => h).onFlag fun _ _ _ => rfl)).bind fun _ =>
  (Forgets.of ((blind_splGroup _ fun _ h => h).onFlag fun _ _ _ => rfl)).bind fun _ =>
    (Forgets.of ((blind_tpdGroup _ fun _ h => h).onFlag fun _ _ _ => rfl)).bind fun _ =>
  (forgets_extensionGroup.onFlag fun _ _ _ => rfl).bind fun _ => (Forgets.of (blind_stuffing fun _ h =>
    h)).bind fun _ => Forgets.of (blind_fields (fun _ => ⟨rfl, rfl, rfl, rfl, rfl, rfl⟩) fun _ _ _ => rfl)

theorem forgets_decodeBody :
    Forgets AnyHidden AnyHidden (do hdrGroup none; onFlag (·.p.afp) afSeq; onFlag (·.p.plp) payload : Op Unit) :=
  (Forgets.of (blind_hdrGroup _)).bind fun _ => ((forgets_afSeq.weak (fun _ h => h) fun _ _ =>
    trivial).onFlag fun _ _ _ => rfl).bind fun _ => Forgets.of (blind_payload.onFlag fun _ _ _ => rfl)

/-- `DECODE` as its body from the cleared state, then its end (41_packet_decoder.md R162, R168). -/
theorem decode_body (s : State) : settleComposite decodeOp s =
    match (do hdrGroup none; onFlag (·.p.afp) afSeq; onFlag (·.p.plp) payload : Op Unit) (s.clearAll.seek (0,0)) with
    | .ok _ t => .next t.finish
    | .error e t => .next (t.takeError .composite e) := by
  have e : decodeOp s = (do hdrGroup none; onFlag (·.p.afp) afSeq; onFlag (·.p.plp) payload; finishOp :
    Op Unit) (s.clearAll.seek (0,0)) := by
    rw [decodeOp, bind_ok (modify_apply _ _), bind_ok (rewind_apply _)]
  unfold settleComposite
  rw [e]
  simp only [bind_apply]
  cases h1 : hdrGroup none (s.clearAll.seek (0,0)) with
  | error e u => rfl
  | ok v u =>
    simp only []
    cases h2 : onFlag (fun x => x.p.afp) afSeq u with
    | error e u => rfl
    | ok v u =>
      simp only []
      cases h3 : onFlag (fun x => x.p.plp) payload u with
      | error e u => rfl
      | ok v u => rfl

end Sys2Proof.Machine
end

