-- ==== Sys2Proof/Laws/Layout.lean ====
section
/-! SUPPORT. The layout definitions: bytes and numbers of the buffer, where the regions stand,
  and that what the layouts describe is tidy. -/

namespace Sys2Proof.Machine

theorem bytesAt_length (s : State) (o k : Nat) : (s.bytesAt o k).length = k := by
  induction k generalizing o with
  | zero => rfl
  | succ k ih => simp [State.bytesAt, ih]

theorem bytesAt_getD (s : State) (o k i : Nat) (h : i < k) : (s.bytesAt o k).getD i 0 = s.memRead (o + i) := by
  induction k generalizing o i with
  | zero => omega
  | succ k ih =>
    cases i with
    | zero => simp [State.bytesAt]
    | succ i => simp only [State.bytesAt, List.getD_cons_succ]; rw [ih _ _ (by omega)]; congr 1; omega

theorem bytesAt_eq_map (s : State) (o k : Nat) : s.bytesAt o k = (List.range k).map fun i => s.memRead (o + i) := by
  induction k generalizing o with
  | zero => rfl
  | succ k ih =>
    rw [State.bytesAt, ih, List.range_succ_eq_map]
    simp only [List.map_cons, List.map_map, Nat.add_zero]
    congr 1
    apply List.map_congr_left
    intro a _; simp only [Function.comp]; congr 1; omega

theorem bytesAt_split (s : State) (o n k : Nat) (h : k ≤ n) : s.bytesAt o n = s.bytesAt o k ++ s.bytesAt (o +
    k) (n - k) := by
  induction k generalizing o n with
  | zero => simp [State.bytesAt]
  | succ k ih =>
    obtain ⟨m, rfl⟩ : ∃ m, n = m + 1 := ⟨n - 1, by omega⟩
    simp only [State.bytesAt, List.cons_append]
    rw [ih (o+1) m (by omega)]
    congr 3 <;> omega

/-- Bytes at the front of the window are bytes of the buffer at the cursor. -/
theorem window_front {s : State} {b : Byte} {l rest : List Byte} (h : s.window = b :: l ++ rest) :
    b :: l = s.bytesAt s.bp (l.length + 1) ∧ s.bp + (l.length + 1) ≤ s.len := by
  have hl : (min 256 (s.len - s.bp)) = l.length + 1 + rest.length := by
    have := congrArg List.length h
    rw [State.window, bytesAt_length, List.length_append] at this; exact this
  rw [State.window, bytesAt_split _ _ _ (l.length+1) (by omega)] at h
  have := (List.append_inj h (bytesAt_length _ _ _)).1
  exact ⟨this.symm, by omega⟩

theorem ofNat_number_two (s : State) (o : Nat) : BitVec.ofNat 16 (s.number o 2) = s.memRead o ++ s.memRead (o+1) := by
  apply BitVec.eq_of_toNat_eq
  have b0 := (s.memRead o).isLt
  have b1 := (s.memRead (o + 1)).isLt
  simp only [BitVec.toNat_ofNat, number_two, toNat_append_eq]; omega

theorem ofNat_number_three (s : State) (o : Nat) : BitVec.ofNat 24 (s.number o 3) = s.memRead o ++
    s.memRead (o+1) ++ s.memRead (o+2) := by
  apply BitVec.eq_of_toNat_eq
  have b0 := (s.memRead o).isLt
  have b1 := (s.memRead (o + 1)).isLt
  have b2 := (s.memRead (o + 2)).isLt
  simp only [BitVec.toNat_ofNat, number_three, toNat_append_eq]; omega

theorem ofNat_number_four (s : State) (o : Nat) : BitVec.ofNat 32 (s.number o 4) = s.memRead o ++ s.memRead (o+1) ++
    s.memRead (o+2) ++ s.memRead (o+3) := by
  apply BitVec.eq_of_toNat_eq
  have b0 := (s.memRead o).isLt
  have b1 := (s.memRead (o + 1)).isLt
  have b2 := (s.memRead (o + 2)).isLt
  have b3 := (s.memRead (o + 3)).isLt
  simp only [BitVec.toNat_ofNat, number_four, toNat_append_eq]; omega

theorem ofNat_number_five (s : State) (o : Nat) : BitVec.ofNat 40 (s.number o 5) = s.memRead o ++ s.memRead (o+1) ++
    s.memRead (o+2) ++ s.memRead (o+3) ++ s.memRead (o+4) := by
  apply BitVec.eq_of_toNat_eq
  have b0 := (s.memRead o).isLt
  have b1 := (s.memRead (o + 1)).isLt
  have b2 := (s.memRead (o + 2)).isLt
  have b3 := (s.memRead (o + 3)).isLt
  have b4 := (s.memRead (o + 4)).isLt
  simp only [BitVec.toNat_ofNat, number_five, toNat_append_eq]; omega

theorem ofNat_number_six (s : State) (o : Nat) : BitVec.ofNat 48 (s.number o 6) = s.memRead o ++ s.memRead (o+1) ++
    s.memRead (o+2) ++ s.memRead (o+3) ++ s.memRead (o+4) ++ s.memRead (o+5) := by
  apply BitVec.eq_of_toNat_eq
  have b0 := (s.memRead o).isLt
  have b1 := (s.memRead (o + 1)).isLt
  have b2 := (s.memRead (o + 2)).isLt
  have b3 := (s.memRead (o + 3)).isLt
  have b4 := (s.memRead (o + 4)).isLt
  have b5 := (s.memRead (o + 5)).isLt
  simp only [BitVec.toNat_ofNat, State.number, toNat_append_eq, Nat.add_zero]; omega

theorem layoutA_afl (s : State) (o : Nat) : (s.layoutA o).afl = s.memRead o := (length_of_head s o).symm

theorem layoutX_afxl (s : State) (o : Nat) : (s.layoutX o).afxl = s.memRead o := (length_of_head s o).symm

/-- The stuffing starts past the head. -/
theorem stfAt_ge (s : State) (o : Nat) : s.stfAt o ≥ o + 2 := by
  have h1 : o + 2 ≤ s.opcrAt o := Nat.le_add_right ..
  have h2 : s.opcrAt o ≤ s.splAt o := Nat.le_add_right ..
  have h3 : s.splAt o ≤ s.tpdAt o := Nat.le_add_right ..
  have h4 : s.tpdAt o ≤ s.afxAt o := Nat.le_add_right ..
  have h5 : s.afxAt o ≤ s.stfAt o := Nat.le_add_right ..
  omega

theorem clearP_tidy : GroupP.clear.Tidy := by simp [GroupP.Tidy, GroupP.clear]

theorem clearA_tidy : GroupA.clear.Tidy := by simp [GroupA.Tidy, GroupA.clear]

theorem clearX_tidy : GroupX.clear.Tidy := by simp [GroupX.Tidy, GroupX.clear]

/-- Group A of a layout is tidy (10_state.md R31 to R33). -/
theorem layoutA_tidy (s : State) (o : Nat) (hs : s.stfAt o ≥ o + 2) : (s.layoutA o).Tidy := by
  refine ⟨?_, ?_, ?_, ?_, ?_, ?_, ?_⟩
  · intro h; show orZero _ _ = _; rw [show (s.layoutF o).pcr = false from h]; rfl
  · intro h; show orZero _ _ = _; rw [show (s.layoutF o).opcr = false from h]; rfl
  · intro h; show orZero _ _ = _; rw [show (s.layoutF o).spl = false from h]; rfl
  · intro h; show orZero _ _ = _; rw [show (s.layoutF o).tpd = false from h]; rfl
  · show (if (s.layoutF o).tpd then s.bytesAt _ _ else []).length = (orZero (s.layoutF o).tpd _).toNat
    cases (s.layoutF o).tpd
    · rfl
    · exact bytesAt_length _ _ _
  · show decide (0 < s.fieldEnd o - s.stfAt o) = true ↔ 0 < (BitVec.ofNat 8 (s.fieldEnd o - s.stfAt o)).toNat
    have := (s.memRead o).isLt
    have hE : s.fieldEnd o = o + 1 + (s.memRead o).toNat := rfl
    rw [BitVec.toNat_ofNat, Nat.mod_eq_of_lt (by omega)]; simp
  · intro h; show (if 0 < s.fieldEnd o - s.stfAt o then s.stfAt o else 0) = 0
    rw [if_neg]; exact of_decide_eq_false h

/-- Group X of a layout is tidy (10_state.md R35). -/
theorem layoutX_tidy (s : State) (o : Nat) : (s.layoutX o).Tidy := by
  refine ⟨?_, ?_, ?_⟩
  · intro h
    have h : (s.extHead o).getLsbD 7 = false := h
    constructor
    · show ((s.extHead o).getLsbD 7 && _) = false; rw [h]; rfl
    · show orZero ((s.extHead o).getLsbD 7) _ = 0; rw [h]; rfl
  · intro h; have h : (s.extHead o).getLsbD 6 = false := h
    show orZero ((s.extHead o).getLsbD 6) _ = 0; rw [h]; rfl
  · intro h; have h : (s.extHead o).getLsbD 5 = false := h
    constructor
    · show orZero ((s.extHead o).getLsbD 5) _ = 0; rw [h]; rfl
    · show orZero ((s.extHead o).getLsbD 5) _ = 0; rw [h]; rfl

end Sys2Proof.Machine
end

