-- ==== Sys2Proof/Laws/Seeks.lean ====
section
/-! SUPPORT. The reads of the regions move the cursor and do nothing else. -/

namespace Sys2Proof.Machine

theorem pbit_seek (s : State) : ∃ c, endOf (pbit s) = s.seek c := by
  unfold pbit; split
  · exact ⟨_, (State.seek_here s).symm⟩
  · exact ⟨_, rfl⟩

theorem pbits_seek (n) (s : State) : ∃ c, endOf (pbits n s) = s.seek c := by
  unfold pbits; repeat' split
  all_goals first | exact ⟨_, rfl⟩ | exact ⟨_, (State.seek_here s).symm⟩

theorem pbyte_seek (s : State) : ∃ c, endOf (pbyte s) = s.seek c := by
  unfold pbyte; repeat' split
  all_goals first | exact ⟨_, rfl⟩ | exact ⟨_, (State.seek_here s).symm⟩

theorem pwide_seek (n) (s : State) : ∃ c, endOf (pwide n s) = s.seek c := by
  unfold pwide; dsimp only; repeat' split
  all_goals first | exact ⟨_, rfl⟩ | exact ⟨_, (State.seek_here s).symm⟩

/-- A cursor command writes no result register, latch, budget or sequencer state (40_cursor.md R141). -/
theorem settleRaw_keeps {α} {v : α → BitVec 16} {m : Op α} {s t : State} (hm : ∀ s, ∃ c, endOf (m s) = s.seek c) (h :
    settleRaw v m s = .next t) :
   t.p = s.p ∧ t.a = s.a ∧ t.x = s.x ∧ t.f = s.f ∧ t.afEnd = s.afEnd ∧ t.afxEnd = s.afxEnd ∧ t.seq = s.seq := by
  obtain ⟨c, hc⟩ := hm s
  unfold settleRaw at h
  cases hms : m s with
  | ok x u => rw [hms] at h hc; cases h; cases hc; exact ⟨rfl, rfl, rfl, rfl, rfl, rfl, rfl⟩
  | error e u => rw [hms] at h hc; cases h; cases hc; exact ⟨rfl, rfl, rfl, rfl, rfl, rfl, rfl⟩

/-- The part of an operation moves the cursor forward and writes nothing else. -/
def Seeks {α} (m : Op α) : Prop := ∀ s, ∃ c, endOf (m s) = s.seek c ∧ s.bp ≤ c.1

/-- A framed part that ends at its start with the cursor moved. -/
theorem seeks_of {α} {m : Op α} (fr : Framed m) (h : ∀ s, ∃ c, endOf (m s) = s.seek c) : Seeks m := by
  intro s
  obtain ⟨c, hc⟩ := h s
  refine ⟨c, hc, ?_⟩
  have := (fr s).forward
  rw [hc] at this
  simp only [State.bitAddr, State.seek_bp, State.seek_bo] at this
  have := c.2.isLt; omega

theorem Seeks.bind {α β} {m : Op α} {g : α → Op β} (h : Seeks m) (k : ∀ v, Seeks (g v)) : Seeks (m >>= g) := by
  intro s
  rw [bind_apply]
  obtain ⟨c, hc, hb⟩ := h s
  cases hm : m s with
  | ok x u =>
    rw [hm] at hc; simp only [endOf_ok] at hc; subst hc
    obtain ⟨d, hd, hb2⟩ := k x (s.seek c)
    exact ⟨d, hd, by simp at hb2; omega⟩
  | error e u => rw [hm] at hc; exact ⟨c, hc, hb⟩

theorem Seeks.pure {α} (v : α) : Seeks (Pure.pure v : Op α) := fun s => ⟨(s.bp, s.bo), rfl, Nat.le_refl _⟩

theorem Seeks.given {α} {v : Option α} {m : Op α} (h : Seeks m) : Seeks (given v m) :=
    Seeks.bind h fun _ => Seeks.pure _

theorem pbit_seeks : Seeks pbit := seeks_of framed_pbit pbit_seek

theorem pbits_seeks (n) : Seeks (pbits n) := seeks_of (framed_pbits n) (pbits_seek n)

theorem pbyte_seeks : Seeks pbyte := seeks_of framed_pbyte pbyte_seek

theorem pwide_seeks (n) : Seeks (pwide n) := seeks_of (framed_pwide n) (pwide_seek n)

theorem need_seeks (k e) : Seeks (need k e) := by
  intro s; refine ⟨(s.bp, s.bo), ?_, Nat.le_refl _⟩; unfold need; split <;> rfl

theorem skip_seeks (k) : Seeks (skip k) := by
  induction k with
  | zero => exact Seeks.pure _
  | succ k ih => exact Seeks.bind pbyte_seeks fun _ => ih

theorem pullBytes_seeks (k) : Seeks (pullBytes k) := by
  induction k with
  | zero => exact Seeks.pure _
  | succ k ih => exact Seeks.bind pbyte_seeks fun _ => Seeks.bind ih fun _ => Seeks.pure _

theorem pull48_seeks : Seeks pull48 := Seeks.bind pbyte_seeks fun _ => Seeks.bind pbyte_seeks fun _ =>
    Seeks.bind pbyte_seeks fun _ => Seeks.bind pbyte_seeks fun _ => Seeks.bind pbyte_seeks fun _ =>
    Seeks.bind pbyte_seeks fun _ => Seeks.pure _

theorem readHdr_seeks : Seeks readHdr :=
  Seeks.bind pbyte_seeks fun _ => Seeks.bind pbit_seeks fun _ => Seeks.bind pbit_seeks fun _ =>
    Seeks.bind pbit_seeks fun _ => Seeks.bind (pwide_seeks 13) fun _ => Seeks.bind (pbits_seeks 2) fun _ =>
      Seeks.bind pbit_seeks fun _ => Seeks.bind pbit_seeks fun _ => Seeks.bind (pbits_seeks 4) fun _ => Seeks.pure _

theorem readAfFlags_seeks (len stop) : Seeks (readAfFlags len stop) :=
  Seeks.bind (need_seeks 1 stop) fun _ => Seeks.bind pbit_seeks fun _ => Seeks.bind pbit_seeks fun _ =>
    Seeks.bind pbit_seeks fun _ => Seeks.bind pbit_seeks fun _ => Seeks.bind pbit_seeks fun _ =>
      Seeks.bind pbit_seeks fun _ => Seeks.bind pbit_seeks fun _ => Seeks.bind pbit_seeks fun _ => Seeks.pure _

theorem readAfxFlags_seeks (len stop) : Seeks (readAfxFlags len stop) :=
  Seeks.bind (need_seeks 1 stop) fun _ => Seeks.bind pbit_seeks fun _ => Seeks.bind pbit_seeks fun _ =>
    Seeks.bind pbit_seeks fun _ => Seeks.bind (pbits_seeks 5) fun _ => Seeks.pure _

theorem needAf_seeks (k) : Seeks (needAf k) := fun s => need_seeks k s.afEnd s

theorem needAfx_seeks (k) : Seeks (needAfx k) := fun s => need_seeks k s.afxEnd s

theorem needWithin_seeks (k l) : Seeks (needWithin k l) := by cases l; exact Seeks.pure _; exact need_seeks _ _

theorem extensionEnd_seeks (len l) : Seeks (extensionEnd len l) := by
  intro s; refine ⟨(s.bp, s.bo), ?_, Nat.le_refl _⟩; unfold extensionEnd; cases l
  · rfl
  · dsimp only; split <;> rfl

theorem readLtw_seeks : Seeks readLtw := Seeks.bind pbit_seeks fun _ => Seeks.bind (pwide_seeks 15) fun _ =>
    Seeks.pure _

theorem readRate_seeks : Seeks readRate := Seeks.bind (pbits_seeks 2) fun _ => Seeks.bind (pwide_seeks 14) fun _ =>
    Seeks.bind pbyte_seeks fun _ => Seeks.pure _

theorem readSms_seeks : Seeks readSms := Seeks.bind (pbits_seeks 4) fun _ => Seeks.bind (pbits_seeks 3) fun _ =>
      Seeks.bind pbit_seeks fun _ => Seeks.bind (pwide_seeks 15) fun _ => Seeks.bind pbit_seeks fun _ =>
        Seeks.bind (pwide_seeks 15) fun _ => Seeks.bind pbit_seeks fun _ => Seeks.pure _

end Sys2Proof.Machine
end

