-- ==== Sys2Proof/Laws/Tidy.lean ====
section
/-! SUPPORT. Every part of an operation keeps the result registers tidy (10_state.md R29, R31 to R33,
  R35) and at most 255 bytes of adaptation field ahead; where the sequencer stands afterwards. -/

namespace Sys2Proof.Machine

/-- The result registers are tidy, and at most 255 bytes of adaptation field lie ahead (20_memory.md R70). -/
def TidyAhead (s : State) : Prop := s.p.Tidy ∧ s.a.Tidy ∧ s.x.Tidy ∧ s.afEnd ≤ s.bp + 255

/-- A part of an operation that, where it succeeds, keeps `TidyAhead`. -/
def KeepsTidy {α} (m : Op α) : Prop := ∀ s v t, TidyAhead s → m s = .ok v t → TidyAhead t

theorem KeepsTidy.bind {α β} {m : Op α} {g : α → Op β} (h : KeepsTidy m) (k : ∀ v, KeepsTidy (g v)) :
    KeepsTidy (m >>= g) := by
  intro s v t hs e
  rw [bind_apply] at e
  cases hm : m s with
  | ok x u => rw [hm] at e; exact k x u v t (h s x u hs hm) e
  | error _ u => rw [hm] at e; cases e

theorem Seeks.keepsTidy {α} {m : Op α} (h : Seeks m) : KeepsTidy m := by
  intro s v t hs e
  obtain ⟨c, hc, hb⟩ := h s
  rw [e] at hc; simp only [endOf_ok] at hc; subst hc
  obtain ⟨h1, h2, h3, h4⟩ := hs
  exact ⟨h1, h2, h3, by simp only [State.seek_afEnd, State.seek_bp]; omega⟩

theorem KeepsTidy.modify {g : State → State} (h : ∀ s, TidyAhead s → TidyAhead (g s)) : KeepsTidy (modify g :
    Op Unit) := by
  intro s v t hs e; cases e; exact h s hs

theorem hdrGroup_keepsTidy (o) : KeepsTidy (hdrGroup o) := KeepsTidy.bind (readHdr_seeks.given).keepsTidy fun _ =>
    KeepsTidy.modify fun s h => h

theorem afHeadGroup_keepsTidy (o) : KeepsTidy (afHeadGroup o) := by
  refine KeepsTidy.bind pbyte_seeks.given.keepsTidy fun len => ?_
  intro s v t hs e
  rw [bind_ok (show endAfter len s = .ok _ _ from rfl)] at e
  rw [bind_apply] at e
  cases hm : given o (readAfFlags len (s.bp + len.toNat)) s with
  | error _ u => rw [hm] at e; cases e
  | ok x u =>
    rw [hm] at e; cases e
    obtain ⟨c, hc, hb⟩ := (readAfFlags_seeks len (s.bp + len.toNat)).given (v := o) s
    rw [hm] at hc; simp only [endOf_ok] at hc; subst hc
    obtain ⟨h1, h2, h3, h4⟩ := hs
    refine ⟨h1, h2, h3, ?_⟩
    show s.bp + len.toNat ≤ c.1 + 255
    have := len.isLt; omega

theorem pcrGroup_keepsTidy (o) : KeepsTidy (pcrGroup o) := KeepsTidy.bind (needAf_seeks _).keepsTidy fun _ =>
    KeepsTidy.bind pull48_seeks.given.keepsTidy fun _ => KeepsTidy.modify fun s h => by
  obtain ⟨h1, ⟨a1,a2,a3,a4,a5,a6,a7⟩, h3, h4⟩ := h
  exact ⟨h1, ⟨(fun k => nomatch k),a2,a3,a4,a5,a6,a7⟩, h3, h4⟩

theorem opcrGroup_keepsTidy (o) : KeepsTidy (opcrGroup o) := KeepsTidy.bind (needAf_seeks _).keepsTidy fun _ =>
    KeepsTidy.bind pull48_seeks.given.keepsTidy fun _ => KeepsTidy.modify fun s h => by
  obtain ⟨h1, ⟨a1,a2,a3,a4,a5,a6,a7⟩, h3, h4⟩ := h
  exact ⟨h1, ⟨a1,(fun k => nomatch k),a3,a4,a5,a6,a7⟩, h3, h4⟩

theorem splGroup_keepsTidy (o) : KeepsTidy (splGroup o) := KeepsTidy.bind (needAf_seeks _).keepsTidy fun _ =>
    KeepsTidy.bind pbyte_seeks.given.keepsTidy fun _ => KeepsTidy.modify fun s h => by
  obtain ⟨h1, ⟨a1,a2,a3,a4,a5,a6,a7⟩, h3, h4⟩ := h
  exact ⟨h1, ⟨a1,a2,(fun k => nomatch k),a4,a5,a6,a7⟩, h3, h4⟩

theorem pullBytes_length {k : Nat} : ∀ {s t : State} {bs}, pullBytes k s = .ok bs t → bs.length = k := by
  induction k with
  | zero => intro s t bs e; cases e; rfl
  | succ k ih =>
    intro s t bs e
    rw [pullBytes, bind_apply] at e
    cases h : pbyte s with
    | error _ _ => rw [h] at e; cases e
    | ok b u =>
      rw [h] at e; simp only [bind_apply] at e
      cases h2 : pullBytes k u with
      | error _ _ => rw [h2] at e; cases e
      | ok bs' u' => rw [h2] at e; cases e; simp [ih h2]

theorem tpdGroup_keepsTidy (o : Option (Byte × List Byte)) (ho : ∀ n bs, o = some (n, bs) → bs.length = n.toNat) :
    KeepsTidy (tpdGroup o) := by
  refine KeepsTidy.bind (needAf_seeks _).keepsTidy fun _ => ?_
  intro s v t hs e
  rw [bind_apply] at e
  cases hm : given (o.map (·.1)) pbyte s with
  | error _ u => rw [hm] at e; cases e
  | ok n u =>
    have hu := (pbyte_seeks.given (v := o.map (·.1))).keepsTidy _ _ _ hs hm
    have hn : ∀ m bs, o = some (m, bs) → n = m := by
      intro m bs h; subst h
      rw [given_apply] at hm; split at hm <;> cases hm; rfl
    rw [hm] at e; simp only [bind_apply] at e
    cases hk : needAf n.toNat u with
    | error _ w => rw [hk] at e; cases e
    | ok _ w =>
      have hw := (needAf_seeks _).keepsTidy _ _ _ hu hk
      rw [hk] at e; simp only at e
      cases hq : given (o.map (·.2)) (pullBytes n.toNat) w with
      | error _ z => rw [hq] at e; cases e
      | ok bytes z =>
        have hz := ((pullBytes_seeks _).given (v := o.map (·.2))).keepsTidy _ _ _ hw hq
        rw [hq] at e; cases e
        have hlen : bytes.length = n.toNat := by
          rw [given_apply] at hq
          split at hq
          · rename_i r s' hp
            cases hq
            cases o with
            | none => exact pullBytes_length hp
            | some p => obtain ⟨m, bs⟩ := p; rw [hn m bs rfl]; exact ho m bs rfl
          · cases hq
        obtain ⟨h1, ⟨a1,a2,a3,a4,a5,a6,a7⟩, h3, h4⟩ := hz
        exact ⟨h1, ⟨a1,a2,a3,(fun k => nomatch k),hlen,a6,a7⟩, h3, h4⟩

theorem afxHeadGroup_keepsTidy (o l) : KeepsTidy (afxHeadGroup o l) :=
    KeepsTidy.bind (needWithin_seeks _ _).keepsTidy fun _ => KeepsTidy.bind pbyte_seeks.given.keepsTidy fun _ =>
    KeepsTidy.bind (extensionEnd_seeks _ _).keepsTidy fun _ =>
    KeepsTidy.bind (readAfxFlags_seeks _ _).given.keepsTidy fun _ => KeepsTidy.modify fun s h => h

theorem ltwGroup_keepsTidy (o) : KeepsTidy (ltwGroup o) := KeepsTidy.bind (needAfx_seeks _).keepsTidy fun _ =>
    KeepsTidy.bind readLtw_seeks.given.keepsTidy fun _ => KeepsTidy.modify fun s h => by
  obtain ⟨h1, h2, ⟨x1,x2,x3⟩, h4⟩ := h
  exact ⟨h1, h2, ⟨(fun k => nomatch k),x2,x3⟩, h4⟩

theorem pwrGroup_keepsTidy (o) : KeepsTidy (pwrGroup o) := KeepsTidy.bind (needAfx_seeks _).keepsTidy fun _ =>
    KeepsTidy.bind readRate_seeks.given.keepsTidy fun _ => KeepsTidy.modify fun s h => by
  obtain ⟨h1, h2, ⟨x1,x2,x3⟩, h4⟩ := h
  exact ⟨h1, h2, ⟨x1,(fun k => nomatch k),x3⟩, h4⟩

theorem smsGroup_keepsTidy (o) : KeepsTidy (smsGroup o) := KeepsTidy.bind (needAfx_seeks _).keepsTidy fun _ =>
    KeepsTidy.bind readSms_seeks.given.keepsTidy fun _ => KeepsTidy.modify fun s h => by
  obtain ⟨h1, h2, ⟨x1,x2,x3⟩, h4⟩ := h
  exact ⟨h1, h2, ⟨x1,x2,(fun k => nomatch k)⟩, h4⟩

theorem KeepsTidy.onFlag {c} {m : Op Unit} (h : KeepsTidy m) : KeepsTidy (onFlag c m) := by
  intro s v t hs e
  unfold Machine.onFlag at e; split at e
  · exact h s v t hs e
  · cases e; exact hs

theorem afxPadding_keepsTidy : KeepsTidy afxPadding := fun s v t hs e => (skip_seeks _).keepsTidy s v t hs e

theorem stuffing_keepsTidy : KeepsTidy stuffing := by
  intro s v t hs e
  unfold stuffing at e
  dsimp only at e
  split at e
  · cases e; exact hs
  · rename_i hk
    refine (skip_seeks _).keepsTidy _ _ _ ?_ e
    obtain ⟨h1, ⟨a1,a2,a3,a4,a5,a6,a7⟩, h3, h4⟩ := hs
    refine ⟨h1, ⟨a1,a2,a3,a4,a5,?_,(fun k => nomatch k)⟩, h3, h4⟩
    simp only [BitVec.toNat_ofNat, true_iff]
    rw [Nat.mod_eq_of_lt (by omega)]; omega

theorem payload_keepsTidy : KeepsTidy payload := KeepsTidy.modify fun s h => ⟨(fun k => nomatch k), h.2⟩

theorem finishOp_keepsTidy : KeepsTidy finishOp := KeepsTidy.modify fun s h => ⟨h.1, h.2.1, h.2.2.1, Nat.zero_le _⟩

theorem parkAt_keepsTidy (op r) : KeepsTidy (modify (State.parkAt op r) : Op Unit) := KeepsTidy.modify fun s h => by
  obtain ⟨h1, h2, h3, h4⟩ := h
  cases r <;> first | exact ⟨h1, h2, h3, h4⟩ | exact ⟨h1, clearA_tidy, clearX_tidy, h4⟩ | exact ⟨h1, h2, clearX_tidy,
    h4⟩

theorem endPacket_keepsTidy (op) : KeepsTidy (endPacket op) :=
    KeepsTidy.bind (KeepsTidy.onFlag payload_keepsTidy) fun _ => finishOp_keepsTidy

theorem endAf_keepsTidy (op) : KeepsTidy (endAf op) := KeepsTidy.bind stuffing_keepsTidy fun _ =>
    KeepsTidy.bind (KeepsTidy.modify fun s h => h) fun _ => endPacket_keepsTidy op

theorem endAfx_keepsTidy (op) : KeepsTidy (endAfx op) := KeepsTidy.bind afxPadding_keepsTidy fun _ =>
    KeepsTidy.bind (KeepsTidy.modify fun s h => h) fun _ => by
  split
  · exact finishOp_keepsTidy
  · exact endAf_keepsTidy op

theorem endStructure_keepsTidy (op r) : KeepsTidy (endStructure op r) := by
  cases r <;> first | exact endPacket_keepsTidy op | exact endAf_keepsTidy op | exact endAfx_keepsTidy op

theorem advance_keepsTidy (op r) : KeepsTidy (advance op r) := by
  intro s v t hs e
  unfold advance parkOr at e
  cases hn : nextRegion op r s <;> rw [hn] at e
  · exact endStructure_keepsTidy op r s v t hs e
  · exact parkAt_keepsTidy op _ s v t hs e

theorem afxSeq_keepsTidy (l) : KeepsTidy (afxSeq l) := KeepsTidy.bind (KeepsTidy.modify fun s h => ⟨h.1, h.2.1,
    clearX_tidy, h.2.2.2⟩) fun _ => KeepsTidy.bind (afxHeadGroup_keepsTidy _ _) fun _ =>
    KeepsTidy.bind (KeepsTidy.onFlag (ltwGroup_keepsTidy _)) fun _ =>
    KeepsTidy.bind (KeepsTidy.onFlag (pwrGroup_keepsTidy _)) fun _ =>
    KeepsTidy.bind (KeepsTidy.onFlag (smsGroup_keepsTidy _)) fun _ => afxPadding_keepsTidy

theorem extensionGroup_keepsTidy : KeepsTidy extensionGroup := KeepsTidy.bind (fun s v t hs e =>
    afxSeq_keepsTidy (some s.afEnd) s v t hs e) fun _ => KeepsTidy.modify fun s h => h

theorem afSeq_keepsTidy : KeepsTidy afSeq := KeepsTidy.bind (KeepsTidy.modify fun s h => ⟨h.1, clearA_tidy,
    clearX_tidy, h.2.2.2⟩) fun _ => KeepsTidy.bind (afHeadGroup_keepsTidy _) fun _ =>
    KeepsTidy.bind (KeepsTidy.onFlag (pcrGroup_keepsTidy _)) fun _ =>
    KeepsTidy.bind (KeepsTidy.onFlag (opcrGroup_keepsTidy _)) fun _ =>
    KeepsTidy.bind (KeepsTidy.onFlag (splGroup_keepsTidy _)) fun _ =>
    KeepsTidy.bind (KeepsTidy.onFlag (tpdGroup_keepsTidy none (fun _ _ h => by cases h))) fun _ =>
    KeepsTidy.bind (KeepsTidy.onFlag extensionGroup_keepsTidy) fun _ => KeepsTidy.bind stuffing_keepsTidy fun _ =>
    KeepsTidy.modify fun s h => h

theorem hdrOp_keepsTidy : KeepsTidy hdrOp := KeepsTidy.bind (KeepsTidy.modify fun s h => ⟨clearP_tidy, clearA_tidy,
    clearX_tidy, h.2.2.2⟩) fun _ => KeepsTidy.bind (hdrGroup_keepsTidy _) fun _ => finishOp_keepsTidy

theorem afOp_keepsTidy : KeepsTidy afOp := KeepsTidy.bind afSeq_keepsTidy fun _ => finishOp_keepsTidy

theorem afxOp_keepsTidy : KeepsTidy afxOp := KeepsTidy.bind (afxSeq_keepsTidy _) fun _ =>
    KeepsTidy.bind (KeepsTidy.modify fun s h => h) fun _ => finishOp_keepsTidy

theorem settleRaw_tidy {α} {v : α → BitVec 16} {m : Op α} (hm : ∀ s, ∃ c, endOf (m s) = s.seek c) {s t : State} (h :
    settleRaw v m s = .next t) (hs : s.p.Tidy ∧ s.a.Tidy ∧ s.x.Tidy ∧ s.seq = none ∧ s.afEnd = 0 ∧ s.afxEnd = 0) :
   t.p.Tidy ∧ t.a.Tidy ∧ t.x.Tidy := by
  have k := settleRaw_keeps hm h
  rw [k.1, k.2.1, k.2.2.1]; exact ⟨hs.1, hs.2.1, hs.2.2.1⟩

theorem settleComposite_tidy {m : Op Unit} (fr : Framed m) (hm : KeepsTidy m) {s t : State} (h :
    settleComposite m s = .next t) (hs : TidyAhead s) : t.p.Tidy ∧ t.a.Tidy ∧ t.x.Tidy := by
  rcases settleComposite_cases fr s with ⟨w, hu, h2, hf⟩ | ⟨e, w, _, h2, hf⟩
  · rw [h2] at h; cases h; obtain ⟨a, b, c, _⟩ := hm s _ _ hs hu; exact ⟨a, b, c⟩
  · rw [h2] at h; cases h; exact ⟨clearP_tidy, clearA_tidy, clearX_tidy⟩

theorem regionReads_keepsTidy (op r) : KeepsTidy (regionReads op r) := by
  cases r
  · exact hdrGroup_keepsTidy _
  · exact afHeadGroup_keepsTidy _
  · exact pcrGroup_keepsTidy _
  · exact opcrGroup_keepsTidy _
  · exact splGroup_keepsTidy _
  · exact tpdGroup_keepsTidy _ (fun _ _ h => nomatch h)
  · exact fun s v t hs e => afxHeadGroup_keepsTidy _ _ s v t hs e
  · exact ltwGroup_keepsTidy _
  · exact pwrGroup_keepsTidy _
  · exact smsGroup_keepsTidy _

/-- A part of an operation that, where it succeeds, leaves `ST` BUSY. -/
def KeepsStatus {α} (m : Op α) : Prop := ∀ s v t, s.st = .busy → m s = .ok v t → t.st = .busy

theorem KeepsStatus.bind {α β} {m : Op α} {g : α → Op β} (h : KeepsStatus m) (k : ∀ v, KeepsStatus (g v)) :
    KeepsStatus (m >>= g) := by
  intro s v t hs e
  rw [bind_apply] at e
  cases hm : m s with
  | ok x u => rw [hm] at e; exact k x u v t (h s x u hs hm) e
  | error _ u => rw [hm] at e; cases e

theorem Seeks.keepsStatus {α} {m : Op α} (h : Seeks m) : KeepsStatus m := by
  intro s v t hs e
  obtain ⟨c, hc, hb⟩ := h s
  rw [e] at hc; simp only [endOf_ok] at hc; subst hc; exact hs

theorem KeepsStatus.modify {g : State → State} (h : ∀ s, (g s).st = s.st) : KeepsStatus (modify g : Op Unit) := by
  intro s v t hs e; cases e; exact (h s).trans hs

theorem hdrGroup_keepsStatus (o) : KeepsStatus (hdrGroup o) :=
    KeepsStatus.bind readHdr_seeks.given.keepsStatus fun _ => KeepsStatus.modify fun _ => rfl

theorem afHeadGroup_keepsStatus (o) : KeepsStatus (afHeadGroup o) :=
    KeepsStatus.bind pbyte_seeks.given.keepsStatus fun len => KeepsStatus.bind (Seeks.keepsStatus fun s =>
    ⟨(s.bp,s.bo), rfl, Nat.le_refl _⟩) fun _ => KeepsStatus.bind (readAfFlags_seeks _ _).given.keepsStatus fun _ =>
    KeepsStatus.modify fun _ => rfl

theorem pcrGroup_keepsStatus (o) : KeepsStatus (pcrGroup o) :=
    KeepsStatus.bind (needAf_seeks _).keepsStatus fun _ => KeepsStatus.bind pull48_seeks.given.keepsStatus fun _ =>
    KeepsStatus.modify fun _ => rfl

theorem opcrGroup_keepsStatus (o) : KeepsStatus (opcrGroup o) :=
    KeepsStatus.bind (needAf_seeks _).keepsStatus fun _ => KeepsStatus.bind pull48_seeks.given.keepsStatus fun _ =>
    KeepsStatus.modify fun _ => rfl

theorem splGroup_keepsStatus (o) : KeepsStatus (splGroup o) :=
    KeepsStatus.bind (needAf_seeks _).keepsStatus fun _ => KeepsStatus.bind pbyte_seeks.given.keepsStatus fun _ =>
    KeepsStatus.modify fun _ => rfl

theorem tpdGroup_keepsStatus (o) : KeepsStatus (tpdGroup o) :=
    KeepsStatus.bind (needAf_seeks _).keepsStatus fun _ => KeepsStatus.bind pbyte_seeks.given.keepsStatus fun _ =>
    KeepsStatus.bind (needAf_seeks _).keepsStatus fun _ =>
    KeepsStatus.bind (pullBytes_seeks _).given.keepsStatus fun _ => KeepsStatus.modify fun _ => rfl

theorem afxHeadGroup_keepsStatus (o l) : KeepsStatus (afxHeadGroup o l) :=
    KeepsStatus.bind (needWithin_seeks _ _).keepsStatus fun _ =>
    KeepsStatus.bind pbyte_seeks.given.keepsStatus fun _ =>
    KeepsStatus.bind (extensionEnd_seeks _ _).keepsStatus fun _ =>
    KeepsStatus.bind (readAfxFlags_seeks _ _).given.keepsStatus fun _ => KeepsStatus.modify fun _ => rfl

theorem ltwGroup_keepsStatus (o) : KeepsStatus (ltwGroup o) :=
    KeepsStatus.bind (needAfx_seeks _).keepsStatus fun _ =>
    KeepsStatus.bind readLtw_seeks.given.keepsStatus fun _ => KeepsStatus.modify fun _ => rfl

theorem pwrGroup_keepsStatus (o) : KeepsStatus (pwrGroup o) :=
    KeepsStatus.bind (needAfx_seeks _).keepsStatus fun _ =>
    KeepsStatus.bind readRate_seeks.given.keepsStatus fun _ => KeepsStatus.modify fun _ => rfl

theorem smsGroup_keepsStatus (o) : KeepsStatus (smsGroup o) :=
    KeepsStatus.bind (needAfx_seeks _).keepsStatus fun _ =>
    KeepsStatus.bind readSms_seeks.given.keepsStatus fun _ => KeepsStatus.modify fun _ => rfl

theorem regionReads_keepsStatus (op r) : KeepsStatus (regionReads op r) := by
  cases r
  · exact hdrGroup_keepsStatus _
  · exact afHeadGroup_keepsStatus _
  · exact pcrGroup_keepsStatus _
  · exact opcrGroup_keepsStatus _
  · exact splGroup_keepsStatus _
  · exact tpdGroup_keepsStatus _
  · exact fun s v t hs e => afxHeadGroup_keepsStatus _ _ s v t hs e
  · exact ltwGroup_keepsStatus _
  · exact pwrGroup_keepsStatus _
  · exact smsGroup_keepsStatus _

/-- The region that comes next is one the operation reads. -/
theorem nextRegion_readsRegion {op r r'} {s : State} (h : readsRegion op r = true) (hn :
    nextRegion op r s = some r') : readsRegion op r' = true := by
  have A : ∀ r, r ∈ [Region.pcr, .opcr, .spl, .tpd, .afxHead] → readsRegion .af r = true ∧ readsRegion .decode r =
    true := by decide
  cases op <;> cases r <;> simp [readsRegion] at h <;> first | rfl | skip
  all_goals
    simp only [nextRegion, Latches.fromPcr, Latches.fromOpcr, Latches.fromSpl, Latches.fromTpd, Latches.fromAfx,
      GroupX.fromLtw, GroupX.fromPwr, GroupX.fromSms] at hn
    repeat' split at hn
  all_goals first | (cases hn; done) | (cases hn; rfl) | skip
  all_goals simp_all

theorem endPacket_idle {op s v t} (h : endPacket op s = .ok v t) : t.seq = none ∧ t.afEnd = 0 ∧ t.afxEnd = 0 ∧
    t.st = .doneOk := by
  rw [endPacket_ok] at h; cases h; exact ⟨rfl, rfl, rfl, rfl⟩

theorem endAf_idle {op s v t} (h : endAf op s = .ok v t) : t.seq = none ∧ t.afEnd = 0 ∧ t.afxEnd = 0 ∧
    t.st = .doneOk := by
  rw [endAf, bind_apply] at h
  split at h
  · exact endPacket_idle h
  · cases h

theorem endAfx_idle {op s v t} (h : endAfx op s = .ok v t) : t.seq = none ∧ t.afEnd = 0 ∧ t.afxEnd = 0 ∧
    t.st = .doneOk := by
  rw [endAfx, bind_apply] at h
  split at h
  · rw [bind_ok (modify_apply _ _)] at h
    split at h
    · cases h; exact ⟨rfl, rfl, rfl, rfl⟩
    · exact endAf_idle h
  · cases h

/-- The end of a structure is the end of the operation: DONE_OK, the budgets gone, the sequencer idle. -/
theorem endStructure_idle {op r s v t} (h : endStructure op r s = .ok v t) : t.seq = none ∧ t.afEnd = 0 ∧ t.afxEnd =
    0 ∧ t.st = .doneOk := by
  cases r <;> first | exact endPacket_idle h | exact endAf_idle h | exact endAfx_idle h

end Sys2Proof.Machine
end

