-- ==== Sys2Proof/Laws/Chain.lean ====
section
/-! SUPPORT. A composite operation as what remains of it from each region on: the atomic
operations and the sequencer go the same way (00_scope.md R11, 10_state.md R38). -/

namespace Sys2Proof.Machine

/-- The state with another sequencer position and status. -/
def State.withSeq (q : Option (Composite × Region)) (b : Status) (s : State) : State := { s with seq := q, st := b }

/-- A result with another sequencer position and status. -/
def resultWithSeq {α} (q : Option (Composite × Region)) (b : Status) :
    EStateM.Result DecodeError State α → EStateM.Result DecodeError State α
  | .ok v s => .ok v (State.withSeq q b s)
  | .error e s => .error e (State.withSeq q b s)

/-- A part of an operation that does not look at the sequencer and `ST`. -/
def IgnoresSeq {α} (m : Op α) : Prop := ∀ q b s, m (State.withSeq q b s) = resultWithSeq q b (m s)

/-- The end of an operation is the same whatever the sequencer and `ST` held. -/
def EndsAlike (m : Op Unit) : Prop := ∀ q b s, settleComposite m (State.withSeq q b s) = settleComposite m s

theorem IgnoresSeq.of {α} {m : Op α} (h : Blind EndsSeen m) : IgnoresSeq m := fun q b s => by
  have h1 := h.same ⟨s.data, b, s.err, s.rval, q, s.script, none, none⟩ s ⟨rfl, rfl⟩ (fun _ _ => rfl)
  have h0 := h.same ⟨s.data, s.st, s.err, s.rval, s.seq, s.script, none, none⟩ s ⟨rfl, rfl⟩ (fun _ _ => rfl)
  have e1 : s.under ⟨s.data, b, s.err, s.rval, q, s.script, none, none⟩ = State.withSeq q b s := rfl
  have e0 : s.under ⟨s.data, s.st, s.err, s.rval, s.seq, s.script, none, none⟩ = s := rfl
  rw [e1] at h1; rw [e0] at h0; rw [h1]
  cases hm : m s with
  | ok v t => rw [hm] at h0; simp only [resultUnder, EStateM.Result.ok.injEq, true_and] at h0; simp only [resultUnder,
    resultWithSeq]; rw [h0]; rfl
  | error e t => rw [hm] at h0; simp only [resultUnder, EStateM.Result.error.injEq,
    true_and] at h0; simp only [resultUnder, resultWithSeq]; rw [h0]; rfl

theorem EndsAlike.bind {α} {m : Op α} {g : α → Op Unit} (h : IgnoresSeq m) (k : ∀ v, EndsAlike (g v)) :
    EndsAlike (m >>= g) := fun q b s => by
  have := h q b s
  unfold settleComposite
  rw [bind_apply, bind_apply, this]
  cases hm : m s with
  | ok v t => exact k v q b t
  | error e t => rfl

theorem finishOp_endsAlike : EndsAlike finishOp := fun _ _ _ => rfl

theorem endPacket_endsAlike (op) : EndsAlike (endPacket op) :=
    EndsAlike.bind (IgnoresSeq.of (blind_payload.onFlag fun _ _ _ => rfl)) fun _ => finishOp_endsAlike

theorem endAf_endsAlike (op) : EndsAlike (endAf op) := EndsAlike.bind (IgnoresSeq.of (blind_stuffing fun _ h =>
    h.1)) fun _ => EndsAlike.bind (IgnoresSeq.of (blind_fields (g := fun s => { s with p := { s.p with afV :=
    true } }) (fun _ => ⟨rfl, rfl, rfl, rfl, rfl, rfl⟩) fun _ _ _ => rfl)) fun _ => endPacket_endsAlike op

theorem endAfx_endsAlike (op) : EndsAlike (endAfx op) := EndsAlike.bind (IgnoresSeq.of (blind_afxPadding fun _ h =>
    h.2)) fun _ => EndsAlike.bind (IgnoresSeq.of (blind_fields (g := fun s => { s with a := { s.a with afxV :=
    true } }) (fun _ => ⟨rfl, rfl, rfl, rfl, rfl, rfl⟩) fun _ _ _ => rfl)) fun _ => by
  split
  · exact finishOp_endsAlike
  · exact endAf_endsAlike op

/-- From the seamless splice to the end of the operation. -/
def fromSmsOn (op : Composite) : Op Unit := do onFlag (·.x.smsf) (smsGroup none); endAfx op

/-- From the piecewise rate to the end. -/
def fromPwrOn (op : Composite) : Op Unit := do onFlag (·.x.pwrf) (pwrGroup none); fromSmsOn op

/-- From the legal time window to the end. -/
def fromLtwOn (op : Composite) : Op Unit := do onFlag (·.x.ltwf) (ltwGroup none); fromPwrOn op

/-- From the extension to the end. -/
def fromAfxOn (op : Composite) : Op Unit := do onFlag (·.f.afx) extensionGroup; endAf op

/-- From the private data to the end. -/
def fromTpdOn (op : Composite) : Op Unit := do onFlag (·.f.tpd) (tpdGroup none); fromAfxOn op

/-- From the splice countdown to the end. -/
def fromSplOn (op : Composite) : Op Unit := do onFlag (·.f.spl) (splGroup none); fromTpdOn op

/-- From the OPCR to the end. -/
def fromOpcrOn (op : Composite) : Op Unit := do onFlag (·.f.opcr) (opcrGroup none); fromSplOn op

/-- From the PCR to the end. -/
def fromPcrOn (op : Composite) : Op Unit := do onFlag (·.f.pcr) (pcrGroup none); fromOpcrOn op

/-- From the end of the header to the end. -/
def afterHdr (op : Composite) : Op Unit := do onFlag (fun s => decide (op = .decode) && s.p.afp) afSeq; endPacket op

/-- What remains after region `r`. -/
def contOf (op : Composite) : Region → Op Unit
  | .tsh => afterHdr op
  | .afHead => fromPcrOn op
  | .pcr => fromOpcrOn op
  | .opcr => fromSplOn op
  | .spl => fromTpdOn op
  | .tpd => fromAfxOn op
  | .afxHead => fromLtwOn op
  | .ltw => fromPwrOn op
  | .pwr => fromSmsOn op
  | .sms => endAfx op

/-- What remains from region `r` on. -/
def restFrom (op : Composite) (r : Region) : Op Unit := do regionReads op r; contOf op r

/-- On to the region given, its structure entered, or to the end. -/
def goOn (op : Composite) (n : Option Region) (e : Op Unit) : Op Unit := fun s =>
  match n with
  | none => e s
  | some r => restFrom op r (s.enterRegion r)

theorem onFlag_bind (b : State → Bool) (m g : Op Unit) (s : State) : (do onFlag b m; g :
    Op Unit) s = if b s then (do m; g : Op Unit) s else g s := by
  show (onFlag b m >>= fun _ => g) s = _
  rw [bind_apply]
  unfold onFlag
  by_cases h : b s = true
  · simp only [h, if_true]; exact (bind_apply m (fun _ => g) s).symm
  · simp only [h]; rfl

theorem fromSmsOn_eq (op) (s : State) : fromSmsOn op s = goOn op s.x.fromSms (endAfx op) s := by
  unfold fromSmsOn; rw [onFlag_bind]; unfold GroupX.fromSms; split <;> rfl

theorem fromPwrOn_eq (op) (s : State) : fromPwrOn op s = goOn op s.x.fromPwr (endAfx op) s := by
  unfold fromPwrOn; rw [onFlag_bind]; unfold GroupX.fromPwr; split
  · rfl
  · exact fromSmsOn_eq op s

theorem fromLtwOn_eq (op) (s : State) : fromLtwOn op s = goOn op s.x.fromLtw (endAfx op) s := by
  unfold fromLtwOn; rw [onFlag_bind]; unfold GroupX.fromLtw; split
  · rfl
  · exact fromPwrOn_eq op s

/-- The end of an extension inside an adaptation field: `AFX_V <- 1`. -/
def setAfxV : Op Unit := modify fun s => { s with a := { s.a with afxV := true } }

theorem extension_eq_restFrom {op} (h : op ≠ .afx) (s : State) :
    (do extensionGroup; endAf op : Op Unit) s = restFrom op .afxHead (s.enterRegion .afxHead) := by
  have hl : s.limit op = some s.afEnd := if_neg h
  have hr : restFrom op .afxHead (s.enterRegion .afxHead) =
      (do afxHeadGroup none (some s.afEnd); fromLtwOn op : Op Unit) s.clearX := by
    rw [← hl]
    rfl
  have hb : (do extensionGroup; endAf op : Op Unit) s =
      (do afxSeq (some s.afEnd); setAfxV; endAf op : Op Unit) s := by
    unfold extensionGroup
    simp only [bind_assoc]
    rfl
  rw [hr, hb]
  unfold afxSeq fromLtwOn fromPwrOn fromSmsOn endAfx
  simp only [if_neg h, bind_assoc]
  rfl

theorem fromAfxOn_eq {op} (h : op ≠ .afx) (s : State) : fromAfxOn op s = goOn op s.f.fromAfx (endAf op) s := by
  unfold fromAfxOn; rw [onFlag_bind]; unfold Latches.fromAfx; split
  · exact extension_eq_restFrom h s
  · rfl

theorem fromTpdOn_eq {op} (h : op ≠ .afx) (s : State) : fromTpdOn op s = goOn op s.f.fromTpd (endAf op) s := by
  unfold fromTpdOn; rw [onFlag_bind]; unfold Latches.fromTpd; split
  · rfl
  · exact fromAfxOn_eq h s

theorem fromSplOn_eq {op} (h : op ≠ .afx) (s : State) : fromSplOn op s = goOn op s.f.fromSpl (endAf op) s := by
  unfold fromSplOn; rw [onFlag_bind]; unfold Latches.fromSpl; split
  · rfl
  · exact fromTpdOn_eq h s

theorem fromOpcrOn_eq {op} (h : op ≠ .afx) (s : State) : fromOpcrOn op s = goOn op s.f.fromOpcr (endAf op) s := by
  unfold fromOpcrOn; rw [onFlag_bind]; unfold Latches.fromOpcr; split
  · rfl
  · exact fromSplOn_eq h s

theorem fromPcrOn_eq {op} (h : op ≠ .afx) (s : State) : fromPcrOn op s = goOn op s.f.fromPcr (endAf op) s := by
  unfold fromPcrOn; rw [onFlag_bind]; unfold Latches.fromPcr; split
  · rfl
  · exact fromOpcrOn_eq h s

theorem afSeq_eq_restFrom {op} (s : State) : (do afSeq; endPacket op :
    Op Unit) s = restFrom op .afHead (s.enterRegion .afHead) := by
  unfold restFrom afSeq regionReads contOf fromPcrOn fromOpcrOn fromSplOn fromTpdOn fromAfxOn endAf
  simp only [bind_assoc]
  rfl

theorem afterHdr_eq (op) (s : State) : afterHdr op s = goOn op (nextRegion op .tsh s) (endPacket op) s := by
  unfold afterHdr; rw [onFlag_bind]; unfold nextRegion; simp only [Bool.and_eq_true, decide_eq_true_eq]
  split
  · exact afSeq_eq_restFrom s
  · rfl

/-- After a region the atomic operation goes on where the sequencer goes. -/
theorem contOf_eq {op r} (h : readsRegion op r = true) (s : State) :
    contOf op r s = goOn op (nextRegion op r s) (endStructure op r) s := by
  have ha : ∀ r, op = .afx → readsRegion op r = true → r = .afxHead ∨ r = .ltw ∨ r = .pwr ∨ r = .sms :=
    by rintro r rfl h; simpa [readsRegion, or_assoc] using h
  cases r with
  | tsh => exact afterHdr_eq op s
  | afHead => exact fromPcrOn_eq (fun e => by have := ha _ e h; simp at this) s
  | pcr => exact fromOpcrOn_eq (fun e => by have := ha _ e h; simp at this) s
  | opcr => exact fromSplOn_eq (fun e => by have := ha _ e h; simp at this) s
  | spl => exact fromTpdOn_eq (fun e => by have := ha _ e h; simp at this) s
  | tpd => exact fromAfxOn_eq (fun e => by have := ha _ e h; simp at this) s
  | afxHead => exact fromLtwOn_eq op s
  | ltw => exact fromPwrOn_eq op s
  | pwr => exact fromSmsOn_eq op s
  | sms => rfl

theorem blind_regionReads (op r) : Blind EndsSeen (regionReads op r) := by
  cases r with
  | tsh => exact blind_hdrGroup _
  | afHead => exact blind_afHeadGroup _ fun _ h => h.1
  | pcr => exact blind_pcrGroup _ fun _ h => h.1
  | opcr => exact blind_opcrGroup _ fun _ h => h.1
  | spl => exact blind_splGroup _ fun _ h => h.1
  | tpd => exact blind_tpdGroup _ fun _ h => h.1
  | afxHead => exact Blind.ofState (g := fun s => afxHeadGroup none (s.limit op)) (fun _ =>
    blind_afxHeadGroup _ _ fun _ h => h.2) fun k s hc => congrArg (afxHeadGroup none) (by simp [State.limit,
    State.under, hc.1])
  | ltw => exact blind_ltwGroup _ fun _ h => h.2
  | pwr => exact blind_pwrGroup _ fun _ h => h.2
  | sms => exact blind_smsGroup _ fun _ h => h.2

theorem EndsAlike.onFlag {b : State → Bool} {m g : Op Unit} (h : Blind EndsSeen m) (hb :
    ∀ k s, EndsSeen k → b (s.under k) = b s) (hg : EndsAlike g) : EndsAlike (do onFlag b m; g) :=
    EndsAlike.bind (IgnoresSeq.of (h.onFlag hb)) fun _ => hg

theorem fromSmsOn_endsAlike (op) : EndsAlike (fromSmsOn op) := EndsAlike.onFlag (blind_smsGroup _ fun _ h =>
    h.2) (fun _ _ _ => rfl) (endAfx_endsAlike op)

theorem fromPwrOn_endsAlike (op) : EndsAlike (fromPwrOn op) := EndsAlike.onFlag (blind_pwrGroup _ fun _ h =>
    h.2) (fun _ _ _ => rfl) (fromSmsOn_endsAlike op)

theorem fromLtwOn_endsAlike (op) : EndsAlike (fromLtwOn op) := EndsAlike.onFlag (blind_ltwGroup _ fun _ h =>
    h.2) (fun _ _ _ => rfl) (fromPwrOn_endsAlike op)

theorem fromAfxOn_endsAlike (op) : EndsAlike (fromAfxOn op) := EndsAlike.onFlag (blind_extensionGroup (fun _ h =>
    h.1) fun _ h => h.2) (fun _ _ _ => rfl) (endAf_endsAlike op)

theorem fromTpdOn_endsAlike (op) : EndsAlike (fromTpdOn op) := EndsAlike.onFlag (blind_tpdGroup _ fun _ h =>
    h.1) (fun _ _ _ => rfl) (fromAfxOn_endsAlike op)

theorem fromSplOn_endsAlike (op) : EndsAlike (fromSplOn op) := EndsAlike.onFlag (blind_splGroup _ fun _ h =>
    h.1) (fun _ _ _ => rfl) (fromTpdOn_endsAlike op)

theorem fromOpcrOn_endsAlike (op) : EndsAlike (fromOpcrOn op) := EndsAlike.onFlag (blind_opcrGroup _ fun _ h =>
    h.1) (fun _ _ _ => rfl) (fromSplOn_endsAlike op)

theorem fromPcrOn_endsAlike (op) : EndsAlike (fromPcrOn op) := EndsAlike.onFlag (blind_pcrGroup _ fun _ h =>
    h.1) (fun _ _ _ => rfl) (fromOpcrOn_endsAlike op)

theorem afterHdr_endsAlike (op) : EndsAlike (afterHdr op) := EndsAlike.onFlag (blind_afSeq (fun _ h =>
    h.1) fun _ h => h.2) (fun _ _ _ => rfl) (endPacket_endsAlike op)

/-- What remains of an operation does not look at the sequencer and `ST`. -/
theorem restFrom_endsAlike (op r) : EndsAlike (restFrom op r) :=
    EndsAlike.bind (IgnoresSeq.of (blind_regionReads op r)) fun _ => by
  cases r
  · exact afterHdr_endsAlike op
  · exact fromPcrOn_endsAlike op
  · exact fromOpcrOn_endsAlike op
  · exact fromSplOn_endsAlike op
  · exact fromTpdOn_endsAlike op
  · exact fromAfxOn_endsAlike op
  · exact fromLtwOn_endsAlike op
  · exact fromPwrOn_endsAlike op
  · exact fromSmsOn_endsAlike op
  · exact endAfx_endsAlike op

/-- How many regions at most are read from this one on. -/
def regionRank : Region → Nat
  | .tsh => 10 | .afHead => 9 | .pcr => 8 | .opcr => 7 | .spl => 6 | .tpd => 5 | .afxHead => 4 | .ltw => 3 | .pwr =>
    2 | .sms => 1

theorem nextRegion_rank {op r r'} {s : State} (h : nextRegion op r s = some r') : regionRank r' < regionRank r := by
  cases r <;> simp only [nextRegion, Latches.fromPcr, Latches.fromOpcr, Latches.fromSpl, Latches.fromTpd,
    Latches.fromAfx, GroupX.fromLtw, GroupX.fromPwr, GroupX.fromSms] at h <;>
    (repeat' split at h) <;> first | (cases h; decide) | (cases h)

end Sys2Proof.Machine
end

