-- ==== Sys2Proof/Laws/Encoding.lean ====
section
/-! SUPPORT. Encodings: words cut into bytes and joined again,
  and each format of 30_encoding.md taken apart and put together. -/

namespace Sys2Proof.Machine

theorem slice_op (op : BitVec 4) (n : BitVec 5) : slice 8 5 (op ++ n : BitVec 9) = op := by
  revert op n; decide

theorem slice_n (op : BitVec 4) (n : BitVec 5) : slice 4 0 (op ++ n : BitVec 9) = n := by
  revert op n; decide

theorem toNat_bit (b : Bool) : (bit b).toNat = b.toNat := by cases b <;> rfl

/-- A bit of a word by arithmetic. -/
theorem getLsbD_of_toNat (v : BitVec w) (i : Nat) (b : Bool) (h : v.toNat / 2 ^ i % 2 = b.toNat) : v.getLsbD i = b := by
  rw [getLsbD_eq, h]; cases b <;> rfl

theorem join_bytes2 (W : BitVec 16) : (slice 15 8 W ++ slice 7 0 W : BitVec 16) = W := by
  apply BitVec.eq_of_toNat_eq
  simp only [toNat_append_eq, toNat_slice]; omega

theorem join_bytes3 (W : BitVec 24) : (slice 23 16 W ++ slice 15 8 W ++ slice 7 0 W : BitVec 24) = W := by
  apply BitVec.eq_of_toNat_eq
  simp only [toNat_append_eq, toNat_slice]; omega

theorem join_bytes4 (W : BitVec 32) : (slice 31 24 W ++ slice 23 16 W ++ slice 15 8 W ++ slice 7 0 W :
    BitVec 32) = W := by
  apply BitVec.eq_of_toNat_eq
  simp only [toNat_append_eq, toNat_slice]; omega

theorem join_bytes5 (W : BitVec 40) : (slice 39 32 W ++ slice 31 24 W ++ slice 23 16 W ++ slice 15 8 W ++
    slice 7 0 W : BitVec 40) = W := by
  apply BitVec.eq_of_toNat_eq
  simp only [toNat_append_eq, toNat_slice]; omega

theorem join_bytes6 (W : BitVec 48) : (slice 47 40 W ++ slice 39 32 W ++ slice 31 24 W ++ slice 23 16 W ++
    slice 15 8 W ++ slice 7 0 W : BitVec 48) = W := by
  apply BitVec.eq_of_toNat_eq
  simp only [toNat_append_eq, toNat_slice]; omega

theorem tshFields_encodeTsh (h : Tsh) (afp plp : Bool) : tshFields (encodeTsh h afp plp) = h ∧
    (encodeTsh h afp plp).getLsbD 5 = afp ∧ (encodeTsh h afp plp).getLsbD 4 = plp := by
  obtain ⟨sync, tei, pusi, tpri, pid, tsc, cc⟩ := h
  have l1 := tei.toNat_lt; have l2 := pusi.toNat_lt; have l3 := tpri.toNat_lt; have l4 := afp.toNat_lt; have l5 :=
    plp.toNat_lt
  have k1 := sync.isLt; have k2 := pid.isLt; have k3 := tsc.isLt; have k4 := cc.isLt
  have e : (encodeTsh ⟨sync, tei, pusi, tpri, pid, tsc, cc⟩ afp plp).toNat = ((((((((sync.toNat * 2 + tei.toNat)*2 +
    pusi.toNat)*2 + tpri.toNat) * 2^13 + pid.toNat)*2^2+tsc.toNat)*2+afp.toNat)*2+plp.toNat)*2^4+cc.toNat) := by
    simp only [encodeTsh, toNat_append_eq, toNat_bit, Nat.pow_one]
  refine ⟨?_, getLsbD_of_toNat _ _ _ (by rw [e]; omega), getLsbD_of_toNat _ _ _ (by rw [e]; omega)⟩
  simp only [tshFields, Tsh.mk.injEq]
  refine ⟨?_, getLsbD_of_toNat _ _ _ (by rw [e]; omega), getLsbD_of_toNat _ _ _ (by rw [e]; omega),
    getLsbD_of_toNat _ _ _ (by rw [e]; omega), ?_, ?_, ?_⟩
  all_goals
    apply BitVec.eq_of_toNat_eq
    simp only [toNat_slice, e]
    omega

theorem decodeAfHead_bytes (h : AfHead) : decodeAfHead (h.len ++ afFlagsByte h) = h := by
  obtain ⟨len, a, b, c, d, e, f, g, i⟩ := h
  have k := len.isLt
  have l1 := a.toNat_lt; have l2 := b.toNat_lt; have l3 := c.toNat_lt; have l4 := d.toNat_lt; have l5 := e.toNat_lt
  have l6 := f.toNat_lt; have l7 := g.toNat_lt; have l8 := i.toNat_lt
  have E : (len ++ afFlagsByte ⟨len, a, b, c, d, e, f, g, i⟩ : BitVec 16).toNat = len.toNat * 256 +
    (((((((a.toNat*2+b.toNat)*2+c.toNat)*2+d.toNat)*2+e.toNat)*2+f.toNat)*2+g.toNat)*2+i.toNat) := by
    simp only [afFlagsByte, toNat_append_eq, toNat_bit]; norm_num
  simp only [decodeAfHead, AfHead.mk.injEq]
  refine ⟨?_, ?_, ?_, ?_, ?_, ?_, ?_, ?_, ?_⟩
  · apply BitVec.eq_of_toNat_eq; simp only [toNat_slice, E]; omega
  all_goals exact getLsbD_of_toNat _ _ _ (by rw [E]; omega)

theorem decodeAfxHead_bytes (h : AfxHead) : decodeAfxHead (h.len ++ afxFlagsByte h) = h := by
  obtain ⟨len, a, b, c, r⟩ := h
  have k := len.isLt; have k2 := r.isLt
  have l1 := a.toNat_lt; have l2 := b.toNat_lt; have l3 := c.toNat_lt
  have E : (len ++ afxFlagsByte ⟨len, a, b, c, r⟩ : BitVec 16).toNat = len.toNat * 256 +
    (((a.toNat*2+b.toNat)*2+c.toNat)*2^5+r.toNat) := by
    simp only [afxFlagsByte, toNat_append_eq, toNat_bit]; norm_num
  simp only [decodeAfxHead, AfxHead.mk.injEq]
  refine ⟨?_, ?_, ?_, ?_, ?_⟩
  · apply BitVec.eq_of_toNat_eq; simp only [toNat_slice, E]; omega
  · exact getLsbD_of_toNat _ _ _ (by rw [E]; omega)
  · exact getLsbD_of_toNat _ _ _ (by rw [E]; omega)
  · exact getLsbD_of_toNat _ _ _ (by rw [E]; omega)
  · apply BitVec.eq_of_toNat_eq; simp only [toNat_slice, E]; omega

theorem decodeSms_fields (f : Sms) : decodeSms (f.splt ++ f.d2 ++ bit f.m2 ++ f.d1 ++ bit f.m1 ++ f.d0 ++ bit f.m0) =
    f := by
  obtain ⟨splt, d2, m2, d1, m1, d0, m0⟩ := f
  have k := splt.isLt; have k2 := d2.isLt; have k3 := d1.isLt; have k4 := d0.isLt
  have l1 := m2.toNat_lt; have l2 := m1.toNat_lt; have l3 := m0.toNat_lt
  have E : (splt ++ d2 ++ bit m2 ++ d1 ++ bit m1 ++ d0 ++ bit m0 :
    BitVec 40).toNat =
    ((((((splt.toNat*2^3+d2.toNat)*2+m2.toNat)*2^15+d1.toNat)*2+m1.toNat)*2^15+d0.toNat)*2+m0.toNat) := by
    simp only [toNat_append_eq, toNat_bit, Nat.pow_one]
  simp only [decodeSms, Sms.mk.injEq]
  refine ⟨?_, ?_, ?_, ?_, ?_, ?_, ?_⟩
  · apply BitVec.eq_of_toNat_eq; simp only [toNat_slice, E]; omega
  · apply BitVec.eq_of_toNat_eq; simp only [toNat_slice, E]; omega
  · exact getLsbD_of_toNat _ _ _ (by rw [E]; omega)
  · apply BitVec.eq_of_toNat_eq; simp only [toNat_slice, E]; omega
  · exact getLsbD_of_toNat _ _ _ (by rw [E]; omega)
  · apply BitVec.eq_of_toNat_eq; simp only [toNat_slice, E]; omega
  · exact getLsbD_of_toNat _ _ _ (by rw [E]; omega)

theorem toNat_bit_getLsbD (v : BitVec w) (i : Nat) : (bit (v.getLsbD i)).toNat = v.toNat / 2 ^ i % 2 := by
  rw [toNat_bit, getLsbD_eq]
  rcases Nat.mod_two_eq_zero_or_one (v.toNat / 2 ^ i) with h | h <;> simp [h]

theorem encodeTsh_tshFields (W : BitVec 32) (a b : Bool) (ha : W.getLsbD 5 = a) (hb : W.getLsbD 4 = b) :
    encodeTsh (tshFields W) a b = W := by
  subst ha hb
  apply BitVec.eq_of_toNat_eq
  simp only [encodeTsh, tshFields, toNat_append_eq, toNat_slice, toNat_bit_getLsbD]
  norm_num; omega

theorem bytes_of_join2 (a b : Byte) : slice 15 8 (a ++ b) = a ∧ slice 7 0 (a ++ b) = b := by
  have := a.isLt; have := b.isLt
  refine ⟨?_, ?_⟩ <;> (apply BitVec.eq_of_toNat_eq; simp only [toNat_slice, toNat_append_eq]; omega)

theorem bytes_of_join3 (a b c : Byte) : slice 23 16 (a ++ b ++ c) = a ∧ slice 15 8 (a ++ b ++ c) = b ∧
    slice 7 0 (a ++ b ++ c) = c := by
  have := a.isLt; have := b.isLt; have := c.isLt
  refine ⟨?_, ?_, ?_⟩ <;> (apply BitVec.eq_of_toNat_eq; simp only [toNat_slice, toNat_append_eq]; omega)

theorem bytes_of_join4 (a b c d : Byte) : slice 31 24 (a ++ b ++ c ++ d) = a ∧ slice 23 16 (a ++ b ++ c ++ d) = b ∧
    slice 15 8 (a ++ b ++ c ++ d) = c ∧ slice 7 0 (a ++ b ++ c ++ d) = d := by
  have := a.isLt; have := b.isLt; have := c.isLt; have := d.isLt
  refine ⟨?_, ?_, ?_, ?_⟩ <;> (apply BitVec.eq_of_toNat_eq; simp only [toNat_slice, toNat_append_eq]; omega)

theorem bytes_of_join5 (a b c d e : Byte) : slice 39 32 (a ++ b ++ c ++ d ++ e) = a ∧ slice 31 24 (a ++ b ++ c ++
    d ++ e) = b ∧ slice 23 16 (a ++ b ++ c ++ d ++ e) = c ∧ slice 15 8 (a ++ b ++ c ++ d ++ e) = d ∧ slice 7 0 (a ++
    b ++ c ++ d ++ e) = e := by
  have := a.isLt; have := b.isLt; have := c.isLt; have := d.isLt; have := e.isLt
  refine ⟨?_, ?_, ?_, ?_, ?_⟩ <;> (apply BitVec.eq_of_toNat_eq; simp only [toNat_slice, toNat_append_eq]; omega)

theorem bytes_of_join6 (a b c d e f : Byte) : slice 47 40 (a ++ b ++ c ++ d ++ e ++ f) = a ∧ slice 39 32 (a ++ b ++
    c ++ d ++ e ++ f) = b ∧ slice 31 24 (a ++ b ++ c ++ d ++ e ++ f) = c ∧ slice 23 16 (a ++ b ++ c ++ d ++ e ++ f) =
    d ∧ slice 15 8 (a ++ b ++ c ++ d ++ e ++ f) = e ∧ slice 7 0 (a ++ b ++ c ++ d ++ e ++ f) = f := by
  have := a.isLt; have := b.isLt; have := c.isLt; have := d.isLt; have := e.isLt; have := f.isLt
  refine ⟨?_, ?_, ?_, ?_, ?_, ?_⟩ <;> (apply BitVec.eq_of_toNat_eq; simp only [toNat_slice, toNat_append_eq]; omega)

theorem afFlagsByte_decode (a b : Byte) : afFlagsByte (decodeAfHead (a ++ b)) = b := by
  have := a.isLt; have := b.isLt
  apply BitVec.eq_of_toNat_eq; simp only [afFlagsByte, decodeAfHead, toNat_append_eq,
    toNat_bit_getLsbD]; norm_num; omega

theorem decodeAfHead_len (a b : Byte) : (decodeAfHead (a ++ b)).len = a := (bytes_of_join2 a b).1

theorem afxFlagsByte_decode (a b : Byte) : afxFlagsByte (decodeAfxHead (a ++ b)) = b := by
  have := a.isLt; have := b.isLt
  apply BitVec.eq_of_toNat_eq; simp only [afxFlagsByte, decodeAfxHead, toNat_append_eq, toNat_bit_getLsbD,
    toNat_slice]; norm_num; omega

theorem decodeAfxHead_len (a b : Byte) : (decodeAfxHead (a ++ b)).len = a := (bytes_of_join2 a b).1

theorem ltw_join (T : BitVec 16) : (bit (T.getLsbD 15) ++ slice 14 0 T : BitVec 16) = T := by
  apply BitVec.eq_of_toNat_eq; simp only [toNat_append_eq, toNat_bit_getLsbD, toNat_slice]; omega

theorem pwr_join (Q : BitVec 24) : (slice 23 22 Q ++ slice 21 0 Q : BitVec 24) = Q := by
  apply BitVec.eq_of_toNat_eq; simp only [toNat_append_eq, toNat_slice]; omega

theorem sms_join (S : BitVec 40) : ((decodeSms S).splt ++ (decodeSms S).d2 ++ bit (decodeSms S).m2 ++
    (decodeSms S).d1 ++ bit (decodeSms S).m1 ++ (decodeSms S).d0 ++ bit (decodeSms S).m0) = S := by
  apply BitVec.eq_of_toNat_eq; simp only [decodeSms, toNat_append_eq, toNat_slice, toNat_bit_getLsbD]; norm_num; omega

/-- A region has 1 to 256 bytes (30_encoding.md R91 to R100). -/
theorem encode_wire_length {i : Instr} {r bytes} (hw : i.wellFormed = true) (h : encode i = .wire r bytes) :
    1 ≤ bytes.length ∧ bytes.length ≤ 256 := by
  cases i
  case afPrivate n b =>
    simp only [encode, Code.wire.injEq] at h; obtain ⟨rfl, rfl⟩ := h
    have : b.length = n.toNat := of_decide_eq_true hw
    have := n.isLt
    simp; omega
  all_goals
    simp only [encode, encodeCmd, Code.wire.injEq, reduceCtorEq] at h
    try (obtain ⟨rfl, rfl⟩ := h; simp [tshBytes, clockBytes, ltwBytes, pwrBytes, smsBytes])

end Sys2Proof.Machine
end

