-- ==== Sys2Proof/Laws/Given.lean ====
section
/-! SUPPORT. A region as an instruction that the decoder has read (30_encoding.md R115): what its reads do when its fields
are given and its bytes are inside the budget and the buffer. -/

namespace Sys2Proof.Machine

/-- Given fields take the place of what the reads gave; the cursor moves by the reads. -/
theorem given_ok {α : Type} {v r : α} {m : Op α} {s s' : State} (h : m s = .ok r s') : given (some v) m s = .ok v s' := by
  rw [given_apply, h]
  rfl

theorem hdrGroup_given {s : State} {h : Tsh} {afp plp : Bool} (h0 : s.bo = 0) (hl : s.bp + 4 ≤ s.len) :
    hdrGroup (some (h, afp, plp)) s = .ok () ((s.seek (s.bp + 4, 0)).putHdr h afp plp) := by
  rw [hdrGroup, bind_ok (given_ok (readHdr_raw h0 hl))]
  rfl

theorem afHeadGroup_given {s : State} {h : AfHead} (h0 : s.bo = 0) (hn : 1 ≤ h.len.toNat) (hl : s.bp + 2 ≤ s.len) :
    afHeadGroup (some h) s = .ok () ((s.seek (s.bp + 2, 0)).putAfHead h (s.bp + 1 + h.len.toNat)) := by
  rw [afHeadGroup, Option.map_some, bind_ok (given_ok (pbyte_ok h0 (by omega))),
    bind_ok (show endAfter _ (s.seek (s.bp + 1, 0)) = .ok _ _ from rfl),
    bind_ok (given_ok (readAfFlags_raw (s := s.seek (s.bp + 1, 0)) rfl (by simp; omega) (by simp; omega)))]
  rfl

theorem pcrGroup_given {s : State} {v : BitVec 48} (h0 : s.bo = 0) (hb : s.bp + 6 ≤ s.afEnd) (hl : s.bp + 6 ≤ s.len) :
    pcrGroup (some v) s = .ok () { s.seek (s.bp + 6, 0) with a := { s.a with pcr := v, pcrV := true } } := by
  rw [pcrGroup, bind_ok (show needAf 6 s = _ from need_fits hb), bind_ok (given_ok (pull48_ok h0 hl))]
  rfl

theorem opcrGroup_given {s : State} {v : BitVec 48} (h0 : s.bo = 0) (hb : s.bp + 6 ≤ s.afEnd) (hl : s.bp + 6 ≤ s.len) :
    opcrGroup (some v) s = .ok () { s.seek (s.bp + 6, 0) with a := { s.a with opcr := v, opcrV := true } } := by
  rw [opcrGroup, bind_ok (show needAf 6 s = _ from need_fits hb), bind_ok (given_ok (pull48_ok h0 hl))]
  rfl

theorem splGroup_given {s : State} {c : Byte} (h0 : s.bo = 0) (hb : s.bp + 1 ≤ s.afEnd) (hl : s.bp + 1 ≤ s.len) :
    splGroup (some c) s = .ok () { s.seek (s.bp + 1, 0) with a := { s.a with splc := c, splV := true } } := by
  rw [splGroup, bind_ok (show needAf 1 s = _ from need_fits hb), bind_ok (given_ok (pbyte_ok h0 (by omega)))]
  rfl

theorem tpdGroup_given {s : State} {n : Byte} {bytes : List Byte} (h0 : s.bo = 0) (hb : s.bp + 1 + n.toNat ≤ s.afEnd)
    (hl : s.bp + 1 + n.toNat ≤ s.len) :
    tpdGroup (some (n, bytes)) s = .ok () { s.seek (s.bp + 1 + n.toNat, 0) with
      a := { s.a with tpdl := n, tpdb := bytes, tpdV := true } } := by
  rw [tpdGroup, bind_ok (show needAf 1 s = _ from need_fits (by omega)), Option.map_some,
    bind_ok (given_ok (pbyte_ok h0 (by omega))),
    bind_ok (show needAf _ (s.seek (s.bp + 1, 0)) = .ok () _ from need_fits (by simp; omega)), Option.map_some,
    bind_ok (given_ok (pullBytes_ok rfl (by simp; omega)))]
  simp

theorem afxHeadGroup_given {s : State} {limit : Option Nat} {h : AfxHead} (h0 : s.bo = 0) (hn : 1 ≤ h.len.toNat)
    (hw : Within limit (s.bp + 1 + h.len.toNat)) (hl : s.bp + 2 ≤ s.len) :
    afxHeadGroup (some h) limit s = .ok () ((s.seek (s.bp + 2, 0)).putAfxHead h (s.bp + 1 + h.len.toNat)) := by
  rw [afxHeadGroup, bind_ok (needWithin_ok (fun stop e => by have := hw stop e; omega)), Option.map_some,
    bind_ok (given_ok (pbyte_ok h0 (by omega))), bind_ok (extensionEnd_ok (s := s.seek (s.bp + 1, 0)) (by simpa using hw)),
    bind_ok (given_ok (readAfxFlags_raw (s := s.seek (s.bp + 1, 0)) rfl (by simp; omega) (by simp; omega)))]
  rfl

theorem ltwGroup_given {s : State} {valid : Bool} {offset : BitVec 15} (h0 : s.bo = 0) (hb : s.bp + 2 ≤ s.afxEnd)
    (hl : s.bp + 2 ≤ s.len) :
    ltwGroup (some (valid, offset)) s = .ok () { s.seek (s.bp + 2, 0) with
      x := { s.x with ltwvf := valid, ltwo := offset, ltwV := true } } := by
  rw [ltwGroup, bind_ok (show needAfx 2 s = _ from need_fits hb), bind_ok (given_ok (readLtw_raw h0 hl))]
  rfl

theorem pwrGroup_given {s : State} {rate : BitVec 22} (h0 : s.bo = 0) (hb : s.bp + 3 ≤ s.afxEnd) (hl : s.bp + 3 ≤ s.len) :
    pwrGroup (some rate) s = .ok () { s.seek (s.bp + 3, 0) with x := { s.x with pwr := rate, pwrV := true } } := by
  rw [pwrGroup, bind_ok (show needAfx 3 s = _ from need_fits hb), bind_ok (given_ok (readRate_raw h0 hl))]
  rfl

theorem smsGroup_given {s : State} {splt : BitVec 4} {dts : BitVec 33} (h0 : s.bo = 0) (hb : s.bp + 5 ≤ s.afxEnd)
    (hl : s.bp + 5 ≤ s.len) :
    smsGroup (some (splt, dts)) s = .ok () { s.seek (s.bp + 5, 0) with
      x := { s.x with splt := splt, dts := dts, smsV := true } } := by
  rw [smsGroup, bind_ok (show needAfx 5 s = _ from need_fits hb), bind_ok (given_ok (readSms_raw h0 hl))]
  rfl

end Sys2Proof.Machine
end

