-- ==== Sys2Proof/Laws/Memory.lean ====
section
/-! SUPPORT. The laws of the packet buffer: a read after a write, and that every write keeps the canonical form. -/

namespace Sys2Proof.Machine

/-- Below every listed offset, memory reads as unlisted. -/
theorem Memory.read_of_wfFrom {m : Memory} : ∀ {lo a : Nat}, Memory.wfFrom lo m = true → a < lo →
    m.read a = Config.unlistedByte := by
  induction m with
  | nil => intros; rfl
  | cons c t ih =>
    obtain ⟨k, v⟩ := c
    intro lo a h ha
    simp only [Memory.wfFrom, Bool.and_eq_true, decide_eq_true_eq] at h
    have hne : k ≠ a := by omega
    simp only [Memory.read, hne, if_false]
    exact ih h.2 (by omega)

/-- The canonical form from a higher offset is the form from a lower one. -/
theorem Memory.wfFrom_mono {m : Memory} {lo lo' : Nat} (h : Memory.wfFrom lo m = true) (hle : lo' ≤ lo) :
    Memory.wfFrom lo' m = true := by
  cases m with
  | nil => rfl
  | cons c t =>
    obtain ⟨k, v⟩ := c
    simp only [Memory.wfFrom, Bool.and_eq_true, decide_eq_true_eq] at h ⊢
    exact ⟨⟨by omega, h.1.2⟩, h.2⟩

/-- A write at or above the lowest offset keeps the canonical form. -/
theorem Memory.write_wfFrom {m : Memory} : ∀ {lo a : Nat} {b : Byte}, Memory.wfFrom lo m = true → lo ≤ a →
    Memory.wfFrom lo (m.write a b) = true := by
  induction m with
  | nil =>
    intro lo a b _ ha
    by_cases hb : b = Config.unlistedByte <;> simp [Memory.write, Memory.wfFrom, hb, ha]
  | cons c t ih =>
    obtain ⟨k, v⟩ := c
    intro lo a b h ha
    have h' := h
    simp only [Memory.wfFrom, Bool.and_eq_true, decide_eq_true_eq] at h'
    obtain ⟨⟨hk, hv⟩, ht⟩ := h'
    unfold Memory.write
    split
    · split
      · exact h
      · rename_i hlt hb
        simp only [Memory.wfFrom, Bool.and_eq_true, decide_eq_true_eq]
        exact ⟨⟨ha, hb⟩, ⟨by omega, hv⟩, ht⟩
    · split
      · split
        · exact Memory.wfFrom_mono ht (by omega)
        · rename_i hak hb
          simp only [Memory.wfFrom, Bool.and_eq_true, decide_eq_true_eq]
          exact ⟨⟨ha, hb⟩, by rw [hak]; exact ht⟩
      · simp only [Memory.wfFrom, Bool.and_eq_true, decide_eq_true_eq]
        exact ⟨⟨hk, hv⟩, ih ht (by omega)⟩

/-- A write keeps the canonical form. -/
theorem Memory.write_wf {m : Memory} {a : Nat} {b : Byte} (h : m.wf = true) : (m.write a b).wf = true :=
  Memory.write_wfFrom h (Nat.zero_le a)

/-- A write of several bytes keeps the canonical form. -/
theorem Memory.writeBytes_wf {bs : List Byte} : ∀ {m : Memory} {a : Nat}, m.wf = true → (m.writeBytes a bs).wf = true := by
  induction bs with
  | nil => intro m a h; exact h
  | cons b bs ih => intro m a h; exact ih (Memory.write_wf h)

/-- The read law from an offset on: the written byte there, every other byte as before. -/
theorem Memory.read_write_from {m : Memory} : ∀ {lo a c : Nat} {b : Byte}, Memory.wfFrom lo m = true →
    (m.write a b).read c = if a = c then b else m.read c := by
  induction m with
  | nil =>
    intro lo a c b _
    by_cases hb : b = Config.unlistedByte <;> by_cases hac : a = c <;> simp [Memory.write, Memory.read, hb, hac]
  | cons d t ih =>
    obtain ⟨k, v⟩ := d
    intro lo a c b h
    simp only [Memory.wfFrom, Bool.and_eq_true, decide_eq_true_eq] at h
    have above : ∀ x, x ≤ k → Memory.read t x = Config.unlistedByte := fun x hx => Memory.read_of_wfFrom h.2 (by omega)
    unfold Memory.write
    split
    · split
      · rename_i hlt hb
        by_cases hac : a = c
        · subst hac
          simp [Memory.read, show k ≠ a by omega, above a (by omega), hb]
        · simp [hac]
      · by_cases hac : a = c <;> simp [Memory.read, hac]
    · split
      · rename_i hak
        subst hak
        split
        · rename_i hb
          by_cases hac : a = c
          · subst hac; simp [above a (Nat.le_refl a), hb]
          · simp [Memory.read, hac]
        · by_cases hac : a = c <;> simp [Memory.read, hac]
      · rename_i hak
        by_cases hkc : k = c
        · simp [Memory.read, hkc, show a ≠ c by omega]
        · simp only [Memory.read, hkc, if_false]
          exact ih h.2

/-- A byte read after a write. -/
theorem Memory.read_write {m : Memory} (h : m.wf = true) (a c : Nat) (b : Byte) :
    (m.write a b).read c = if a = c then b else m.read c := Memory.read_write_from h

/-- A byte read after a write of several. -/
theorem Memory.read_writeBytes {bs : List Byte} : ∀ {m : Memory} {a c : Nat}, m.wf = true →
    (m.writeBytes a bs).read c = if a ≤ c ∧ c < a + bs.length then bs.getD (c - a) 0 else m.read c := by
  induction bs with
  | nil => intro m a c _; simp [Memory.writeBytes, show ¬(a ≤ c ∧ c < a) by omega]
  | cons b bs ih =>
    intro m a c h
    simp only [Memory.writeBytes, ih (Memory.write_wf h), Memory.read_write h, List.length_cons]
    by_cases hac : a = c
    · subst hac; simp
    · by_cases hin : a + 1 ≤ c ∧ c < a + 1 + bs.length
      · rw [if_pos hin, if_pos (by omega)]
        obtain ⟨d, hd⟩ : ∃ d, c - a = d + 1 := ⟨c - a - 1, by omega⟩
        rw [hd, show c - (a + 1) = d by omega]; rfl
      · rw [if_neg hin, if_neg hac, if_neg (by omega)]

end Sys2Proof.Machine
end

