-- ==== Sys2Proof/Laws/PerInstr.lean ====
section
/-! SUPPORT. The family `EncodesAsItsRow`, one lemma per constructor of `Instr`: the encoding of an instruction is a word of
its row of spec/opcode_table.json, with the row's fixed bits, or a region of the row's format and size. -/

namespace Sys2Proof.Laws.EncodesAsItsRow

/-- A command word whose `op` field is the row's (mask 0x1E0; 30_encoding.md R110). -/
def IsCommand (fixed : Cmd) (c : Code) : Prop := ∃ w, c = .cmd w ∧ w &&& 0x1E0 = fixed

/-- Four header bytes whose bits (`AFP`, `PLP`) are the row's (R92). -/
def IsHeader (select : BitVec 2) (c : Code) : Prop :=
  ∃ b0 b1 b2 b3 : Byte, c = .wire .tsh [b0, b1, b2, b3] ∧ slice 5 4 b3 = select

/-- A region of the row's format and number of bytes (R93 to R100). -/
def IsRegion (r : Region) (size : Nat) (c : Code) : Prop := ∃ bytes, c = .wire r bytes ∧ bytes.length = size

/-- The encoding of a well-formed instruction is one of its row. -/
def Statement (i : Instr) : Prop :=
  i.wellFormed = true →
    match i with
    | .openCur _ => IsCommand 0x000 (encode i)
    | .pbit _ => IsCommand 0x020 (encode i)
    | .pbits _ => IsCommand 0x040 (encode i)
    | .pbyte _ => IsCommand 0x060 (encode i)
    | .pwide _ => IsCommand 0x080 (encode i)
    | .hdr _ => IsCommand 0x0A0 (encode i)
    | .af _ => IsCommand 0x0C0 (encode i)
    | .afx _ => IsCommand 0x0E0 (encode i)
    | .decode _ => IsCommand 0x100 (encode i)
    | .reserved9 _ => IsCommand 0x120 (encode i)
    | .reservedA _ => IsCommand 0x140 (encode i)
    | .reservedB _ => IsCommand 0x160 (encode i)
    | .reservedC _ => IsCommand 0x180 (encode i)
    | .reservedD _ => IsCommand 0x1A0 (encode i)
    | .reservedE _ => IsCommand 0x1C0 (encode i)
    | .reservedF _ => IsCommand 0x1E0 (encode i)
    | .tspNone _ => IsHeader 0b00 (encode i)
    | .tspPayload _ => IsHeader 0b01 (encode i)
    | .tspAf _ => IsHeader 0b10 (encode i)
    | .tspAfPayload _ => IsHeader 0b11 (encode i)
    | .afHead _ => IsRegion .afHead 2 (encode i)
    | .afPcr _ => IsRegion .pcr 6 (encode i)
    | .afOpcr _ => IsRegion .opcr 6 (encode i)
    | .afSplice _ => IsRegion .spl 1 (encode i)
    | .afPrivate n _ => IsRegion .tpd (1 + n.toNat) (encode i)
    | .afxHead _ => IsRegion .afxHead 2 (encode i)
    | .afxLtw _ _ => IsRegion .ltw 2 (encode i)
    | .afxPwr _ _ => IsRegion .pwr 3 (encode i)
    | .afxSms _ => IsRegion .sms 5 (encode i)

theorem command_op (op : BitVec 4) (n : BitVec 5) : ((op ++ n : Cmd) &&& 0x1E0) = op ++ (0 : BitVec 5) := by
  revert op n
  decide

theorem header_select (h : Tsh) (afp plp : Bool) :
    slice 5 4 (slice 7 0 (encodeTsh h afp plp)) = bit afp ++ bit plp := by
  obtain ⟨_, h5, h4⟩ := Machine.tshFields_encodeTsh h afp plp
  have e : slice 5 4 (slice 7 0 (encodeTsh h afp plp)) = slice 5 4 (encodeTsh h afp plp) := by
    apply BitVec.eq_of_toNat_eq
    simp only [Machine.toNat_slice]
    omega
  rw [e]
  apply BitVec.eq_of_toNat_eq
  rw [Machine.getLsbD_eq] at h5 h4
  simp only [Machine.toNat_slice, Machine.toNat_append_eq, Machine.toNat_bit]
  have a : (encodeTsh h afp plp).toNat / 2 ^ 5 % 2 = afp.toNat := by cases afp <;> simp_all
  have b : (encodeTsh h afp plp).toNat / 2 ^ 4 % 2 = plp.toNat := by cases plp <;> simp_all
  omega

/-- `OPEN`. -/
theorem openCur (n : BitVec 5) : Statement (.openCur n) := fun _ => ⟨_, rfl, command_op _ n⟩

/-- `PBIT`. -/
theorem pbit (n : BitVec 5) : Statement (.pbit n) := fun _ => ⟨_, rfl, command_op _ n⟩

/-- `PBITS`. -/
theorem pbits (n : BitVec 5) : Statement (.pbits n) := fun _ => ⟨_, rfl, command_op _ n⟩

/-- `PBYTE`. -/
theorem pbyte (n : BitVec 5) : Statement (.pbyte n) := fun _ => ⟨_, rfl, command_op _ n⟩

/-- `PWIDE`. -/
theorem pwide (n : BitVec 5) : Statement (.pwide n) := fun _ => ⟨_, rfl, command_op _ n⟩

/-- `HDR`. -/
theorem hdr (n : BitVec 5) : Statement (.hdr n) := fun _ => ⟨_, rfl, command_op _ n⟩

/-- `AF`. -/
theorem af (n : BitVec 5) : Statement (.af n) := fun _ => ⟨_, rfl, command_op _ n⟩

/-- `AFX`. -/
theorem afx (n : BitVec 5) : Statement (.afx n) := fun _ => ⟨_, rfl, command_op _ n⟩

/-- `DECODE`. -/
theorem decode (n : BitVec 5) : Statement (.decode n) := fun _ => ⟨_, rfl, command_op _ n⟩

/-- `RESERVED_9`. -/
theorem reserved9 (n : BitVec 5) : Statement (.reserved9 n) := fun _ => ⟨_, rfl, command_op _ n⟩

/-- `RESERVED_A`. -/
theorem reservedA (n : BitVec 5) : Statement (.reservedA n) := fun _ => ⟨_, rfl, command_op _ n⟩

/-- `RESERVED_B`. -/
theorem reservedB (n : BitVec 5) : Statement (.reservedB n) := fun _ => ⟨_, rfl, command_op _ n⟩

/-- `RESERVED_C`. -/
theorem reservedC (n : BitVec 5) : Statement (.reservedC n) := fun _ => ⟨_, rfl, command_op _ n⟩

/-- `RESERVED_D`. -/
theorem reservedD (n : BitVec 5) : Statement (.reservedD n) := fun _ => ⟨_, rfl, command_op _ n⟩

/-- `RESERVED_E`. -/
theorem reservedE (n : BitVec 5) : Statement (.reservedE n) := fun _ => ⟨_, rfl, command_op _ n⟩

/-- `RESERVED_F`. -/
theorem reservedF (n : BitVec 5) : Statement (.reservedF n) := fun _ => ⟨_, rfl, command_op _ n⟩

/-- `TSP.NONE`. -/
theorem tspNone (h : Tsh) : Statement (.tspNone h) := fun _ => ⟨_, _, _, _, rfl, header_select h false false⟩

/-- `TSP.PAYLOAD`. -/
theorem tspPayload (h : Tsh) : Statement (.tspPayload h) := fun _ => ⟨_, _, _, _, rfl, header_select h false true⟩

/-- `TSP.AF`. -/
theorem tspAf (h : Tsh) : Statement (.tspAf h) := fun _ => ⟨_, _, _, _, rfl, header_select h true false⟩

/-- `TSP.AF_PAYLOAD`. -/
theorem tspAfPayload (h : Tsh) : Statement (.tspAfPayload h) := fun _ => ⟨_, _, _, _, rfl, header_select h true true⟩

/-- `AF.HEAD`. -/
theorem afHead (h : AfHead) : Statement (.afHead h) := fun _ => ⟨_, rfl, rfl⟩

/-- `AF.PCR`. -/
theorem afPcr (v : BitVec 48) : Statement (.afPcr v) := fun _ => ⟨_, rfl, rfl⟩

/-- `AF.OPCR`. -/
theorem afOpcr (v : BitVec 48) : Statement (.afOpcr v) := fun _ => ⟨_, rfl, rfl⟩

/-- `AF.SPLICE`. -/
theorem afSplice (c : Byte) : Statement (.afSplice c) := fun _ => ⟨_, rfl, rfl⟩

/-- `AF.PRIVATE`. -/
theorem afPrivate (n : Byte) (bytes : List Byte) : Statement (.afPrivate n bytes) := fun hw =>
  ⟨_, rfl, by
    have h : bytes.length = n.toNat := of_decide_eq_true hw
    rw [List.length_cons, h, Nat.add_comm]⟩

/-- `AFX.HEAD`. -/
theorem afxHead (h : AfxHead) : Statement (.afxHead h) := fun _ => ⟨_, rfl, rfl⟩

/-- `AFX.LTW`. -/
theorem afxLtw (valid : Bool) (offset : BitVec 15) : Statement (.afxLtw valid offset) := fun _ => ⟨_, rfl, rfl⟩

/-- `AFX.PWR`. -/
theorem afxPwr (reserved : BitVec 2) (rate : BitVec 22) : Statement (.afxPwr reserved rate) := fun _ => ⟨_, rfl, rfl⟩

/-- `AFX.SMS`. -/
theorem afxSms (f : Sms) : Statement (.afxSms f) := fun _ => ⟨_, rfl, rfl⟩

end Sys2Proof.Laws.EncodesAsItsRow
end

