-- ==== Sys2Proof/Laws/Same.lean ====
section
/-! SUPPORT. A region given as the instruction that stands at the cursor is the region read: the reads are the same
(40_cursor.md R140). -/

namespace Sys2Proof.Machine

theorem within_limit {s : State} {op : Composite} {e : Nat} (h : op = .afx ∨ e ≤ s.afEnd) : Within (s.limit op) e := by
  intro stop hs
  unfold State.limit at hs
  split at hs
  · cases hs
  · cases hs; rename_i k; exact h.resolve_left k

/-- Fields equal to what is read change nothing. -/
theorem given_same {α} {v : α} {m : Op α} {s : State} (h : ∀ r s', m s = .ok r s' → r = v) : given (some v) m s =
    m s := by
  rw [given_apply]
  cases hm : m s with
  | ok r s' => rw [h r s' hm]; rfl
  | error e s' => rfl

/-- Two ways to read a region that do the same are one region step. -/
theorem runRegion_congr {op r} {m m' : Op Unit} {s : State} (h : m s = m' s) : runRegion op r m s =
    runRegion op r m' s := by
  simp only [runRegion, settleComposite, bind_apply, h]

theorem afHead_same {s : State} (h0 : s.bo = 0) (hl : s.bp + 2 ≤ s.len) :
    afHeadGroup (some (decodeAfHead (BitVec.ofNat 16 (s.number s.bp 2)))) s = afHeadGroup none s := by
  have hlen : (decodeAfHead (BitVec.ofNat 16 (s.number s.bp 2))).len = s.memRead s.bp := (length_of_head s s.bp).symm
  rcases Nat.eq_zero_or_pos (s.memRead s.bp).toNat with hz | hn
  · rw [afHeadGroup_zero h0 (by omega) hz, afHeadGroup, Option.map_some, bind_ok (given_ok (pbyte_ok h0 (by omega))),
      bind_ok (show endAfter _ (s.seek (s.bp + 1, 0)) = .ok _ _ from rfl), bind_error]
    rw [given_apply, readAfFlags_overrun (by simp [hlen, hz])]
  · rw [afHeadGroup_given h0 (by rw [hlen]; exact hn) hl, afHeadGroup_ok h0 hn hl, hlen]; rfl

theorem afxHead_same {s : State} {limit} (h0 : s.bo = 0) (hl : s.bp + 2 ≤ s.len) :
    afxHeadGroup (some (decodeAfxHead (BitVec.ofNat 16 (s.number s.bp 2)))) limit s = afxHeadGroup none limit s := by
  have hlen : (decodeAfxHead (BitVec.ofNat 16 (s.number s.bp 2))).len = s.memRead s.bp := (length_of_head s s.bp).symm
  by_cases hw : Within limit (s.fieldEnd s.bp)
  · rcases Nat.eq_zero_or_pos (s.memRead s.bp).toNat with hz | hn
    · have hw' : Within limit (s.bp + 1 + (s.memRead s.bp).toNat) := hw
      rw [afxHeadGroup_zero h0 (by omega) hw hz, afxHeadGroup,
        bind_ok (needWithin_ok (fun stop e => by have := hw' stop e; omega)), Option.map_some,
        bind_ok (given_ok (pbyte_ok h0 (by omega))),
        bind_ok (extensionEnd_ok (s := s.seek (s.bp + 1, 0)) (by simpa [hlen] using hw')), bind_error]
      rw [given_apply, readAfxFlags_overrun (by simp [hlen, hz])]
    · rw [afxHeadGroup_given h0 (by rw [hlen]; exact hn) (by rw [hlen]; exact hw) hl, afxHeadGroup_ok h0 hn hw hl,
        hlen]
      rfl
  · cases limit with
    | none => exact absurd (fun _ e => by cases e) hw
    | some stop =>
      have hw : stop < s.fieldEnd s.bp := by
        by_contra c; exact hw (fun _ e => by cases e; omega)
      by_cases h1 : s.bp + 1 ≤ stop
      · rw [afxHeadGroup_tooLong h0 (by omega) h1 hw, afxHeadGroup,
          bind_ok (needWithin_ok (fun _ e => by cases e; exact h1)), Option.map_some,
          bind_ok (given_ok (pbyte_ok h0 (by omega))),
          bind_error (e := .adaptationFieldOverrun) (s' := s.seek (s.bp + 1, 0))]
        unfold State.fieldEnd at hw
        simp [extensionEnd, hlen, hw]
      · rw [afxHeadGroup_noRoom (by omega), afxHeadGroup_noRoom (by omega)]

theorem pcr_same {s : State} (h0 : s.bo = 0) (hl : s.bp + 6 ≤ s.len) :
    pcrGroup (some (BitVec.ofNat 48 (s.number s.bp 6))) s = pcrGroup none s := by
  rcases Nat.lt_or_ge s.afEnd (s.bp + 6) with h | h
  · rw [pcrGroup_overrun h, pcrGroup_overrun h]
  · rw [pcrGroup_given h0 h hl, pcrGroup_ok h0 h hl]

theorem opcr_same {s : State} (h0 : s.bo = 0) (hl : s.bp + 6 ≤ s.len) :
    opcrGroup (some (BitVec.ofNat 48 (s.number s.bp 6))) s = opcrGroup none s := by
  rcases Nat.lt_or_ge s.afEnd (s.bp + 6) with h | h
  · rw [opcrGroup_overrun h, opcrGroup_overrun h]
  · rw [opcrGroup_given h0 h hl, opcrGroup_ok h0 h hl]

theorem spl_same {s : State} (h0 : s.bo = 0) (hl : s.bp + 1 ≤ s.len) : splGroup (some (s.memRead s.bp)) s =
    splGroup none s := by
  rcases Nat.lt_or_ge s.afEnd (s.bp + 1) with h | h
  · rw [splGroup_overrun h, splGroup_overrun h]
  · rw [splGroup_given h0 h hl, splGroup_ok h0 h hl]

theorem tpd_same {s : State} (h0 : s.bo = 0) (hl : s.bp + 1 + (s.memRead s.bp).toNat ≤ s.len) :
    tpdGroup (some (s.memRead s.bp, s.bytesAt (s.bp+1) (s.memRead s.bp).toNat)) s = tpdGroup none s := by
  rcases Nat.lt_or_ge s.afEnd (s.bp + 1) with h | h
  · rw [tpdGroup_overrun h, tpdGroup_overrun h]
  · rcases Nat.lt_or_ge s.afEnd (s.bp + 1 + (s.memRead s.bp).toNat) with h' | h'
    · rw [tpdGroup_overrunBytes h0 h (by omega) h', tpdGroup, bind_ok (show needAf 1 s = _ from need_fits h),
      Option.map_some, bind_ok (given_ok (pbyte_ok h0 (by omega))), needAf_overrun (by simpa using h')]
    · rw [tpdGroup_given h0 h' hl, tpdGroup_ok h0 (by omega) (by omega)]; simp [Nat.add_assoc]

theorem ltw_same {s : State} (h0 : s.bo = 0) (hl : s.bp + 2 ≤ s.len) :
    ltwGroup (some ((BitVec.ofNat 16 (s.number s.bp 2)).getLsbD 15,
    slice 14 0 (BitVec.ofNat 16 (s.number s.bp 2)))) s = ltwGroup none s := by
  rcases Nat.lt_or_ge s.afxEnd (s.bp + 2) with h | h
  · rw [ltwGroup_overrun h, ltwGroup_overrun h]
  · rw [ltwGroup_given h0 h hl, ltwGroup_ok h0 h hl]

theorem pwr_same {s : State} (h0 : s.bo = 0) (hl : s.bp + 3 ≤ s.len) :
    pwrGroup (some (slice 21 0 (BitVec.ofNat 24 (s.number s.bp 3)))) s = pwrGroup none s := by
  rcases Nat.lt_or_ge s.afxEnd (s.bp + 3) with h | h
  · rw [pwrGroup_overrun h, pwrGroup_overrun h]
  · rw [pwrGroup_given h0 h hl, pwrGroup_ok h0 h hl]

theorem sms_same {s : State} (h0 : s.bo = 0) (hl : s.bp + 5 ≤ s.len) :
    let f := decodeSms (BitVec.ofNat 40 (s.number s.bp 5))
    smsGroup (some (f.splt, assembleDts f.d2 f.d1 f.d0)) s = smsGroup none s := by
  intro f
  rcases Nat.lt_or_ge s.afxEnd (s.bp + 5) with h | h
  · rw [smsGroup_overrun h, smsGroup_overrun h]
  · rw [smsGroup_given h0 h hl, smsGroup_ok h0 h hl]; rfl

end Sys2Proof.Machine
end

