-- ==== Sys2Proof/Tests/Slice0.lean ====
section
/-! SUPPORT. The model's own tests: ill-formed terms refused; every constructor's decoding from a word written out by the
tables of 30_encoding.md; one or two executions per instruction, their expected values taken from 95_test_vectors.md (the
vector is named in each comment) or worked by hand from the rule named; and for every obligation with hypotheses a
concrete state that meets them. -/

namespace Sys2Proof.Tests

open Sys2Proof.Machine

/-! ### Helpers -/

/-- The reset state with the given bytes in `DATA` and their number in `LEN`. -/
def buffer (bytes : List Byte) : State := { State.reset.writeData 0 bytes with len := bytes.length }

/-- The same with the cursor at (`p`, `b`). -/
def cursorAt (bytes : List Byte) (p : Nat) (b : Fin 8) : State := (buffer bytes).seek (p, b)

/-- The same with the sequencer waiting at a region of `op`, `ST` BUSY, and budgets. -/
def regionAt (op : Composite) (r : Region) (bytes : List Byte) (p afEnd afxEnd : Nat) : State :=
  { cursorAt bytes p 0 with st := .busy, seq := some (op, r), afEnd := afEnd, afxEnd := afxEnd }

/-- The next state, or the state itself where there is none. -/
def answered (a : Answer) (s : State) : State :=
  match a with
  | .next t => t
  | .fault _ => s
  | .refused _ => s

/-- After one instruction. -/
def after (i : Instr) (s : State) : State := answered (exec i s) s

/-- After one step. -/
def stepped (s : State) : State := answered (step s) s

/-- What most vectors name: cursor, `ST`, `ERR`. -/
def outcome (s : State) : Nat × Nat × Nat × Nat := (s.bp, s.bo.val, s.st.code.toNat, (errCode s.err).toNat)

/-! ### Well-formedness: the one check, on both sides -/

/-- A length byte that counts too many bytes is refused (30_encoding.md R96). -/
theorem test_wf_private_too_few : (Instr.afPrivate 3 [0xCA, 0xFE]).wellFormed = false := by decide

/-- A length byte that counts too few bytes is refused. -/
theorem test_wf_private_too_many : (Instr.afPrivate 0 [0xCA]).wellFormed = false := by decide

/-- Empty private data is well formed (vector A9). -/
theorem test_wf_private_empty : (Instr.afPrivate 0 []).wellFormed = true := by decide

/-! ### Decoding: a word for every constructor, bit by bit from the tables -/

/-- CMD9 (R110): `op` in bits 8:5, `n` in bits 4:0. -/
theorem test_decode_commands :
    decodeCmd 0b0000_00000#9 = .openCur 0 ∧ decodeCmd 0b0001_11111#9 = .pbit 31 ∧ decodeCmd 0b0010_00100#9 = .pbits 4 ∧
    decodeCmd 0b0011_00001#9 = .pbyte 1 ∧ decodeCmd 0b0100_01101#9 = .pwide 13 ∧ decodeCmd 0b0101_00000#9 = .hdr 0 ∧
    decodeCmd 0b0110_00010#9 = .af 2 ∧ decodeCmd 0b0111_10000#9 = .afx 16 ∧ decodeCmd 0b1000_00000#9 = .decode 0 := by
  decide

/-- The reserved op codes (R111). -/
theorem test_decode_reserved :
    decodeCmd 0b1001_00000#9 = .reserved9 0 ∧ decodeCmd 0b1010_00001#9 = .reservedA 1 ∧
    decodeCmd 0b1011_00010#9 = .reservedB 2 ∧ decodeCmd 0b1100_00011#9 = .reservedC 3 ∧
    decodeCmd 0b1101_00100#9 = .reservedD 4 ∧ decodeCmd 0b1110_00101#9 = .reservedE 5 ∧
    decodeCmd 0b1111_11111#9 = .reservedF 31 := by decide

/-- A header with `AFP = PLP = 0`: vector H4, `47 E0 00 C0` (R91, R92). -/
theorem test_decode_tspNone : decode (.wire .tsh [0x47, 0xE0, 0x00, 0xC0]) =
    .ok (.tspNone { sync := 0x47, tei := true, pusi := true, tpri := true, pid := 0, tsc := 3, cc := 0 }, []) := by decide

/-- `AFP = 0`, `PLP = 1`: vector H6, `47 40 11 17`. -/
theorem test_decode_tspPayload : decode (.wire .tsh [0x47, 0x40, 0x11, 0x17, 0xDE]) =
    .ok (.tspPayload { sync := 0x47, tei := false, pusi := true, tpri := false, pid := 0x11, tsc := 0, cc := 7 },
      [0xDE]) := by decide

/-- `AFP = 1`, `PLP = 0`: vector H5, `00 80 01 2F`. -/
theorem test_decode_tspAf : decode (.wire .tsh [0x00, 0x80, 0x01, 0x2F]) =
    .ok (.tspAf { sync := 0, tei := true, pusi := false, tpri := false, pid := 1, tsc := 0, cc := 15 }, []) := by decide

/-- `AFP = PLP = 1`: vector H7, `47 5F FE F5`. -/
theorem test_decode_tspAfPayload : decode (.wire .tsh [0x47, 0x5F, 0xFE, 0xF5]) =
    .ok (.tspAfPayload { sync := 0x47, tei := false, pusi := true, tpri := false, pid := 0x1FFE, tsc := 3, cc := 5 },
      []) := by decide

/-- AFH16 (R93): bits 7:0 are `DI`, `RAI`, `ESPI`, then the PCR, OPCR, splice, private-data and extension flags. -/
theorem test_decode_afHead : decode (.wire .afHead [0x09, 0b10101010]) =
    .ok (.afHead { len := 9, di := true, rai := false, espi := true, pcr := false, opcr := true, spl := false,
                   tpd := true, afx := false }, []) := by decide

/-- PCR48 and OPCR48 (R94): six bytes, the most significant first (vectors A5, A6). -/
theorem test_decode_clocks :
    decode (.wire .pcr [0x01, 0x23, 0x45, 0x67, 0x89, 0xAB]) = .ok (.afPcr 0x0123456789AB, []) ∧
    decode (.wire .opcr [0xFF, 0xEE, 0xDD, 0xCC, 0xBB, 0xAA]) = .ok (.afOpcr 0xFFEEDDCCBBAA, []) := by decide

/-- SPL8 and TPD (R95, R96; vectors A7, A8). -/
theorem test_decode_splice_private :
    decode (.wire .spl [0xFB, 0x01]) = .ok (.afSplice 0xFB, [0x01]) ∧
    decode (.wire .tpd [0x03, 0xCA, 0xFE, 0x42, 0x0C]) = .ok (.afPrivate 3 [0xCA, 0xFE, 0x42], [0x0C]) := by decide

/-- AFXH16 (R97): three flags, then five reserved bits (vector X5's flags byte `9F`). -/
theorem test_decode_afxHead : decode (.wire .afxHead [0x03, 0b10011111]) =
    .ok (.afxHead { len := 3, ltw := true, pwr := false, sms := false, reserved := 31 }, []) := by decide

/-- LTW16 and PWR24 (R98, R99; vectors X4, X6). -/
theorem test_decode_ltw_pwr :
    decode (.wire .ltw [0xD5, 0xAA]) = .ok (.afxLtw true 0x55AA, []) ∧
    decode (.wire .pwr [0xEA, 0xBC, 0xDE]) = .ok (.afxPwr 3 0x2ABCDE, []) := by decide

/-- SMS40 (R100; vector X8): `7B 23 45 67 89`. -/
theorem test_decode_sms : decode (.wire .sms [0x7B, 0x23, 0x45, 0x67, 0x89]) =
    .ok (.afxSms { splt := 7, d2 := 5, m2 := true, d1 := 0x11A2, m1 := true, d0 := 0x33C4, m0 := true }, []) := by decide

/-- Bytes that end before their region does are refused by name (R109). -/
theorem test_decode_truncated :
    decode (.wire .tsh [0x47, 0x40, 0x11]) = .error (.truncated .tsh) ∧
    decode (.wire .tpd [0x03, 0xCA, 0xFE]) = .error (.truncated .tpd) ∧
    decode (.wire .spl []) = .error (.truncated .spl) := by decide

/-- Rows of the opcode table by number (notes/assumptions/9.md). -/
theorem test_decode_table_words :
    decodeTableWord 16 0x08D = some (.pwide 13) ∧ decodeTableWord 24 0xEABCDE = some (.afxPwr 3 0x2ABCDE) ∧
    decodeTableWord 32 0x47401117 =
      some (.tspPayload { sync := 0x47, tei := false, pusi := true, tpri := false, pid := 0x11, tsc := 0, cc := 7 }) ∧
    decodeTableWord 64 0 = none := by decide

/-! ### Cursor commands -/

/-- `OPEN` rewinds and clears `RVAL` and `ERR` (R131, R141). -/
theorem test_open : after (.openCur 7) { cursorAt [0xA5] 0 3 with rval := 5, err := some .outOfData } =
    { buffer [0xA5] with st := .doneOk } := by decide

/-- `PBIT`: the first bit of `A5` is 1 (vector C1). -/
theorem test_pbit : let s := after (.pbit 0) (buffer [0xA5])
    outcome s = (0, 1, 2, 0) ∧ s.rval = 1 := by decide

/-- `PBIT` at the end of the buffer (vector C1): `OutOfData`. -/
theorem test_pbit_end : outcome (after (.pbit 0) (cursorAt [0xA5] 1 0)) = (1, 0, 3, 1) := by decide

/-- `PBITS 2` of `C3` is 3, the cursor at (0, 2) (part 1, S1). -/
theorem test_pbits : let s := after (.pbits 2) (buffer [0xC3])
    outcome s = (0, 2, 2, 0) ∧ s.rval = 3 := by decide

/-- `PBITS` tests the count before the span (R239): 9 from bit 3 is `InvalidBitCount`, 6 is `InsufficientBitsInByte`. -/
theorem test_pbits_order : outcome (after (.pbits 9) (cursorAt [0xC3] 0 3)) = (0, 3, 3, 3) ∧
    outcome (after (.pbits 6) (cursorAt [0xC3] 0 3)) = (0, 3, 3, 4) := by decide

/-- `PBYTE` of `47` (part 1, S2). -/
theorem test_pbyte : let s := after (.pbyte 0) (buffer [0x47, 0x40])
    outcome s = (1, 0, 2, 0) ∧ s.rval = 0x47 := by decide

/-- `PBYTE` off a byte boundary (part 1, S2): `NotByteAligned`, also at the end of the buffer (R239). -/
theorem test_pbyte_aligned : outcome (after (.pbyte 0) (cursorAt [0x47, 0x40] 1 1)) = (1, 1, 3, 2) ∧
    outcome (after (.pbyte 0) (cursorAt [] 0 1)) = (0, 1, 3, 2) := by decide

/-- `PWIDE 13` of `FF FF` is `1FFF`, the cursor at (1, 5) (part 1, S3). -/
theorem test_pwide : let s := after (.pwide 13) (buffer [0xFF, 0xFF])
    outcome s = (1, 5, 2, 0) ∧ s.rval = 0x1FFF := by decide

/-- `PWIDE 8` stays inside one byte and is refused; `PWIDE 9` with one byte left is `OutOfData` (vectors C3, C5). -/
theorem test_pwide_refused : outcome (after (.pwide 8) (buffer [0x12, 0x34])) = (0, 0, 3, 3) ∧
    outcome (after (.pwide 9) (buffer [0x12])) = (0, 0, 3, 1) := by decide

/-! ### Composite operations -/

/-- `HDR` of `47 5F FE F5` (vector H7). -/
theorem test_hdr : let s := after (.hdr 0) (buffer [0x47, 0x5F, 0xFE, 0xF5])
    outcome s = (4, 0, 2, 0) ∧ s.p.pid = 0x1FFE ∧ s.p.tsc = 3 ∧ s.p.cc = 5 ∧ s.p.pusi = true ∧ s.p.afp = true := by decide

/-- `HDR` cut short at the PID (vector H10). -/
theorem test_hdr_short : outcome (after (.hdr 0) (buffer [0x47, 0x40])) = (1, 3, 3, 1) := by decide

/-- `AF` with private data (vector A8). -/
theorem test_af_private : let s := after (.af 0) (buffer [0x05, 0x02, 0x03, 0xCA, 0xFE, 0x42])
    outcome s = (6, 0, 2, 0) ∧ s.a.tpdl = 3 ∧ s.a.tpdb = [0xCA, 0xFE, 0x42] ∧ s.a.tpdV = true := by decide +kernel

/-- `AF` whose length does not cover its flags (vector A12): the budget wins over the end of the buffer (R240). -/
theorem test_af_overrun : outcome (after (.af 0) (buffer [0x03, 0x10])) = (2, 0, 3, 5) := by decide

/-- `AFX` with a legal time window and reserved bits set (vector X5). -/
theorem test_afx : let s := after (.afx 0) (buffer [0x03, 0x9F, 0x00, 0x01])
    outcome s = (4, 0, 2, 0) ∧ s.x.ltwvf = false ∧ s.x.ltwo = 1 ∧ s.x.ltwV = true ∧ s.a.afxV = true := by decide

/-- `AFX` cut short in mid-byte (vector X17): the cursor stays mid-byte, the registers are cleared. -/
theorem test_afx_short : let s := after (.afx 0) (buffer [0x03, 0x80, 0xD5])
    outcome s = (2, 1, 3, 1) ∧ s.x = .clear := by decide

/-- `DECODE` of a packet with payload only (vector D2). -/
theorem test_decode_payload : let s := after (.decode 0) (buffer [0x47, 0x40, 0x11, 0x17, 0xDE, 0xAD])
    outcome s = (4, 0, 2, 0) ∧ s.p.plV = true ∧ s.p.plOff = 4 ∧ s.p.plLen = 2 ∧ s.p.afV = false := by decide

/-- `DECODE` of a zero-length adaptation field (vector D8). -/
theorem test_decode_zero_length : let s := after (.decode 0) (buffer [0x47, 0x00, 0x00, 0x30, 0x00, 0xAA])
    outcome s = (5, 0, 3, 5) ∧ s.p = .clear := by decide

/-- Reserved commands change nothing (R111). -/
theorem test_reserved : let s := { cursorAt [0xA5] 0 3 with rval := 9, st := .doneErr, err := some .outOfData }
    [Instr.reserved9 0, .reservedA 1, .reservedB 2, .reservedC 3, .reservedD 4, .reservedE 5, .reservedF 31].all
      (fun i => decide (after i s = s)) = true := by decide

/-! ### Regions, one step each -/

/-- A header without adaptation field and payload ends `DECODE` (R162; vector D1). -/
theorem test_tspNone : let s := stepped (regionAt .decode .tsh [0x47, 0x40, 0x11, 0x07, 0xDE] 0 0 0)
    outcome s = (4, 0, 2, 0) ∧ s.p.pid = 0x11 ∧ s.p.plV = false ∧ s.seq = none := by decide

/-- A header with payload names it (R163; vector D3: an empty payload). -/
theorem test_tspPayload : let s := stepped (regionAt .decode .tsh [0x47, 0x40, 0x11, 0x17] 0 0 0)
    outcome s = (4, 0, 2, 0) ∧ s.p.plV = true ∧ s.p.plOff = 4 ∧ s.p.plLen = 0 := by decide

/-- A header with adaptation field under `DECODE`: the field's head is next, `ST` stays BUSY (R92, R38). -/
theorem test_tspAf : let s := stepped (regionAt .decode .tsh [0x47, 0x00, 0x00, 0x20, 0x01, 0x00] 0 0 0)
    outcome s = (4, 0, 1, 0) ∧ s.seq = some (.decode, .afHead) := by decide

/-- The same header under `HDR` ends the operation (R161). -/
theorem test_tspAfPayload : let s := stepped (regionAt .hdr .tsh [0x47, 0x5F, 0xFE, 0xF5] 0 0 0)
    outcome s = (4, 0, 2, 0) ∧ s.p.plV = false ∧ s.seq = none := by decide

/-- The head of an adaptation field with a PCR (vector A5): `AF_END = 8`, the PCR next. -/
theorem test_afHead : let s := stepped (regionAt .af .afHead [0x07, 0x10, 0x01, 0x23, 0x45, 0x67, 0x89, 0xAB] 0 0 0)
    outcome s = (2, 0, 1, 0) ∧ s.afEnd = 8 ∧ s.f.pcr = true ∧ s.seq = some (.af, .pcr) := by decide

/-- The PCR, the last region of its field (vector A5): the operation ends. -/
theorem test_afPcr :
    let s := stepped (regionAt .af .pcr [0x07, 0x10, 0x01, 0x23, 0x45, 0x67, 0x89, 0xAB] 2 8 0)
    outcome s = (8, 0, 2, 0) ∧ s.a.pcr = 0x0123456789AB ∧ s.a.pcrV = true ∧ s.a.stfV = false ∧ s.p.afV = true := by decide

/-- The OPCR and two bytes of stuffing after it (vector A6's clock; R190). -/
theorem test_afOpcr :
    let s := stepped (regionAt .af .opcr [0xFF, 0xEE, 0xDD, 0xCC, 0xBB, 0xAA, 0xFF, 0xFF] 0 8 0)
    outcome s = (8, 0, 2, 0) ∧ s.a.opcr = 0xFFEEDDCCBBAA ∧ s.a.stfOff = 6 ∧ s.a.stfLen = 2 := by decide

/-- The splice countdown (vector A7). -/
theorem test_afSplice : let s := stepped (regionAt .af .spl [0x02, 0x04, 0xFB] 2 3 0)
    outcome s = (3, 0, 2, 0) ∧ s.a.splc = 0xFB ∧ s.a.splV = true := by decide

/-- Private data past its budget (vector A16): `AdaptationFieldOverrun` after the length byte. -/
theorem test_afPrivate_overrun :
    outcome (stepped (regionAt .af .tpd [0x04, 0x02, 0x03, 0xCA, 0xFE, 0x42] 2 5 0)) = (3, 0, 3, 5) := by decide

/-- Private data that is present and empty (vector A9). -/
theorem test_afPrivate_empty : let s := stepped (regionAt .af .tpd [0x02, 0x02, 0x00] 2 3 0)
    outcome s = (3, 0, 2, 0) ∧ s.a.tpdV = true ∧ s.a.tpdl = 0 ∧ s.a.tpdb = [] := by decide

/-- The head of an extension that passes its adaptation field (vector AX2). -/
theorem test_afxHead_overrun :
    outcome (stepped (regionAt .af .afxHead [0x03, 0x01, 0x02, 0x00, 0x00] 2 4 0)) = (3, 0, 3, 5) := by decide

/-- The head of a stand-alone extension has no limit (R210): three flags set, the legal time window next (vector X11). -/
theorem test_afxHead : let s := stepped (regionAt .afx .afxHead [0x0C, 0xE0] 0 0 0)
    outcome s = (2, 0, 1, 0) ∧ s.afxEnd = 13 ∧ s.seq = some (.afx, .ltw) := by decide

/-- The legal time window (vector X4). -/
theorem test_afxLtw : let s := stepped (regionAt .afx .ltw [0x03, 0x80, 0xD5, 0xAA] 2 0 4)
    outcome s = (4, 0, 2, 0) ∧ s.x.ltwvf = true ∧ s.x.ltwo = 0x55AA ∧ s.a.afxV = true := by decide

/-- The piecewise rate (vector X6). -/
theorem test_afxPwr : let s := stepped (regionAt .afx .pwr [0x04, 0x40, 0xEA, 0xBC, 0xDE] 2 0 5)
    outcome s = (5, 0, 2, 0) ∧ s.x.pwr = 0x2ABCDE ∧ s.x.pwrV = true := by decide

/-- The seamless splice with its marker bits 0 (vector X9). -/
theorem test_afxSms : let s := stepped (regionAt .afx .sms [0x06, 0x20, 0x7A, 0x23, 0x44, 0x67, 0x88] 2 0 7)
    outcome s = (7, 0, 2, 0) ∧ s.x.splt = 7 ∧ s.x.dts = 0x148D133C4 := by decide

/-! ### The step -/

/-- A placed command runs as the next step; a placed region as well. -/
theorem test_withFetchWord : (stepped (State.reset.withFetchWord 16 0x020)).err = some .outOfData ∧
    (stepped (State.reset.withFetchWord 24 0xEABCDE)).x.pwr = 0x2ABCDE := by decide +kernel

/-- The host's reset in the middle of an operation (70_reset_and_hazards.md R270). -/
theorem test_reset_running :
    stepped { regionAt .decode .tsh [0x47] 0 0 0 with script := [.reset, .wait] } =
      { buffer [0x47] with script := [.wait] } := by decide

/-- A command that the host writes while `ST` is BUSY waits until the operation is over (R275). -/
theorem test_command_waits :
    let s := stepped { regionAt .decode .tsh [0x47, 0x00, 0x00, 0x20, 0x01, 0x00] 0 0 0 with script := [.cmd 0] }
    s.seq = some (.decode, .afHead) ∧ s.script = [.cmd 0] := by decide

/-! ### Witnesses: for every obligation with hypotheses, states that meet them, each clause at a boundary -/

theorem exec_after (i : Instr) (s : State) : exec i s = .next (after i s) := by
  obtain ⟨t, h⟩ := exec_next i s
  rw [after, h]
  rfl

/-- Packets and parts of packets from 95_test_vectors.md. -/
def packetD1 : List Byte := [0x47, 0x40, 0x11, 0x07, 0xDE, 0xAD]
def packetD4 : List Byte := [0x47, 0x00, 0x00, 0x20, 0x01, 0x00]
def packetD5 : List Byte := [0x47, 0x00, 0x00, 0x30, 0x01, 0x00, 0xAA, 0xBB]
def packetD8 : List Byte := [0x47, 0x00, 0x00, 0x30, 0x00, 0xAA]
def fieldA1 : List Byte := [0x01, 0x00]
def fieldA8 : List Byte := [0x05, 0x02, 0x03, 0xCA, 0xFE, 0x42]

theorem witness_EncodedInstructionsDecodeBack :
    (Instr.afPrivate 0 []).wellFormed = true ∧ (Instr.afPrivate 255 (List.replicate 255 0xFF)).wellFormed = true ∧
      (Instr.pwide 31).wellFormed = true := by decide +kernel

theorem witness_EveryEncodingDecodesWithoutLoss :
    regionSize .tpd [0x02, 0xCA, 0xFE] = 3 ∧ [0x02, 0xCA].length < regionSize .tpd [0x02, 0xCA] ∧
      regionSize .tsh [0x47, 0x40, 0x11, 0x17] = 4 ∧ [0x47].length < regionSize .tsh [0x47] := by decide

theorem witness_PbitReadsTheNextBit : (cursorAt [0xA5] 0 7).bp < (cursorAt [0xA5] 0 7).len ∧
    (cursorAt [0xA5] 1 0).len ≤ (cursorAt [0xA5] 1 0).bp := by decide

theorem witness_PbitsReadsWithinOneByte :
    (let s := cursorAt [0xA5] 0 3
     1 ≤ (5#5).toNat ∧ s.bo.val + (5#5).toNat ≤ 8 ∧ s.bp < s.len) ∧
    ((0#5).toNat = 0 ∧ 8 < (9#5).toNat) ∧ (1 ≤ (6#5).toNat ∧ (6#5).toNat ≤ 8 ∧ 8 < (cursorAt [0xA5] 0 3).bo.val + (6#5).toNat) ∧
    (let s := cursorAt [0xA5] 1 0
     1 ≤ (8#5).toNat ∧ s.bo.val + (8#5).toNat ≤ 8 ∧ s.len ≤ s.bp) := by decide

theorem witness_PbyteReadsAnAlignedByte : (let s := buffer [0x47]
     s.bo = 0 ∧ s.bp < s.len) ∧ (cursorAt [0x47] 0 1).bo ≠ 0 ∧
    (let s := cursorAt [0x47] 1 0
     s.bo = 0 ∧ s.len ≤ s.bp) := by decide

theorem witness_PwideReadsAcrossOneBoundary :
    (let s := cursorAt [0xFF, 0xFF] 0 3
     9 ≤ (6#5).toNat + s.bo.val ∧ (13#5).toNat + s.bo.val ≤ 16 ∧ s.bp + 1 < s.len) ∧
    (let s := cursorAt [0xFF, 0xFF] 0 3
     (5#5).toNat + s.bo.val ≤ 8 ∧ 16 < (14#5).toNat + s.bo.val) ∧
    (let s := cursorAt [0xFF, 0xFF] 1 0
     9 ≤ (9#5).toNat + s.bo.val ∧ (9#5).toNat + s.bo.val ≤ 16 ∧ s.len ≤ s.bp + 1) := by decide

theorem witness_PrimitivesNeverPartlyAdvance : let s := buffer [0xFF, 0xFF]
    (after (.pbit 0) s).err = none ∧ (after (.pbits 8) s).err = none ∧ (after (.pbyte 0) s).err = none ∧
      (after (.pwide 16) s).err = none ∧ (after (.pwide 8) s).err ≠ none := by decide

theorem witness_WideReadsAreTwoReads : let s := cursorAt [0xFF, 0xFF] 0 3
    (∃ t, exec (.pwide 13) s = .next t ∧ t.err = none) ∧ (5#5).toNat = 8 - s.bo.val ∧
      (8#5).toNat = (13#5).toNat - (5#5).toNat :=
  ⟨⟨_, exec_after _ _, by decide⟩, by decide, by decide⟩

/-- The byte boundaries of its second clause: the last byte of a one-byte buffer, and its end. -/
theorem witness_WideReadsAreTwoReads_byte :
    (let s := buffer [0xA5]
     s.bo = 0 ∧ s.bp + 1 = s.len) ∧
    (let s := cursorAt [0xA5] 1 0
     s.bo = 0 ∧ s.len ≤ s.bp) := by decide

theorem witness_SplitReadsRebuildTheByte : let s := buffer [0xC3]
    s.bo = 0 ∧ s.bp < s.len ∧ 1 ≤ (7#5).toNat ∧ (7#5).toNat ≤ 7 ∧ (1#5).toNat = 8 - (7#5).toNat := by decide

theorem witness_PbyteReadsTheBufferInOrder : 0 ≤ (buffer []).len ∧ 2 ≤ (buffer [0x47, 0x40]).len := by decide

theorem witness_ReservedCommandsAreIgnored : 0x9 ≤ (slice 8 5 (0x120 : Cmd)).toNat ∧ 0x9 ≤ (slice 8 5 (0x1FF : Cmd)).toNat := by
  decide

theorem witness_HdrExtractsTheHeader : let s := cursorAt (0x00 :: packetD1) 1 0
    s.bo = 0 ∧ s.bp + 4 ≤ s.len := by decide

theorem witness_HdrCutShortFails :
    (buffer []).len ≤ (buffer []).bp ∧ (buffer [0x47]).len = 0 + 1 ∧ (buffer [0x47, 0x40]).len = 0 + 2 ∧
      (buffer [0x47, 0x40, 0x11]).len = 0 + 3 ∧ (buffer []).bo = 0 := by decide

theorem witness_UnalignedStartsAreRefused : (cursorAt fieldA1 0 7).bo ≠ 0 := by decide

theorem witness_HeaderVariantsSelectWhatFollows :
    (let s := regionAt .decode .tsh packetD1 0 0 0
     s.bo = 0 ∧ s.bp + 4 ≤ s.len ∧ s.running .decode = .decode) ∧
    (let s := regionAt .hdr .tsh packetD1 2 0 0
     s.bo = 0 ∧ s.bp + 4 ≤ s.len ∧ s.running .decode ≠ .decode) := by decide

theorem witness_AfDecodesTheField : (let s := buffer fieldA1
     s.bo = 0 ∧ s.fieldFits s.bp = true) ∧
    (let s := buffer fieldA8
     s.bo = 0 ∧ s.fieldFits s.bp = true) := by decide

/-- A PCR that its field does not hold; a PCR that the buffer does not hold; an OPCR that the field does not hold, the
buffer ending in the PCR before it; an extension cut inside its legal time window. -/
theorem witness_AfRejectsOtherFields : (let s := buffer [0x03, 0x10]
     s.bo = 0 ∧ s.fieldFits s.bp = false ∧ s.fieldHolds s.bp = false ∧ s.fieldStop s.bp = 2 ∧ s.len = 2) ∧
    (let s := buffer [0x07, 0x10]
     s.bo = 0 ∧ s.fieldFits s.bp = false ∧ s.fieldHolds s.bp = true ∧ s.fieldCut s.bp = (2, 0)) ∧
    (let s := buffer [0x08, 0x18, 0x00]
     s.bo = 0 ∧ s.fieldFits s.bp = false ∧ s.fieldHolds s.bp = false ∧ s.len < s.fieldStop s.bp) ∧
    (let s := buffer [0x05, 0x01, 0x03, 0x80, 0xD5]
     s.bo = 0 ∧ s.fieldFits s.bp = false ∧ s.fieldHolds s.bp = true ∧ s.fieldCut s.bp = (4, 1)) := by decide

theorem witness_ZeroFieldLengthOverruns : let s := buffer [0x00]
    s.bo = 0 ∧ s.bp < s.len ∧ s.memRead s.bp = 0 := by decide

theorem witness_FieldLengthsAddUp : (buffer [0x04, 0x00, 0xFF, 0xFF, 0xFF]).bo = 0 ∧
    ∃ t, exec (.af 0) (buffer [0x04, 0x00, 0xFF, 0xFF, 0xFF]) = .next t ∧ t.err = none ∧ t.a.stfV = true :=
  ⟨by decide, _, exec_after _ _, by decide +kernel, by decide +kernel⟩

theorem witness_PrivateDataIsCopied : (buffer fieldA8).bo = 0 ∧
    ∃ t, exec (.af 0) (buffer fieldA8) = .next t ∧ t.err = none ∧ t.a.tpdl = 3 :=
  ⟨by decide, _, exec_after _ _, by decide +kernel, by decide +kernel⟩

theorem witness_AfxDecodesTheExtension : let s := buffer [0x03, 0x80, 0xD5, 0xAA]
    s.bo = 0 ∧ s.extFits s.bp = true := by decide

theorem witness_AfxRejectsOtherExtensions : (let s := buffer [0x02, 0x80, 0xD5, 0xAA]
     s.bo = 0 ∧ s.extFits s.bp = false ∧ s.extHolds s.bp = false ∧ s.extStop s.bp = 2 ∧ s.len = 4) ∧
    (let s := buffer [0x03, 0x80, 0xD5]
     s.bo = 0 ∧ s.extFits s.bp = false ∧ s.extHolds s.bp = true ∧ s.extCut s.bp = (2, 1)) ∧
    (let s := buffer [0x03, 0xC0, 0xD5]
     s.bo = 0 ∧ s.extFits s.bp = false ∧ s.extHolds s.bp = false ∧ s.len < s.extStop s.bp) := by decide

theorem witness_DecodeDecodesThePacket : (let s := buffer packetD1
     4 ≤ s.len ∧ (s.layoutP 0).afp = false) ∧
    (let s := buffer packetD5
     4 ≤ s.len ∧ (s.layoutP 0).afp = true ∧ s.fieldFits 4 = true) := by decide

theorem witness_DecodeRejectsOtherPackets : (buffer [0x47, 0x00, 0x00]).len < 4 ∧ (buffer [0x47, 0x40]).len = 2 ∧
    (let s := buffer packetD8
     4 ≤ s.len ∧ (s.layoutP 0).afp = true ∧ s.fieldFits 4 = false ∧ s.fieldHolds 4 = false ∧ s.fieldStop 4 ≤ s.len) ∧
    (let s := buffer [0x47, 0x00, 0x00, 0x20]
     4 ≤ s.len ∧ (s.layoutP 0).afp = true ∧ s.fieldFits 4 = false ∧ s.len < s.fieldStop 4) ∧
    (let s := buffer [0x47, 0x00, 0x00, 0x20, 0x05, 0x01, 0x03, 0x80, 0xD5]
     4 ≤ s.len ∧ (s.layoutP 0).afp = true ∧ s.fieldFits 4 = false ∧ s.fieldHolds 4 = true ∧ s.fieldCut 4 = (8, 1)) := by
  decide

theorem witness_PresenceFollowsTheHeader :
    (∃ t, exec (.decode 0) (buffer packetD5) = .next t ∧ t.err = none ∧ t.p.plp = true) ∧
      ∃ t, exec (.hdr 0) (buffer packetD5) = .next t ∧ t.err = none :=
  ⟨⟨_, exec_after _ _, by decide +kernel, by decide +kernel⟩, _, exec_after _ _, by decide +kernel⟩

theorem witness_PresenceFollowsTheFlags :
    ∃ t, exec (.decode 0) (buffer packetD5) = .next t ∧ t.err = none ∧ t.p.plV = true :=
  ⟨_, exec_after _ _, by decide +kernel, by decide +kernel⟩

theorem witness_DecodeReturnsThePacket :
    (∃ t, exec (.decode 0) (buffer packetD5) = .next t ∧ t.err = none ∧ t.result = .ok t.packetRecord ∧
      t.packetRecord.payload = some [0xAA, 0xBB]) ∧
    ∃ t, exec (.decode 0) (buffer packetD8) = .next t ∧ t.err = some .adaptationFieldOverrun :=
  ⟨⟨_, exec_after _ _, by decide +kernel, by decide +kernel, by decide +kernel⟩, _, exec_after _ _, by decide +kernel⟩

theorem witness_StagedDecodeAgrees :
    ∃ t, exec (.decode 0) (buffer packetD4) = .next t ∧ t.err = none ∧ t.p.afp = true :=
  ⟨_, exec_after _ _, by decide +kernel, by decide +kernel⟩

theorem witness_DecodeForgetsTheLastPacket : let s := buffer packetD4
    let s' := { s with a := { s.a with pcrV := true, pcr := 5 }, afEnd := 7, rval := 3 }
    s'.data = s.data ∧ s'.len = s.len ∧ (∃ t, exec (.decode 0) s = .next t) ∧ ∃ t, exec (.decode 1) s' = .next t :=
  ⟨rfl, rfl, ⟨_, exec_after _ _⟩, _, exec_after _ _⟩

theorem witness_CompositesRaiseTwoErrors : (buffer fieldA1).bo = 0 ∧ (∃ t, exec (.af 0) (buffer fieldA1) = .next t) ∧
    (∃ t, exec (.hdr 0) (buffer fieldA1) = .next t) ∧ ∃ t, exec (.decode 0) (buffer fieldA1) = .next t :=
  ⟨by decide, ⟨_, exec_after _ _⟩, ⟨_, exec_after _ _⟩, _, exec_after _ _⟩

theorem witness_CompositesCommitOrClear : CursorOk (cursorAt fieldA1 1 7) ∧ CursorOk (cursorAt fieldA1 2 0) := by
  unfold CursorOk
  decide

theorem witness_GroupsOverBudgetAreNotRead :
    (let s := regionAt .af .pcr packetD5 2 7 0
     s.afEnd < s.bp + 6) ∧
    (let s := regionAt .af .spl packetD5 2 2 0
     s.afEnd < s.bp + 1) ∧
    (let s := regionAt .af .tpd [0x04, 0x02, 0x03, 0xCA, 0xFE] 2 5 0
     s.bo = 0 ∧ s.bp < s.len ∧ s.bp + 1 ≤ s.afEnd ∧ s.afEnd < s.bp + 1 + (3#8).toNat) ∧
    (let s := regionAt .afx .ltw packetD5 2 0 3
     s.afxEnd < s.bp + 2) ∧
    (let s := regionAt .afx .pwr packetD5 2 0 4
     s.afxEnd < s.bp + 3) ∧
    (let s := regionAt .afx .sms packetD5 2 0 6
     s.afxEnd < s.bp + 5) := by decide

theorem witness_HeadsCheckTheirLengths :
    let h (n : Byte) : AfxHead := { len := n, ltw := false, pwr := false, sms := false, reserved := 0 }
    (let s := buffer [0x00]
     s.bo = 0 ∧ s.bp < s.len) ∧
    (let s := regionAt .af .afxHead [0x01, 0x01, 0x01, 0x00] 2 2 0
     s.bo = 0 ∧ s.running .afx ≠ .afx ∧ s.afEnd < s.bp + 1) ∧
    (let s := regionAt .af .afxHead [0x03, 0x01, 0x02, 0x00, 0x00] 2 4 0
     s.bo = 0 ∧ s.running .afx ≠ .afx ∧ s.bp < s.len ∧ s.bp + 1 ≤ s.afEnd ∧ s.afEnd < s.bp + 1 + (h 2).len.toNat) ∧
    (let s := regionAt .afx .afxHead [0x00] 0 0 0
     s.bo = 0 ∧ s.bp < s.len ∧ s.running .afx = .afx ∧ (h 0).len = 0) := by decide

theorem witness_FieldRegionsAreRead :
    (let s := regionAt .af .afHead fieldA1 0 0 0
     s.bo = 0 ∧ 1 ≤ (1#8).toNat ∧ s.bp + 2 ≤ s.len) ∧
    (let s := regionAt .af .pcr packetD4 0 6 0
     s.bo = 0 ∧ s.bp + 6 ≤ s.afEnd ∧ s.bp + 6 ≤ s.len) ∧
    (let s := regionAt .af .spl packetD4 5 6 0
     s.bo = 0 ∧ s.bp + 1 ≤ s.afEnd ∧ s.bp + 1 ≤ s.len) ∧
    (let s := regionAt .af .tpd packetD4 2 6 0
     s.bo = 0 ∧ s.bp + 1 + (3#8).toNat ≤ s.afEnd ∧ s.bp + 1 + (3#8).toNat ≤ s.len) := by decide

/-- The three ways a region is left: to the next one, to the end of its field, to `OutOfData` at that end. -/
theorem witness_Continues :
    nextRegion .af .spl { regionAt .af .spl packetD4 5 6 0 with f := { Latches.clear with afx := true } } = some .afxHead ∧
    (let t := regionAt .af .spl packetD4 6 6 0
     nextRegion .af .spl t = none ∧ t.endOffset .af .spl ≤ t.len) ∧
    (let t := regionAt .af .spl packetD4 6 7 0
     nextRegion .af .spl t = none ∧ t.len < t.endOffset .af .spl) := by decide

theorem witness_ExtensionRegionsAreRead :
    (let s := regionAt .af .afxHead fieldA1 0 2 0
     s.bo = 0 ∧ 1 ≤ (1#8).toNat ∧ s.bp + 2 ≤ s.len ∧ s.bp + 1 + (1#8).toNat ≤ s.afEnd) ∧
    (let s := regionAt .afx .ltw packetD4 4 0 6
     s.bo = 0 ∧ s.bp + 2 ≤ s.afxEnd ∧ s.bp + 2 ≤ s.len) ∧
    (let s := regionAt .afx .pwr packetD4 3 0 6
     s.bo = 0 ∧ s.bp + 3 ≤ s.afxEnd ∧ s.bp + 3 ≤ s.len) ∧
    (let s := regionAt .afx .sms packetD4 1 0 6
     s.bo = 0 ∧ s.bp + 5 ≤ s.afxEnd ∧ s.bp + 5 ≤ s.len) := by decide

/-- Each clause with the buffer ending mid-region, among them the two-byte reads that lack their second byte. -/
theorem witness_RegionsCutShortRaiseOutOfData :
    (let s := regionAt .decode .tsh [0x47, 0x40] 0 0 0
     s.bo = 0 ∧ s.bp ≤ s.len ∧ s.len < s.bp + 4 ∧ s.len = s.bp + 2) ∧
    (let s := regionAt .af .afHead [0x01] 0 0 0
     s.bo = 0 ∧ s.bp ≤ s.len ∧ s.len < s.bp + 2 ∧ 1 ≤ (1#8).toNat) ∧
    (let s := regionAt .af .pcr [0x07, 0x10] 2 8 0
     s.bo = 0 ∧ s.bp ≤ s.len ∧ s.bp + 6 ≤ s.afEnd ∧ s.len < s.bp + 6) ∧
    (let s := regionAt .af .spl [0x02, 0x04] 2 3 0
     s.bo = 0 ∧ s.bp ≤ s.len ∧ s.bp + 1 ≤ s.afEnd ∧ s.len < s.bp + 1) ∧
    (let s := regionAt .af .tpd [0x05, 0x02, 0x03, 0xCA] 2 6 0
     s.bo = 0 ∧ s.bp ≤ s.len ∧ s.bp + 1 + (3#8).toNat ≤ s.afEnd ∧ s.len < s.bp + 1 + (3#8).toNat) ∧
    (let s := regionAt .afx .afxHead [0x01] 0 0 0
     s.bo = 0 ∧ s.bp ≤ s.len ∧ s.len < s.bp + 2 ∧ s.running .afx = .afx) ∧
    (let s := regionAt .afx .ltw [0x03, 0x80, 0xD5] 2 0 4
     s.bo = 0 ∧ s.bp ≤ s.len ∧ s.bp + 2 ≤ s.afxEnd ∧ s.len = s.bp + 1) ∧
    (let s := regionAt .afx .pwr [0x04, 0x40, 0xEA] 2 0 5
     s.bo = 0 ∧ s.bp ≤ s.len ∧ s.bp + 3 ≤ s.afxEnd ∧ s.len = s.bp + 1) ∧
    (let s := regionAt .afx .sms [0x06, 0x20, 0x7B, 0x23] 2 0 7
     s.bo = 0 ∧ s.bp ≤ s.len ∧ s.bp + 5 ≤ s.afxEnd ∧ s.len = s.bp + 2) ∧
    (let s := regionAt .afx .sms [0x06, 0x20, 0x7B, 0x23, 0x45, 0x67] 2 0 7
     s.bo = 0 ∧ s.bp ≤ s.len ∧ s.bp + 5 ≤ s.afxEnd ∧ s.len = s.bp + 4) := by decide

theorem witness_RegionsFollowInWireOrder :
    [Region.afHead, .pcr, .opcr, .spl, .tpd][4]? = some .tpd ∧ [Region.afxHead, .ltw, .pwr, .sms][0]? = some .afxHead := by
  decide

theorem witness_DecodedRegionsAreTheCursorsReads : let s := regionAt .af .spl [0x02, 0x04, 0xFB] 2 3 0
    s.seq = some (.af, .spl) ∧ s.fetchRegion .spl = some (.afSplice 0xFB) := by decide

theorem witness_WatchedRunsAreAtomicRuns : (buffer packetD5).script.head? ≠ some .reset ∧
    (buffer packetD5).script.head? ≠ some .wait := by decide

theorem witness_StepRunsTheHostsCommand :
    (let s := { buffer packetD5 with script := [.cmd 0x100, .reset] }
     s.seq = none ∧ s.script = .cmd 0x100 :: [.reset]) ∧
    (let s := { buffer packetD5 with script := [.issue 0x100] }
     s.seq = none ∧ s.script = .issue 0x100 :: [] ∧ compositeOf (decodeCmd 0x100) = some .decode ∧
       compositeOf (decodeCmd 0x020) = none) := by decide

theorem witness_StepRunsTheRegionAtTheCursor : let s := regionAt .af .tpd fieldA8 2 6 0
    let i := Instr.afPrivate 3 [0xCA, 0xFE, 0x42]
    let bytes : List Byte := [0x03, 0xCA, 0xFE, 0x42]
    s.seq = some (.af, .tpd) ∧ s.script.head? ≠ some .reset ∧ s.script.head? ≠ some .wait ∧ i.wellFormed = true ∧
      encode i = .wire .tpd bytes ∧ s.bo = 0 ∧ s.bp + bytes.length ≤ s.len ∧ s.bytesAt s.bp bytes.length = bytes := by decide

theorem witness_EveryStepGoesOn : State.reset.seq = none ∧ State.reset.script = [] := by decide

theorem witness_ResetAppliesAtAnyTime :
    { buffer [0x47] with script := [.reset] }.script = .reset :: [] ∧
      { regionAt .hdr .tsh [0x47] 0 0 0 with script := [.reset, .wait] }.script = .reset :: [.wait] := by decide

theorem witness_HostReadsTheRegisters : (cursorAt packetD1 1 0).st ≠ .busy ∧
    (cursorAt packetD1 1 0).hostRead (.tpdb 254) = some 0 ∧ (cursorAt packetD1 1 0).hostRead .stfLen = some 0 := by decide

theorem witness_HostWritesTheBuffer :
    (let s := { buffer [0x47, 0x40] with script := [.data 1 [0x00, 0x11], .wait] }
     s.seq = none ∧ s.data.wf = true ∧ s.script = .data 1 [0x00, 0x11] :: [.wait]) ∧
    (let s := { buffer [0x47] with script := [.len 0] }
     s.seq = none ∧ s.data.wf = true ∧ s.script = .len 0 :: []) := by decide

theorem witness_NoInstructionWritesTheBuffer : ∃ t, exec (.af 0) (buffer fieldA1) = .next t := ⟨_, exec_after _ _⟩

theorem witness_BytesPastTheEndDecideNothing : let s := { buffer [0x47, 0x40, 0xAA] with len := 2 }
    (∀ a, a < s.len → Memory.read (buffer [0x47, 0x40, 0xBB]).data a = s.data.read a) ∧
      ∃ t, exec (.hdr 0) s = .next t := ⟨by decide, _, exec_after _ _⟩

theorem witness_InstructionsKeepTheCursorInside : (∃ t, exec (.pbit 0) (cursorAt [0xA5] 0 7) = .next t) ∧
    CursorOk (cursorAt [0xA5] 0 7) ∧ bindsCursor (.openCur 0) = true := by
  refine ⟨⟨_, exec_after _ _⟩, ?_, rfl⟩
  unfold CursorOk
  decide

theorem witness_CursorOnlyMovesForward : (∃ t, exec (.af 0) (buffer fieldA1) = .next t) ∧ bindsCursor (.af 0) = false ∧
    CursorOk (buffer fieldA1) := by
  refine ⟨⟨_, exec_after _ _⟩, rfl, ?_⟩
  unfold CursorOk
  decide

theorem witness_InstructionsWriteTheirOwnRegisters :
    (∃ t, exec (.pbit 0) (buffer fieldA1) = .next t) ∧ (∃ t, exec (.hdr 0) (buffer packetD1) = .next t ∧ t.err = none) ∧
    (∃ t, exec (.af 0) (buffer fieldA1) = .next t ∧ t.err = none) ∧
    ∃ t, exec (.afx 0) (buffer fieldA1) = .next t ∧ t.err = none :=
  ⟨⟨_, exec_after _ _⟩, ⟨_, exec_after _ _, by decide +kernel⟩, ⟨_, exec_after _ _, by decide +kernel⟩, _,
    exec_after _ _, by decide +kernel⟩

theorem witness_OperationsEndDone : let s := buffer packetD1
    startsOperation (.decode 0) = true ∧ s.seq = none ∧ s.afEnd = 0 ∧ s.afxEnd = 0 ∧ ∃ t, exec (.decode 0) s = .next t :=
  ⟨rfl, rfl, rfl, rfl, _, exec_after _ _⟩

/-- The invariant holds in a state with the sequencer at work and a command waiting, from which a step goes on. -/
theorem witness_StepKeepsTheInvariant : let s := { regionAt .af .spl [0x02, 0x04, 0xFB] 2 3 0 with script := [.cmd 0] }
    MachineInv s ∧ ∃ t, step s = .next t := by
  refine ⟨?_, _, rfl⟩
  unfold MachineInv GroupP.Tidy GroupA.Tidy GroupX.Tidy
  refine ⟨by decide, by decide, by decide, by decide, ?_⟩
  show Status.busy = Status.busy ∧ readsRegion .af .spl = true ∧ 3 ≤ 2 + 255
  decide

theorem witness_AdmittedHostsKeepTheCursorBound :
    let s := { buffer [0x47, 0x40] with script := [.cmd 0x060, .len 1, .cmd 0x000, .cmd 0x060] }
    AdmittedInv s ∧ ∃ t, step s = .next t := by
  refine ⟨.inl ⟨?_, by decide⟩, _, rfl⟩
  unfold CursorOk
  decide

end Sys2Proof.Tests
end

/-! # The regions at the cursor and the watched runs (O44, O42) -/

namespace Sys2Proof.Machine

/-! ### Encoded regions decode back (30_encoding.md R90 to R100) -/

/-- The header variant that the selector bits `AFP` and `PLP` name (R92). -/
def headerInstr (h : Tsh) (afp plp : Bool) : Instr :=
  match afp, plp with
  | false, false => .tspNone h
  | false, true => .tspPayload h
  | true, false => .tspAf h
  | true, true => .tspAfPayload h

theorem decodeTsh_eq_headerInstr (W : BitVec 32) :
    decodeTsh W = headerInstr (tshFields W) (W.getLsbD 5) (W.getLsbD 4) := by
  unfold decodeTsh
  cases W.getLsbD 5 <;> cases W.getLsbD 4 <;> rfl

theorem exec_headerInstr (h : Tsh) (afp plp : Bool) (s : State) :
    exec (headerInstr h afp plp) s = execTsh h afp plp s := by
  cases afp <;> cases plp <;> rfl

theorem decodeWire_tshBytes (h : Tsh) (afp plp : Bool) (rest : List Byte) :
    decodeWire .tsh (tshBytes h afp plp ++ rest) = .ok (headerInstr h afp plp, rest) := by
  obtain ⟨hf, ha, hp⟩ := tshFields_encodeTsh h afp plp
  have hd : decodeTsh (encodeTsh h afp plp) = headerInstr h afp plp := by rw [decodeTsh_eq_headerInstr, hf, ha, hp]
  simp only [tshBytes, List.cons_append, List.nil_append, decodeWire, join_bytes4, hd]

/-- The fields of LTW16 (R98). -/
theorem ltw_fields (valid : Bool) (offset : BitVec 15) :
    (bit valid ++ offset : BitVec 16).getLsbD 15 = valid ∧ slice 14 0 (bit valid ++ offset : BitVec 16) = offset := by
  have hT : (bit valid ++ offset : BitVec 16).toNat = valid.toNat * 2 ^ 15 + offset.toNat := by
    rw [toNat_append_eq, toNat_bit]
  have ho := offset.isLt
  have hv := valid.toNat_lt
  refine ⟨getLsbD_of_toNat _ _ _ (by rw [hT]; omega), BitVec.eq_of_toNat_eq ?_⟩
  rw [toNat_slice, hT]
  omega

/-- The fields of PWR24 (R99). -/
theorem pwr_fields (reserved : BitVec 2) (rate : BitVec 22) :
    slice 23 22 (reserved ++ rate : BitVec 24) = reserved ∧ slice 21 0 (reserved ++ rate : BitVec 24) = rate := by
  have hQ : (reserved ++ rate : BitVec 24).toNat = reserved.toNat * 2 ^ 22 + rate.toNat := toNat_append_eq reserved rate
  have hq := reserved.isLt
  have hr := rate.isLt
  refine ⟨BitVec.eq_of_toNat_eq ?_, BitVec.eq_of_toNat_eq ?_⟩ <;>
  · rw [toNat_slice, hQ]
    omega

/-- The bytes of a well-formed region decode to it, whatever stands after them. -/
theorem decodeWire_encode {i : Instr} {r : Region} {bytes : List Byte} (hw : i.wellFormed = true)
    (he : encode i = .wire r bytes) (rest : List Byte) : decodeWire r (bytes ++ rest) = .ok (i, rest) := by
  cases i with
  | tspNone h => cases he; exact decodeWire_tshBytes h false false rest
  | tspPayload h => cases he; exact decodeWire_tshBytes h false true rest
  | tspAf h => cases he; exact decodeWire_tshBytes h true false rest
  | tspAfPayload h => cases he; exact decodeWire_tshBytes h true true rest
  | afHead h => cases he; simp only [List.cons_append, List.nil_append, decodeWire, decodeAfHead_bytes]
  | afPcr v => cases he; simp only [clockBytes, List.cons_append, List.nil_append, decodeWire, join_bytes6]
  | afOpcr v => cases he; simp only [clockBytes, List.cons_append, List.nil_append, decodeWire, join_bytes6]
  | afSplice c => cases he; rfl
  | afPrivate n bs =>
    cases he
    have hn : n.toNat = bs.length := (of_decide_eq_true hw).symm
    simp [decodeWire, hn]
  | afxHead h => cases he; simp only [List.cons_append, List.nil_append, decodeWire, decodeAfxHead_bytes]
  | afxLtw valid offset =>
    cases he
    obtain ⟨hv, ho⟩ := ltw_fields valid offset
    simp only [ltwBytes, List.cons_append, List.nil_append, decodeWire, join_bytes2, hv, ho]
  | afxPwr reserved rate =>
    cases he
    obtain ⟨hq, hr⟩ := pwr_fields reserved rate
    simp only [pwrBytes, List.cons_append, List.nil_append, decodeWire, join_bytes3, hq, hr]
  | afxSms f =>
    cases he
    simp only [smsBytes, List.cons_append, List.nil_append, decodeWire, join_bytes5, decodeSms_fields]
  | _ n => cases he

/-! ### The region at the cursor (R90) -/

theorem fetchRegion_eq_some {s : State} {r : Region} {i : Instr} :
    s.fetchRegion r = some i ↔ s.bo = 0 ∧ ∃ rest, decodeWire r s.window = .ok (i, rest) := by
  by_cases h0 : s.bo = 0
  · rw [State.fetchRegion, if_pos h0, decode]
    cases decodeWire r s.window with
    | ok v => obtain ⟨j, rest⟩ := v; simp [h0]
    | error e => simp
  · simp [State.fetchRegion, h0]

/-- A region's bytes at the cursor are what the decoder finds there. -/
theorem fetchRegion_encoded {s : State} {r : Region} {i : Instr} {bytes : List Byte} (hw : i.wellFormed = true)
    (he : encode i = .wire r bytes) (h0 : s.bo = 0) (hl : s.bp + bytes.length ≤ s.len)
    (hb : s.bytesAt s.bp bytes.length = bytes) : s.fetchRegion r = some i := by
  have hle : bytes.length ≤ 256 := (encode_wire_length hw he).2
  have hwin := bytesAt_split s s.bp (min 256 (s.len - s.bp)) bytes.length (by omega)
  rw [hb] at hwin
  exact fetchRegion_eq_some.mpr ⟨h0, _, by rw [State.window, hwin]; exact decodeWire_encode hw he _⟩

/-- With the sequencer at a region, and no reset or wait of the host's before it, a step reads that region. -/
theorem step_at_region {s : State} {op : Composite} {r : Region} (hs : s.seq = some (op, r))
    (hr : s.script.head? ≠ some .reset) (hn : s.script.head? ≠ some .wait) : step s = stepRegion op r s := by
  unfold step
  split <;> simp_all

/-- Settles O44: the decoder undoes the encoder on the bytes at the cursor. -/
theorem stepRunsTheRegionAtTheCursor : Obligations.StepRunsTheRegionAtTheCursor := by
  intro s op r i bytes hs hr hn hw he h0 hl hb
  rw [step_at_region hs hr hn, stepRegion, fetchRegion_encoded hw he h0 hl hb]

/-! ### The instruction at the cursor is the region's reads (40_cursor.md R140) -/

/-- The instruction whose bytes stand at the cursor, by the layout tables (30_encoding.md R91 to R100). -/
def State.instrAt (s : State) : Region → Instr
  | .tsh => decodeTsh (BitVec.ofNat 32 (s.number s.bp 4))
  | .afHead => .afHead (decodeAfHead (BitVec.ofNat 16 (s.number s.bp 2)))
  | .pcr => .afPcr (BitVec.ofNat 48 (s.number s.bp 6))
  | .opcr => .afOpcr (BitVec.ofNat 48 (s.number s.bp 6))
  | .spl => .afSplice (s.memRead s.bp)
  | .tpd => .afPrivate (s.memRead s.bp) (s.bytesAt (s.bp + 1) (s.memRead s.bp).toNat)
  | .afxHead => .afxHead (decodeAfxHead (BitVec.ofNat 16 (s.number s.bp 2)))
  | .ltw => .afxLtw ((BitVec.ofNat 16 (s.number s.bp 2)).getLsbD 15) (slice 14 0 (BitVec.ofNat 16 (s.number s.bp 2)))
  | .pwr => .afxPwr (slice 23 22 (BitVec.ofNat 24 (s.number s.bp 3))) (slice 21 0 (BitVec.ofNat 24 (s.number s.bp 3)))
  | .sms => .afxSms (decodeSms (BitVec.ofNat 40 (s.number s.bp 5)))

/-- How many bytes the region at the cursor has, a TPD's length byte taken from there (R96). -/
def State.sizeAt (s : State) (r : Region) : Nat := regionSize r [s.memRead s.bp]

/-- The decoder accepts no region that its bytes do not hold in full. -/
theorem regionSize_le_of_decodeWire {r : Region} {l rest : List Byte} {i : Instr}
    (h : decodeWire r l = .ok (i, rest)) : regionSize r l ≤ l.length := by
  unfold decodeWire at h
  split at h
  -- the branch of a TPD, which compares its length byte with what stands after it
  case h_6 n tail =>
    split at h
    · next hn => simp only [regionSize, List.headD_cons, List.length_cons]; omega
    · cases h
  -- the branch of a region cut short
  case h_11 => cases h
  all_goals simp [regionSize]

/-- The decoder reads at the cursor what the layout tables say. -/
theorem decodeWire_bytesAt (s : State) (r : Region) (rest : List Byte) :
    decodeWire r (s.bytesAt s.bp (s.sizeAt r) ++ rest) = .ok (s.instrAt r, rest) := by
  cases r with
  | tsh => rw [State.instrAt, ofNat_number_four]; rfl
  | afHead => rw [State.instrAt, ofNat_number_two]; rfl
  | pcr => rw [State.instrAt, ofNat_number_six]; rfl
  | opcr => rw [State.instrAt, ofNat_number_six]; rfl
  | spl => rfl
  | tpd =>
    have hsize : s.sizeAt .tpd = (s.memRead s.bp).toNat + 1 := Nat.add_comm ..
    rw [hsize]
    simp [State.bytesAt, decodeWire, State.instrAt, bytesAt_length]
  | afxHead => rw [State.instrAt, ofNat_number_two]; rfl
  | ltw => rw [State.instrAt, ofNat_number_two]; rfl
  | pwr => rw [State.instrAt, ofNat_number_three]; rfl
  | sms => rw [State.instrAt, ofNat_number_five]; rfl

theorem window_length (s : State) : s.window.length = min 256 (s.len - s.bp) := bytesAt_length _ _ _

/-- A region that fits the window has the size that its first byte says. -/
theorem regionSize_window {s : State} {r : Region} (h : regionSize r s.window ≤ s.window.length) :
    regionSize r s.window = s.sizeAt r := by
  cases r with
  | tpd =>
    obtain ⟨m, hm⟩ : ∃ m, min 256 (s.len - s.bp) = m + 1 := by
      rw [window_length, regionSize] at h
      exact ⟨min 256 (s.len - s.bp) - 1, by omega⟩
    rw [State.window, hm]
    rfl
  | _ => rfl

/-- What the decoder answers at the cursor lies inside the buffer and is what the layout tables say. -/
theorem fetchRegion_eq_instrAt {s : State} {r : Region} {i : Instr} (hf : s.fetchRegion r = some i) :
    s.bo = 0 ∧ s.bp + s.sizeAt r ≤ s.len ∧ i = s.instrAt r := by
  obtain ⟨h0, rest, h⟩ := fetchRegion_eq_some.mp hf
  have hfit := regionSize_le_of_decodeWire h
  have hpos : 1 ≤ s.sizeAt r := by cases r <;> simp [State.sizeAt, regionSize]
  rw [regionSize_window hfit, window_length] at hfit
  rw [State.window, bytesAt_split _ _ _ _ hfit, decodeWire_bytesAt] at h
  cases h
  exact ⟨h0, by omega, rfl⟩

/-- The instruction at the cursor, executed while the sequencer waits for its region, does the region's reads. -/
theorem exec_instrAt {s : State} {op : Composite} {r : Region} (hs : s.seq = some (op, r)) (h0 : s.bo = 0)
    (hl : s.bp + s.sizeAt r ≤ s.len) : exec (s.instrAt r) s = runRegion op r (regionReads op r) s := by
  have hop : ∀ alone, s.running alone = op := fun alone => by rw [State.running, hs]
  cases r with
  | tsh =>
    rw [State.instrAt, decodeTsh_eq_headerInstr, exec_headerInstr, execTsh, hop]
    exact runRegion_congr (by rw [regionReads, hdrGroup_given h0 hl, hdrGroup_ok h0 hl])
  | afHead => rw [State.instrAt, exec, execAfHead, hop]; exact runRegion_congr (afHead_same h0 hl)
  | pcr => rw [State.instrAt, exec, execAfPcr, hop]; exact runRegion_congr (pcr_same h0 hl)
  | opcr => rw [State.instrAt, exec, execAfOpcr, hop]; exact runRegion_congr (opcr_same h0 hl)
  | spl => rw [State.instrAt, exec, execAfSplice, hop]; exact runRegion_congr (spl_same h0 hl)
  | tpd =>
    rw [State.instrAt, exec, execAfPrivate, hop]
    exact runRegion_congr (tpd_same h0 (by rw [Nat.add_assoc]; exact hl))
  | afxHead => rw [State.instrAt, exec, execAfxHead, hop]; exact runRegion_congr (afxHead_same h0 hl)
  | ltw => rw [State.instrAt, exec, execAfxLtw, hop]; exact runRegion_congr (ltw_same h0 hl)
  | pwr => rw [State.instrAt, exec, execAfxPwr, hop]; exact runRegion_congr (pwr_same h0 hl)
  | sms => rw [State.instrAt, exec, execAfxSms, hop]; exact runRegion_congr (sms_same h0 hl)

/-- A region step is the region's reads, whether or not the buffer holds the region in full. -/
theorem stepRegion_eq_runRegion {s : State} {op : Composite} {r : Region} (hs : s.seq = some (op, r)) :
    stepRegion op r s = runRegion op r (regionReads op r) s := by
  rw [stepRegion]
  cases hf : s.fetchRegion r with
  | none => rfl
  | some i =>
    obtain ⟨h0, hl, rfl⟩ := fetchRegion_eq_instrAt hf
    exact exec_instrAt hs h0 hl

/-! ### A watched operation region by region (00_scope.md R11, 10_state.md R38) -/

/-- A region step ends the operation as what remains of it does, or goes on to a region from which the rest ends
alike. -/
theorem runRegion_cases {op : Composite} {r : Region} (hr : readsRegion op r = true) (s : State) :
    runRegion op r (regionReads op r) s = settleComposite (restFrom op r) s ∨
    ∃ u r', regionReads op r s = .ok () u ∧ nextRegion op r u = some r' ∧
      runRegion op r (regionReads op r) s = .next (u.parkAt op r') ∧
      settleComposite (restFrom op r) s = settleComposite (restFrom op r') (u.parkAt op r') := by
  rw [runRegion, settleComposite, settleComposite, restFrom]
  cases hu : regionReads op r s with
  | error e u => exact .inl (by rw [bind_error hu, bind_error hu])
  | ok v u =>
    have hadv : advance op r u = parkOr op (nextRegion op r u) (endStructure op r) u := rfl
    rw [bind_ok hu, bind_ok hu, contOf_eq hr, hadv]
    cases hn : nextRegion op r u with
    | none => exact .inl rfl
    | some r' =>
      have hpark : u.parkAt op r' = (u.enterRegion r').withSeq (some (op, r')) u.st := by cases r' <;> rfl
      refine .inr ⟨u, r', rfl, hn, rfl, ?_⟩
      rw [hpark, restFrom_endsAlike]
      rfl

/-- A run whose first step goes on is that step and the run from there. -/
theorem run_succ_of_next {M : Host.Core} {s t : M.State} (k : Nat) (h : M.step s = .next t) :
    M.run (k + 1) s = M.run k t := by
  rw [Host.Core.run, h]

/-- From a region on, the watched run ends as the rest of the operation does, after as many steps as regions can
follow. -/
theorem run_restFrom {s : State} {op : Composite} {r : Region} (hs : s.seq = some (op, r))
    (hr : readsRegion op r = true) (hreset : s.script.head? ≠ some .reset) (hwait : s.script.head? ≠ some .wait) :
    ∃ k, k ≤ regionRank r ∧ Sys2Proof.core.run k s = settleComposite (restFrom op r) s := by
  have hstep : step s = runRegion op r (regionReads op r) s :=
    (step_at_region hs hreset hwait).trans (stepRegion_eq_runRegion hs)
  rcases runRegion_cases hr s with hend | ⟨u, r', hu, hn, hpark, hrest⟩
  · obtain ⟨t, ht⟩ := settleComposite_next (restFrom op r) s
    have hone := run_succ_of_next (M := Sys2Proof.core) 0 (hstep.trans (hend.trans ht))
    exact ⟨1, by cases r <;> decide, hone.trans ht.symm⟩
  · have hlt := nextRegion_rank hn
    have hscript : (u.parkAt op r').script = s.script := by
      rw [State.parkAt_script, ((framed_regionReads op r).ok hu).script]
    obtain ⟨k, hk, hrun⟩ := run_restFrom (u.parkAt_seq op r') (nextRegion_readsRegion hr hn)
      (by rw [hscript]; exact hreset) (by rw [hscript]; exact hwait)
    have hfirst := run_succ_of_next (M := Sys2Proof.core) k (hstep.trans hpark)
    exact ⟨k + 1, by omega, hfirst.trans (hrun.trans hrest.symm)⟩
termination_by regionRank r

/-- The region a watched operation starts at. -/
def firstRegion : Composite → Region
  | .hdr | .decode => .tsh
  | .af => .afHead
  | .afx => .afxHead

theorem firstRegion_read (op : Composite) : readsRegion op (firstRegion op) = true := by cases op <;> rfl

theorem start_seq (op : Composite) (s : State) : (s.start op).seq = some (op, firstRegion op) := by cases op <;> rfl

theorem start_script (op : Composite) (s : State) : (s.start op).script = s.script := by cases op <;> rfl

/-- What remains at the start of a watched operation is the atomic operation: both have cleared the same groups, and
the sequencer and `ST`, which the start alone has set, decide nothing. -/
theorem settle_start (op : Composite) (s : State) :
    settleComposite (restFrom op (firstRegion op)) (s.start op) = runAtomic op s := by
  cases op with
  | hdr => exact restFrom_endsAlike .hdr .tsh (some (.hdr, .tsh)) .busy s.clearGroups
  | af =>
    have hrest : restFrom .af .afHead s.clearAf = afOp s := (afSeq_eq_restFrom s).symm
    have hends := restFrom_endsAlike .af .afHead (some (.af, .afHead)) .busy s.clearAf
    exact hends.trans (by rw [settleComposite, hrest]; rfl)
  | afx =>
    have hrest : restFrom .afx .afxHead s.clearX = afxOp s := by
      simp only [afxOp, afxSeq, bind_assoc]
      rfl
    have hends := restFrom_endsAlike .afx .afxHead (some (.afx, .afxHead)) .busy s.clearX
    exact hends.trans (by rw [settleComposite, hrest]; rfl)
  | decode => exact restFrom_endsAlike .decode .tsh (some (.decode, .tsh)) .busy (s.clearAll.seek (0, 0))

/-- Settles O42, by induction on the regions that can still follow. -/
theorem watchedRunsAreAtomicRuns : Obligations.WatchedRunsAreAtomicRuns := by
  intro op s hreset hwait
  obtain ⟨k, hk, hrun⟩ := run_restFrom (start_seq op s) (firstRegion_read op)
    (by rw [start_script]; exact hreset) (by rw [start_script]; exact hwait)
  exact ⟨k, hk.trans (by cases op <;> decide), hrun.trans (settle_start op s)⟩

end Sys2Proof.Machine

/-! # The invariant of the machine (O56, O57) -/

namespace Sys2Proof.Machine

/-! ### What the invariant says (10_state.md R29 to R42, 20_memory.md R70) -/

/-- An operation is over: the sequencer idle, no budget left, `ST` not BUSY (10_state.md R42). -/
def OperationOver (t : State) : Prop := t.seq = none ∧ t.afEnd = 0 ∧ t.afxEnd = 0 ∧ t.st ≠ .busy

/-- With no operation running, the sequencer's state is legal when nothing of one is left. -/
theorem sequencerOk_of_over {t : State} (h : OperationOver t) : SequencerOk t := by
  obtain ⟨hseq, haf, hafx, hst⟩ := h
  rw [SequencerOk, hseq]
  exact ⟨haf, hafx, hst⟩

/-- In the other direction: an idle sequencer that is legal has nothing of an operation left. -/
theorem over_of_sequencerOk {t : State} (h : SequencerOk t) (hseq : t.seq = none) : OperationOver t := by
  rw [SequencerOk, hseq] at h
  exact ⟨hseq, h⟩

theorem sequencerOk_at_region {t : State} {op : Composite} {r : Region} (hseq : t.seq = some (op, r)) :
    SequencerOk t ↔ t.st = .busy ∧ readsRegion op r = true ∧ t.afEnd ≤ t.bp + 255 := by
  rw [SequencerOk, hseq]

/-- The result registers of a state that meets the invariant are tidy, with at most 255 bytes of adaptation field
ahead, whether the sequencer is idle or at a region. -/
theorem MachineInv.tidyAhead {s : State} (h : MachineInv s) : TidyAhead s := by
  obtain ⟨-, hp, ha, hx, hs⟩ := h
  refine ⟨hp, ha, hx, ?_⟩
  cases hseq : s.seq with
  | none =>
    obtain ⟨-, haf, -⟩ := over_of_sequencerOk hs hseq
    rw [haf]
    exact Nat.zero_le _
  | some place =>
    obtain ⟨-, -, hahead⟩ := (sequencerOk_at_region hseq).mp hs
    exact hahead

/-- An error taken meets the invariant: every group cleared and the sequencer idle (60_exceptions.md R241). -/
theorem failedAt_inv {s : State} (hd : s.data.wf = true) (e : DecodeError) (c : Nat × Fin 8) :
    MachineInv (s.failedAt e c) :=
  ⟨hd, clearP_tidy, clearA_tidy, clearX_tidy, sequencerOk_of_over ⟨rfl, rfl, rfl, fun h => nomatch h⟩⟩

theorem hardReset_inv {s : State} (hd : s.data.wf = true) : MachineInv s.hardReset :=
  ⟨hd, clearP_tidy, clearA_tidy, clearX_tidy, sequencerOk_of_over ⟨rfl, rfl, rfl, fun h => nomatch h⟩⟩

/-- A composite operation, or a region of it, meets the invariant afterwards if its success leaves the sequencer
legal; its failure always does. -/
theorem settleComposite_inv {m : Op Unit} (hframe : Framed m) (htidy : KeepsTidy m) {s t : State}
    (hd : s.data.wf = true) (ht : TidyAhead s) (hok : ∀ u, m s = .ok () u → SequencerOk u)
    (h : settleComposite m s = .next t) : MachineInv t := by
  rcases settleComposite_cases hframe s with ⟨u, hu, hnext, hfr⟩ | ⟨e, u, -, hnext, -⟩
  · cases hnext.symm.trans h
    obtain ⟨hp, ha, hx, -⟩ := htidy _ _ _ ht hu
    exact ⟨by rw [hfr.data]; exact hd, hp, ha, hx, hok _ hu⟩
  · cases hnext.symm.trans h
    exact failedAt_inv hd e _

/-- A part of an operation whose success is the operation's end. -/
def EndsOver (m : Op Unit) : Prop := ∀ s t, m s = .ok () t → OperationOver t

theorem EndsOver.bind {α : Type} {m : Op α} {g : α → Op Unit} (h : ∀ v, EndsOver (g v)) : EndsOver (m >>= g) := by
  intro s t e
  rw [bind_apply] at e
  split at e
  · exact h _ _ _ e
  · cases e

theorem finishOp_endsOver : EndsOver finishOp := by
  intro s t h
  cases h
  exact ⟨rfl, rfl, rfl, fun k => nomatch k⟩

theorem endStructure_endsOver (op : Composite) (r : Region) : EndsOver (endStructure op r) := by
  intro s t h
  obtain ⟨hseq, haf, hafx, hdone⟩ := endStructure_idle h
  exact ⟨hseq, haf, hafx, by rw [hdone]; decide⟩

/-- A composite operation run to its end as one step meets the invariant. -/
theorem settleComposite_ended_inv {m : Op Unit} (hframe : Framed m) (htidy : KeepsTidy m) (hend : EndsOver m)
    {s t : State} (hd : s.data.wf = true) (ht : TidyAhead s) (h : settleComposite m s = .next t) : MachineInv t :=
  settleComposite_inv hframe htidy hd ht (fun u hu => sequencerOk_of_over (hend s u hu)) h

/-! ### The region steps -/

/-- Going on from a region leaves the sequencer at the next one, BUSY, or the operation over. -/
theorem advance_sequencerOk {op : Composite} {r : Region} {u t : State} (hr : readsRegion op r = true)
    (hst : u.st = .busy) (hahead : u.afEnd ≤ u.bp + 255) (h : advance op r u = .ok () t) : SequencerOk t := by
  have hadv : advance op r u = parkOr op (nextRegion op r u) (endStructure op r) u := rfl
  rw [hadv] at h
  cases hn : nextRegion op r u with
  | none =>
    rw [hn] at h
    exact sequencerOk_of_over (endStructure_endsOver op r _ _ h)
  | some r' =>
    rw [hn] at h
    cases h
    rw [sequencerOk_at_region (u.parkAt_seq op r')]
    simp only [State.parkAt_st, State.parkAt_afEnd, State.parkAt_bp]
    exact ⟨hst, nextRegion_readsRegion hr hn, hahead⟩

/-- One region of a running operation keeps the invariant. -/
theorem runRegion_inv {op : Composite} {r : Region} {s t : State} (hi : MachineInv s) (hseq : s.seq = some (op, r))
    (h : runRegion op r (regionReads op r) s = .next t) : MachineInv t := by
  have htidy := regionReads_keepsTidy op r
  have ⟨hd, _, _, _, hs⟩ := hi
  obtain ⟨hst, hr, -⟩ := (sequencerOk_at_region hseq).mp hs
  refine settleComposite_inv (framed_region op r (framed_regionReads op r))
    (htidy.bind fun _ => advance_keepsTidy op r) hd hi.tidyAhead (fun u hu => ?_) h
  rw [bind_apply] at hu
  cases hm : regionReads op r s with
  | error e w => rw [hm] at hu; cases hu
  | ok v w =>
    rw [hm] at hu
    obtain ⟨-, -, -, hahead⟩ := htidy _ _ _ hi.tidyAhead hm
    exact advance_sequencerOk hr (regionReads_keepsStatus op r _ _ _ hst hm) hahead hu

/-! ### The commands and the host's other actions -/

/-- A cursor command ends with `ST` DONE_OK or DONE_ERR (10_state.md R38). -/
theorem settleRaw_not_busy {α : Type} {v : α → BitVec 16} {m : Op α} {s t : State} (h : settleRaw v m s = .next t) :
    t.st ≠ .busy := by
  unfold settleRaw at h
  split at h <;> cases h <;> exact fun k => nomatch k

/-- A cursor command keeps the invariant: it writes no result register and nothing of the sequencer
(40_cursor.md R141). -/
theorem settleRaw_inv {α : Type} {v : α → BitVec 16} {m : Op α} (hseek : ∀ s, ∃ c, endOf (m s) = s.seek c)
    {s t : State} (hdata : t.data = s.data) (hi : MachineInv s) (hseq : s.seq = none)
    (h : settleRaw v m s = .next t) : MachineInv t := by
  obtain ⟨hd, hp, ha, hx, hs⟩ := hi
  obtain ⟨-, haf, hafx, -⟩ := over_of_sequencerOk hs hseq
  obtain ⟨ep, ea, ex, -, eaf, eafx, eseq⟩ := settleRaw_keeps hseek h
  exact ⟨hdata ▸ hd, ep ▸ hp, ea ▸ ha, ex ▸ hx,
    sequencerOk_of_over ⟨eseq.trans hseq, eaf.trans haf, eafx.trans hafx, settleRaw_not_busy h⟩⟩

/-- What `DECODE` does once everything is cleared and the cursor is rewound keeps the registers tidy. -/
theorem decodeTail_keepsTidy :
    KeepsTidy (do hdrGroup none; onFlag (·.p.afp) afSeq; onFlag (·.p.plp) payload; finishOp) :=
  (hdrGroup_keepsTidy none).bind fun _ => afSeq_keepsTidy.onFlag.bind fun _ =>
    payload_keepsTidy.onFlag.bind fun _ => finishOp_keepsTidy

theorem decodeOp_eq_tail (s : State) : decodeOp s =
    (do hdrGroup none; onFlag (·.p.afp) afSeq; onFlag (·.p.plp) payload; finishOp : Op Unit)
      (s.clearAll.seek (0, 0)) := by
  rw [decodeOp, bind_ok (modify_apply _ _), bind_ok (rewind_apply _)]

theorem rewind_seek (s : State) : ∃ c, endOf (rewind s) = s.seek c := ⟨_, rfl⟩

/-- The nine commands that start an operation keep the invariant. -/
theorem exec_command_inv {i : Instr} {s t : State} (hstart : startsOperation i = true) (hi : MachineInv s)
    (hseq : s.seq = none) (h : exec i s = .next t) : MachineInv t := by
  have hdata : t.data = s.data := (exec_keeps h).data
  have ⟨hd, _, _, _, hs⟩ := hi
  cases i with
  | openCur n => exact settleRaw_inv (v := fun _ => 0) rewind_seek hdata hi hseq h
  | pbit n => exact settleRaw_inv pbit_seek hdata hi hseq h
  | pbits n => exact settleRaw_inv (pbits_seek n.toNat) hdata hi hseq h
  | pbyte n => exact settleRaw_inv pbyte_seek hdata hi hseq h
  | pwide n => exact settleRaw_inv (pwide_seek n.toNat) hdata hi hseq h
  | hdr n =>
    exact settleComposite_ended_inv framed_hdrOp hdrOp_keepsTidy (.bind fun _ => .bind fun _ => finishOp_endsOver)
      hd hi.tidyAhead h
  | af n =>
    exact settleComposite_ended_inv framed_afOp afOp_keepsTidy (.bind fun _ => finishOp_endsOver) hd hi.tidyAhead h
  | afx n =>
    exact settleComposite_ended_inv framed_afxOp afxOp_keepsTidy (.bind fun _ => .bind fun _ => finishOp_endsOver)
      hd hi.tidyAhead h
  | decode n =>
    obtain ⟨-, haf, -⟩ := over_of_sequencerOk hs hseq
    have hclear : TidyAhead (s.clearAll.seek (0, 0)) :=
      ⟨clearP_tidy, clearA_tidy, clearX_tidy, show s.afEnd ≤ 0 + 255 by rw [haf]; exact Nat.zero_le _⟩
    refine settleComposite_ended_inv (s := s.clearAll.seek (0, 0)) framed_decodeTail decodeTail_keepsTidy
      (.bind fun _ => .bind fun _ => .bind fun _ => finishOp_endsOver) hd hclear ?_
    rw [settleComposite, ← decodeOp_eq_tail]
    exact h
  | _ => cases hstart

/-- A command word is one of the nine commands, or ignored (30_encoding.md R110, R111). -/
theorem decodeCmd_starts_or_ignored (w : Cmd) :
    startsOperation (decodeCmd w) = true ∨ ∀ s, exec (decodeCmd w) s = .next s := by
  unfold decodeCmd
  dsimp only
  split
  case h_1 | h_2 | h_3 | h_4 | h_5 | h_6 | h_7 | h_8 | h_9 => exact .inl rfl
  all_goals exact .inr fun _ => rfl

/-- A command that the host writes keeps the invariant. -/
theorem exec_cmd_inv {w : Cmd} {s t : State} (hi : MachineInv s) (hseq : s.seq = none)
    (h : exec (decodeCmd w) s = .next t) : MachineInv t := by
  rcases decodeCmd_starts_or_ignored w with hstart | hignored
  · exact exec_command_inv hstart hi hseq h
  · cases (hignored s).symm.trans h
    exact hi

/-- The start of a watched operation meets the invariant (70_reset_and_hazards.md R271). -/
theorem start_inv (op : Composite) {s : State} (hi : MachineInv s) (hseq : s.seq = none) :
    MachineInv (s.start op) := by
  obtain ⟨hd, hp, ha, hx, hs⟩ := hi
  obtain ⟨-, haf, -⟩ := over_of_sequencerOk hs hseq
  have hlegal : SequencerOk (s.start op) := by
    rw [sequencerOk_at_region (start_seq op s)]
    refine ⟨by cases op <;> rfl, firstRegion_read op, ?_⟩
    have hend : (s.start op).afEnd = 0 := by cases op <;> exact haf
    rw [hend]
    exact Nat.zero_le _
  cases op with
  | hdr => exact ⟨hd, clearP_tidy, clearA_tidy, clearX_tidy, hlegal⟩
  | af => exact ⟨hd, hp, clearA_tidy, clearX_tidy, hlegal⟩
  | afx => exact ⟨hd, hp, ha, clearX_tidy, hlegal⟩
  | decode => exact ⟨hd, clearP_tidy, clearA_tidy, clearX_tidy, hlegal⟩

theorem stepIssue_inv {w : Cmd} {s t : State} (hi : MachineInv s) (hseq : s.seq = none)
    (h : stepIssue w s = .next t) : MachineInv t := by
  unfold stepIssue at h
  split at h
  · cases h; exact start_inv _ hi hseq
  · exact exec_cmd_inv hi hseq h

/-- An action of the host's keeps the invariant while the sequencer is idle. -/
theorem stepAction_inv {act : HostAction} {s t : State} (hi : MachineInv s) (hseq : s.seq = none)
    (h : stepAction act s = .next t) : MachineInv t := by
  cases act with
  | data offset bytes =>
    cases h
    obtain ⟨hd, hrest⟩ := hi
    exact ⟨Memory.writeBytes_wf hd, hrest⟩
  | len n => cases h; exact hi
  | cmd w => exact exec_cmd_inv hi hseq h
  | issue w => exact stepIssue_inv hi hseq h
  | reset => cases h; exact hardReset_inv hi.1
  | wait => cases h; exact hi

/-- A region step keeps the invariant: it is the region's reads and what follows them. -/
theorem stepRegion_inv {op : Composite} {r : Region} {s t : State} (hi : MachineInv s) (hseq : s.seq = some (op, r))
    (h : stepRegion op r s = .next t) : MachineInv t :=
  runRegion_inv hi hseq ((stepRegion_eq_runRegion hseq).symm.trans h)

/-- Settles O56: a step is a reset, a region of the running operation, or the host's next action. -/
theorem stepKeepsTheInvariant : Obligations.StepKeepsTheInvariant := by
  intro s t hi h
  have hdrop : MachineInv s.dropAction := hi
  unfold step at h
  split at h
  case h_1 => cases h; exact hardReset_inv hi.1
  case h_2 op r _ hseq _ => exact stepRegion_inv hdrop hseq h
  case h_3 op r hseq _ _ => exact stepRegion_inv hi hseq h
  case h_4 => cases h; exact hi
  case h_5 act _ hseq _ => exact stepAction_inv hdrop hseq h

/-- Settles O57: at reset the groups are clear and the sequencer is idle, and the host has nothing to do. -/
theorem resetMeetsTheInvariant : Obligations.ResetMeetsTheInvariant :=
  ⟨hardReset_inv (s := State.reset) rfl, .inr ⟨rfl, rfl⟩⟩

end Sys2Proof.Machine
/-! # What a finished operation leaves (O22, O27, O28) -/

namespace Sys2Proof.Machine

/-! ### The adaptation field (42_adaptation_field.md R193) -/

/-- `AF` from a byte boundary in its two outcomes: the field fits and its layout is committed, or an error is taken. -/
theorem execAf_cases (n : BitVec 5) {s : State} (h0 : s.bo = 0) :
    (s.fieldFits s.bp = true ∧ exec (.af n) s = .next s.afterField.finish) ∨
    ∃ e c, exec (.af n) s = .next (s.failedAt e c) := by
  have hfits : s.fieldFits s.bp = true ↔ s.fieldHolds s.bp = true ∧ s.fieldEnd s.bp ≤ s.len := by
    rw [State.fieldFits, Bool.and_eq_true, decide_eq_true_eq]
  by_cases hf : s.fieldFits s.bp = true
  · obtain ⟨hh, hl⟩ := hfits.mp hf
    exact .inl ⟨hf, settleComposite_ok (bind_ok (afSeq_ok h0 hh hl))⟩
  · obtain ⟨t, ⟨he, -⟩ | ⟨he, -⟩⟩ := afSeq_error h0 (fun k => hf (hfits.mpr k))
    · exact .inr ⟨_, _, settleComposite_error framed_afOp (bind_error he)⟩
    · exact .inr ⟨_, _, settleComposite_error framed_afOp (bind_error he)⟩

/-- An `AF` from a byte boundary that ends without error has committed the layout of a field that fits. -/
theorem execAf_committed {n : BitVec 5} {s t : State} (h0 : s.bo = 0) (h : exec (.af n) s = .next t)
    (herr : t.err = none) : s.fieldFits s.bp = true ∧ t = s.afterField.finish := by
  rcases execAf_cases n h0 with ⟨hf, hn⟩ | ⟨e, c, hn⟩
  · cases hn.symm.trans h
    exact ⟨hf, rfl⟩
  · cases hn.symm.trans h
    cases herr

/-- The TPD region stands past the head (R96). -/
theorem tpdAt_ge (s : State) (o : Nat) : o + 2 ≤ s.tpdAt o := by
  unfold State.tpdAt State.splAt State.opcrAt
  omega

/-- In a field that fits, the length byte of the TPD region and its bytes lie within the field's 255 bytes (R103). -/
theorem tpdl_le_of_fieldFits {s : State} {o : Nat} (h : s.fieldFits o = true) :
    (s.layoutA o).tpdl.toNat ≤ 253 := by
  simp only [State.fieldFits, State.fieldHolds, Bool.and_eq_true, decide_eq_true_eq] at h
  obtain ⟨⟨hend, -⟩, -⟩ := h
  have hlen : s.fieldEnd o ≤ o + 256 := by
    have := (s.memRead o).isLt
    unfold State.fieldEnd
    omega
  have hstf : s.afxAt o ≤ s.stfAt o := Nat.le_add_right ..
  have htpd := tpdAt_ge s o
  show (orZero (s.layoutF o).tpd (s.memRead (s.tpdAt o))).toNat ≤ 253
  cases hf : (s.layoutF o).tpd with
  | false => exact Nat.zero_le _
  | true =>
    have hafx : s.afxAt o = s.tpdAt o + (1 + (s.memRead (s.tpdAt o)).toNat) := by rw [State.afxAt, hf]; rfl
    show (s.memRead (s.tpdAt o)).toNat ≤ 253
    omega

/-- `TPDB` of a layout: the bytes of the TPD region. -/
theorem layoutA_tpdbRead {s : State} {o i : Nat} (h : i < (s.layoutA o).tpdl.toNat) :
    (s.layoutA o).tpdbRead i = s.memRead (s.tpdAt o + 1 + i) := by
  have htpdl : (s.layoutA o).tpdl = orZero (s.layoutF o).tpd (s.memRead (s.tpdAt o)) := rfl
  have htpdb : (s.layoutA o).tpdb =
    if (s.layoutF o).tpd then s.bytesAt (s.tpdAt o + 1) (s.memRead (s.tpdAt o)).toNat else [] := rfl
  rw [htpdl] at h
  rw [GroupA.tpdbRead, htpdb]
  cases hf : (s.layoutF o).tpd with
  | false => rw [hf] at h; exact absurd h (Nat.not_lt_zero i)
  | true => rw [hf] at h; exact bytesAt_getD _ _ _ _ h

/-- Past the bytes that it counts `TPDB` of a tidy group reads 0 (10_state.md R32). -/
theorem GroupA.tpdbRead_eq_zero {a : GroupA} (ha : a.Tidy) {i : Nat} (h : a.tpdl.toNat ≤ i) : a.tpdbRead i = 0 := by
  obtain ⟨-, -, -, -, hlen, -, -⟩ := ha
  exact List.getD_eq_default _ _ (hlen ▸ h)

/-- Settles O22: a successful `AF` leaves the layout's group A. -/
theorem privateDataIsCopied : Obligations.PrivateDataIsCopied := by
  intro n s t h0 h herr
  obtain ⟨hfits, rfl⟩ := execAf_committed h0 h herr
  have ha : s.afterField.finish.a = s.layoutA s.bp := rfl
  rw [ha]
  exact ⟨fun _ => layoutA_tpdbRead, fun _ => GroupA.tpdbRead_eq_zero (layoutA_tidy s s.bp (stfAt_ge s s.bp)),
    tpdl_le_of_fieldFits hfits⟩

/-! ### The header and the packet (41_packet_decoder.md R161 to R163) -/

/-- A `DECODE` that ends without error has committed the header alone, or the header and a field that fits. -/
theorem execDecode_committed {n : BitVec 5} {s t : State} (h : exec (.decode n) s = .next t) (herr : t.err = none) :
    4 ≤ s.len ∧
    (((s.layoutP 0).afp = false ∧ t = s.afterHeader.packetEnded .decode) ∨
      ((s.layoutP 0).afp = true ∧ s.fieldFits 4 = true ∧ t = s.afterHeaderAndField.packetEnded .decode)) := by
  rcases execDecode_cases n s with ⟨hl, ha, hn⟩ | ⟨hl, ha, hf, hn⟩ | ⟨e, c, hn, -⟩ <;> cases hn.symm.trans h
  · exact ⟨hl, .inl ⟨ha, rfl⟩⟩
  · exact ⟨hl, .inr ⟨ha, hf, rfl⟩⟩
  · cases herr

/-- The end of a packet without a payload writes no register of group P (R164). -/
theorem packetEnded_p_of_not_plp {t : State} (h : t.p.plp = false) : (t.packetEnded .decode).p = t.p := by
  simp [State.packetEnded, h]

/-- The end of a packet with a payload names the bytes from the cursor to the end of the buffer (R163). -/
theorem packetEnded_p_of_plp {t : State} (h : t.p.plp = true) :
    (t.packetEnded .decode).p = { t.p with plV := true, plOff := t.bp, plLen := t.len - t.bp } := by
  simp [State.packetEnded, h]

/-- The end of a packet under `DECODE` gives `PL_V` the value of `PLP`, and leaves `AF_V` and `AFP`. -/
theorem packetEnded_presence {t : State} (hv : t.p.plV = false) :
    (t.packetEnded .decode).p.plV = (t.packetEnded .decode).p.plp ∧ (t.packetEnded .decode).p.afV = t.p.afV ∧
      (t.packetEnded .decode).p.afp = t.p.afp := by
  cases h : t.p.plp with
  | false => rw [packetEnded_p_of_not_plp h]; exact ⟨hv.trans h.symm, rfl, rfl⟩
  | true => rw [packetEnded_p_of_plp h]; exact ⟨h.symm, rfl, rfl⟩

/-- The payload that the end of a packet names starts at the cursor and reaches to the end of the buffer. -/
theorem packetEnded_payload {t : State} (hl : t.bp ≤ t.len) (hv : t.p.plV = false)
    (hu : (t.packetEnded .decode).p.plV = true) :
    (t.packetEnded .decode).p.plOff + (t.packetEnded .decode).p.plLen = t.len ∧
      (t.packetEnded .decode).p.plOff = t.bp := by
  cases h : t.p.plp with
  | false => rw [packetEnded_p_of_not_plp h, hv] at hu; cases hu
  | true => rw [packetEnded_p_of_plp h]; exact ⟨Nat.add_sub_cancel' hl, rfl⟩

theorem packetEnded_tidy {t : State} (ht : t.p.Tidy) : (t.packetEnded .decode).p.Tidy := by
  cases h : t.p.plp with
  | false => rw [packetEnded_p_of_not_plp h]; exact ht
  | true => rw [packetEnded_p_of_plp h]; exact fun k => nomatch k

/-- The nine reads of a header write neither `AF_V` nor `PL_V`. -/
theorem hdrGroup_presence {o : Option (Tsh × Bool × Bool)} {s t : State} (h : hdrGroup o s = .ok () t) :
    t.p.afV = s.p.afV ∧ t.p.plV = s.p.plV := by
  obtain ⟨c, hc, -⟩ := readHdr_seeks.given (v := o) s
  rw [hdrGroup, bind_apply] at h
  split at h
  · next v u hu =>
    rw [hu, endOf_ok] at hc
    cases h
    subst hc
    exact ⟨rfl, rfl⟩
  · cases h

/-- After a stand-alone `HDR` no adaptation field and no payload is named, whether it succeeded or failed. -/
theorem execHdr_presence {n : BitVec 5} {s t : State} (h : exec (.hdr n) s = .next t) :
    t.p.afV = false ∧ t.p.plV = false := by
  rcases settleComposite_cases framed_hdrOp s with ⟨u, hu, hn, -⟩ | ⟨e, u, -, hn, -⟩ <;> cases hn.symm.trans h
  · rw [hdrOp, bind_ok (modify_apply _ _), bind_apply] at hu
    split at hu
    · next v w hw =>
      cases hu
      exact hdrGroup_presence hw
    · cases hu
  · exact ⟨rfl, rfl⟩

/-- Settles O27: the header alone clears `AF_V`, a field that follows sets it, and the packet's end sets `PL_V`. -/
theorem presenceFollowsTheHeader : Obligations.PresenceFollowsTheHeader := by
  intro n s t
  refine ⟨fun h herr => ?_, fun h _ => execHdr_presence h⟩
  obtain ⟨-, ⟨ha, rfl⟩ | ⟨ha, -, rfl⟩⟩ := execDecode_committed h herr
  · obtain ⟨hpl, hv, hp⟩ := packetEnded_presence (t := s.afterHeader) rfl
    exact ⟨hv.trans (ha.symm.trans hp.symm), hpl⟩
  · obtain ⟨hpl, hv, hp⟩ := packetEnded_presence (t := s.afterHeaderAndField) rfl
    exact ⟨hv.trans (ha.symm.trans hp.symm), hpl⟩

/-- Group X as an adaptation field leaves it: each valid bit is its flag, and an absent value is 0. -/
theorem layoutAX_presence (s : State) (o : Nat) :
    (s.layoutAX o).ltwV = (s.layoutAX o).ltwf ∧ (s.layoutAX o).pwrV = (s.layoutAX o).pwrf ∧
      (s.layoutAX o).smsV = (s.layoutAX o).smsf ∧ (s.layoutAX o).Tidy := by
  unfold State.layoutAX
  split
  · exact ⟨rfl, rfl, rfl, layoutX_tidy _ _⟩
  · exact ⟨rfl, rfl, rfl, clearX_tidy⟩

/-- Settles O28: a successful `DECODE` leaves cleared groups or those of the layouts, whose valid bits are the flags. -/
theorem presenceFollowsTheFlags : Obligations.PresenceFollowsTheFlags := by
  intro n s t h herr
  obtain ⟨hl, ⟨ha, rfl⟩ | ⟨ha, hf, rfl⟩⟩ := execDecode_committed h herr
  · have hpl := packetEnded_payload (t := s.afterHeader) hl rfl
    have hp := packetEnded_tidy (t := s.afterHeader) fun _ => ⟨rfl, rfl⟩
    exact ⟨rfl, rfl, rfl, rfl, rfl, rfl, rfl, rfl, hpl, hp, clearA_tidy, clearX_tidy⟩
  · simp only [State.fieldFits, Bool.and_eq_true, decide_eq_true_eq] at hf
    obtain ⟨-, hend⟩ := hf
    have hpl := packetEnded_payload (t := s.afterHeaderAndField) hend rfl
    have hp := packetEnded_tidy (t := s.afterHeaderAndField) fun _ => ⟨rfl, rfl⟩
    obtain ⟨hltw, hpwr, hsms, hx⟩ := layoutAX_presence s 4
    exact ⟨rfl, rfl, rfl, rfl, rfl, hltw, hpwr, hsms, hpl, hp, layoutA_tidy s 4 (stfAt_ge s 4), hx⟩

end Sys2Proof.Machine
/-! # The host's port and the cursor (O49, O52, O53, O43, O47, O48) -/

namespace Sys2Proof.Machine

/-! ### The step at an idle sequencer (10_state.md R37, R41) -/

/-- With the sequencer idle a step is the host's next action. -/
theorem step_idle_action {s : State} {act : HostAction} {rest : List HostAction} (hseq : s.seq = none)
    (hscript : s.script = act :: rest) : step s = stepAction act { s with script := rest } := by
  have hdrop : s.dropAction = { s with script := rest } := by rw [State.dropAction, hscript, List.tail_cons]
  rw [← hdrop, step, hseq, hscript]

/-- Settles O43: the step takes the host's action, and a command to watch starts if it is a composite one. -/
theorem stepRunsTheHostsCommand : Obligations.StepRunsTheHostsCommand := by
  intro s w rest hseq
  refine ⟨step_idle_action hseq, fun h => ⟨fun op hop => ?_, fun hnone => ?_⟩⟩
  · rw [step_idle_action hseq h, stepAction, stepIssue, hop]
  · rw [step_idle_action hseq h, stepAction, stepIssue, hnone]

/-- Bytes that were written read back. -/
theorem Memory.read_writeBytes_inside {m : Memory} (hm : m.wf = true) (o : Nat) {bs : List Byte} {k : Nat}
    (h : k < bs.length) : (m.writeBytes o bs).read (o + k) = bs[k] := by
  rw [Memory.read_writeBytes hm, if_pos (by omega), Nat.add_sub_cancel_left, List.getD_eq_getElem _ _ h]

/-- A byte that was not written reads as before. -/
theorem Memory.read_writeBytes_outside {m : Memory} (hm : m.wf = true) {o a : Nat} {bs : List Byte}
    (h : a < o ∨ o + bs.length ≤ a) : (m.writeBytes o bs).read a = m.read a := by
  rw [Memory.read_writeBytes hm, if_neg (by omega)]

/-- Settles O49: the step is the host's write, and the buffer's read law says what it changes. -/
theorem hostWritesTheBuffer : Obligations.HostWritesTheBuffer := by
  intro s rest hseq hwf
  exact ⟨fun o bytes h => ⟨s.data.writeBytes o bytes, step_idle_action hseq h, Memory.writeBytes_wf hwf,
    fun _ hk => Memory.read_writeBytes_inside hwf o hk, fun _ ha => Memory.read_writeBytes_outside hwf ha⟩,
    fun _ h => step_idle_action hseq h⟩

/-! ### The cursor (10_state.md R24 to R26) -/

/-- Settles O52, from what every instruction does to the cursor. -/
theorem instructionsKeepTheCursorInside : Obligations.InstructionsKeepTheCursorInside := by
  intro i s t h
  obtain ⟨⟨hinside, hcursor⟩, -, hbinds⟩ := exec_moves h
  exact ⟨hinside, hcursor, hbinds⟩

/-- Settles O53: the cursor that is kept inside the buffer is at a bit of it or at its end. -/
theorem cursorOnlyMovesForward : Obligations.CursorOnlyMovesForward := by
  intro i s t h
  obtain ⟨⟨-, hcursor⟩, hforward, -⟩ := exec_moves h
  exact ⟨hforward, fun hs => bitAddr_le (hcursor hs)⟩

/-! ### Reset and the host's reads (10_state.md R37 to R47) -/

/-- Settles O47, by the definition of the reset state. -/
theorem resetValues : Obligations.ResetValues :=
  ⟨rfl, rfl, rfl, rfl, rfl, rfl, rfl, rfl, rfl, rfl, rfl, rfl, rfl, fun _ => rfl⟩

theorem flag_eq_toNat (b : Bool) : flag b = b.toNat := by cases b <;> rfl

/-- The registers that the host reads as they stand at any time, each with its width (R37 to R40). -/
def hostPort : List (Nat × Reg) := [(9, .cmd), (2, .st), (3, .err), (16, .rval)]

theorem hostPort_regRange : ∀ r ∈ hostPort.map (·.2), regRange r = 0 := by decide

/-- A register that is not a result register, nor one that the host reads at any time, answers nothing. -/
theorem hostRead_eq_none {s : State} {r : Reg} (h : s.resultReg r = none)
    (hr : r ∉ hostPort.map (·.2)) : s.hostRead r = none := by
  unfold State.hostRead
  split
  case h_5 => rw [h]
  all_goals exact absurd (by decide) hr

/-- A result register answers what it holds, a free value of its width while `ST` is BUSY (R274). -/
theorem hostRead_resultReg {s : State} {r : Reg} {v : Nat} (h : s.resultReg r = some v) :
    s.hostRead r = some (if s.st = .busy then Config.busyRead r s.bitAddr % regRange r else v) := by
  unfold State.hostRead
  split
  case h_5 => rw [h]
  all_goals cases h

/-- While `ST` is not BUSY a result register reads as what it holds. -/
theorem hostRead_of_not_busy {s : State} {r : Reg} {v : Nat} (hst : s.st ≠ .busy) (h : s.resultReg r = some v) :
    s.hostRead r = some v := by
  rw [hostRead_resultReg h, if_neg hst]

/-- The same for a register of one bit. -/
theorem hostRead_flag {s : State} {r : Reg} {b : Bool} (hst : s.st ≠ .busy) (h : s.resultReg r = some (flag b)) :
    s.hostRead r = some b.toNat := by
  rw [hostRead_of_not_busy hst h, flag_eq_toNat]

/-- What a result register of a stated width holds is within it (R27, R30, R34). -/
theorem resultReg_lt {s : State} {r : Reg} {v : Nat} (hr : regRange r ≠ 0) (h : s.resultReg r = some v) :
    v < regRange r := by
  have hflag : ∀ b : Bool, flag b < 2 := fun b => by cases b <;> decide
  cases r with
  | sync | afl | splc | tpdl | stfLen | afxl | pid | tsc | cc | splt | pcr | opcr | ltwo | pwr | dts =>
    cases h; exact BitVec.isLt _
  | pV | tei | pusi | tpri | afp | plp | afV | plV | di | rai | espi | pcrV | opcrV | splV | tpdV | afxV | stfV | ltwf
  | pwrf | smsf | ltwV | ltwvf | pwrV | smsV =>
    cases h; exact hflag _
  | tpdb i =>
    rw [State.resultReg] at h
    split at h <;> cases h
    exact BitVec.isLt _
  | _ => exact absurd rfl hr

/-- A host's read of a result register of a stated width is within it, also while `ST` is BUSY (R47, R274). -/
theorem hostRead_lt {s : State} {r : Reg} {v : Nat} (hr : regRange r ≠ 0) (h : s.hostRead r = some v) :
    v < regRange r := by
  cases hv : s.resultReg r with
  | none =>
    rw [hostRead_eq_none hv (fun k => hr (hostPort_regRange r k))] at h
    cases h
  | some w =>
    rw [hostRead_resultReg hv] at h
    cases h
    split
    · exact Nat.mod_lt _ (Nat.pos_of_ne_zero hr)
    · exact resultReg_lt hr hv

/-- Every entry of `TPDB` has eight bits (R32). -/
theorem hostRead_tpdb_lt {s : State} {i v : Nat} (h : s.hostRead (.tpdb i) = some v) : v < 2 ^ 8 :=
  hostRead_lt (r := .tpdb i) (show 2 ^ 8 ≠ 0 by decide) h

/-- The 255 entries of `TPDB` are result registers. -/
theorem resultReg_tpdb {s : State} {i : Nat} (h : i < 255) :
    s.resultReg (.tpdb i) = some (s.a.tpdbRead i).toNat := by
  rw [State.resultReg]
  exact if_pos h

/-- There are no entries of `TPDB` past the 255th (R32). -/
theorem resultReg_tpdb_past {s : State} {i : Nat} (h : 255 ≤ i) : s.resultReg (.tpdb i) = none := by
  rw [State.resultReg]
  exact if_neg (Nat.not_lt.mpr h)

/-- `CMD`, `ST`, `ERR` and `RVAL`, which read as they stand at any time, are within their widths (R37 to R40). -/
theorem hostRead_port_lt {s : State} {r : Reg} {w v : Nat}
    (hr : (w, r) ∈ hostPort) (h : s.hostRead r = some v) : v < 2 ^ w := by
  simp only [hostPort, List.mem_cons, Prod.mk.injEq, List.not_mem_nil, or_false] at hr
  obtain ⟨rfl, rfl⟩ | ⟨rfl, rfl⟩ | ⟨rfl, rfl⟩ | ⟨rfl, rfl⟩ := hr <;> cases h
  · decide
  all_goals exact BitVec.isLt _

/-- A readable register's read is within the register's width, result register or not. -/
theorem hostRead_lt_two_pow {s : State} {r : Reg} {w v : Nat}
    (hr : regRange r = 2 ^ w ∨ (w, r) ∈ hostPort)
    (h : s.hostRead r = some v) : v < 2 ^ w := by
  rcases hr with hrange | hport
  · rw [← hrange]
    exact hostRead_lt (hrange ▸ (Nat.two_pow_pos w).ne') h
  · exact hostRead_port_lt hport h

/-- Settles O48: result registers by what they hold, the widths by the table of `regRange`. -/
theorem hostReadsTheRegisters : Obligations.HostReadsTheRegisters := by
  intro s
  refine ⟨rfl, rfl, rfl, rfl, fun r hr => ?unreadable, fun hst => ?groupP, fun hst => ?groupA, fun hst => ?groupX,
    fun i hi hst => hostRead_of_not_busy hst (resultReg_tpdb hi),
    fun i hi => hostRead_eq_none (resultReg_tpdb_past hi) (by simp [hostPort]), fun i v => hostRead_tpdb_lt, ?widths⟩
  case unreadable => fin_cases hr <;> rfl
  case groupP =>
    have one {r b} := hostRead_flag (r := r) (b := b) hst
    have number {r v} := hostRead_of_not_busy (r := r) (v := v) hst
    exact ⟨one rfl, number rfl, one rfl, one rfl, one rfl, number rfl, number rfl, one rfl, one rfl, number rfl,
      one rfl, one rfl, number rfl, number rfl⟩
  case groupA =>
    have one {r b} := hostRead_flag (r := r) (b := b) hst
    have number {r v} := hostRead_of_not_busy (r := r) (v := v) hst
    exact ⟨number rfl, one rfl, one rfl, one rfl, one rfl, number rfl, one rfl, number rfl, one rfl, number rfl,
      one rfl, number rfl, one rfl, one rfl, number rfl, number rfl⟩
  case groupX =>
    have one {r b} := hostRead_flag (r := r) (b := b) hst
    have number {r v} := hostRead_of_not_busy (r := r) (v := v) hst
    exact ⟨number rfl, one rfl, one rfl, one rfl, one rfl, one rfl, number rfl, one rfl, number rfl, one rfl,
      number rfl, number rfl⟩
  case widths =>
    refine fun row hrow r hr v => hostRead_lt_two_pow ?_
    decide +revert

end Sys2Proof.Machine

/-! # The buffer as the instructions see it (O50, O51) -/

namespace Sys2Proof.Machine

/-! ### Nothing of the host's is written (20_memory.md R61) -/

/-- Settles O50, from what no instruction writes. -/
theorem noInstructionWritesTheBuffer : Obligations.NoInstructionWritesTheBuffer := by
  intro i s t h
  obtain ⟨hdata, hlen, hscript⟩ := exec_keeps h
  exact ⟨hlen, hscript, hdata, fun a => congrArg (Memory.read · a) hdata⟩

/-! ### Operations that do not look past `LEN` (20_memory.md R69) -/

/-- The state with another buffer. -/
def State.withData (s : State) (d : Memory) : State := { s with data := d }

/-- A result with another buffer in its state. -/
def resultWithData {α : Type} (d : Memory) :
    EStateM.Result DecodeError State α → EStateM.Result DecodeError State α
  | .ok v s => .ok v (s.withData d)
  | .error e s => .error e (s.withData d)

/-- A part of an operation whose result is the same, the buffer apart, over every buffer that agrees below `LEN`. Unlike
what is `Blind`, it may write the host registers and the sequencer's position. -/
structure BufferBlind {α : Type} (m : Op α) : Prop where
  framed : Framed m
  same : ∀ d s, Agrees d s → m (s.withData d) = resultWithData d (m s)

/-- Every field that `Blind` hides as `s` has it, but for the buffer. -/
def State.hiddenOver (s : State) (d : Memory) : Hidden :=
  { data := d, st := s.st, err := s.err, rval := s.rval, seq := s.seq, script := s.script, afEnd := none, afxEnd := none }

/-- What sees at most the budgets beside its registers is the same over both buffers: hiding the state's own fields shows
that it leaves them alone, so that hiding them over `d` replaces the buffer only. -/
theorem Blind.bufferBlind {α : Type} {m : Op α} (h : Blind EndsSeen m) : BufferBlind m where
  framed := h.framed
  same d s ha := by
    have hown : m s = resultUnder (s.hiddenOver s.data) (m s) :=
      h.same (s.hiddenOver s.data) s ⟨rfl, rfl⟩ fun _ _ => rfl
    calc m (s.withData d)
      _ = resultUnder (s.hiddenOver d) (m s) := h.same (s.hiddenOver d) s ⟨rfl, rfl⟩ ha
      _ = resultWithData d (resultUnder (s.hiddenOver s.data) (m s)) := by cases m s <;> rfl
      _ = resultWithData d (m s) := congrArg _ hown.symm

theorem BufferBlind.bind {α β : Type} {m : Op α} {g : α → Op β} (h : BufferBlind m) (q : ∀ v, BufferBlind (g v)) :
    BufferBlind (m >>= g) where
  framed := h.framed.bind fun v => (q v).framed
  same d s ha := by
    rw [bind_apply, bind_apply, h.same d s ha]
    cases hm : m s with
    | ok v t =>
      have f := h.framed.ok hm
      exact (q v).same d t fun a hl => (ha a (f.len ▸ hl)).trans (by rw [f.data])
    | error e t => rfl

/-- An update of registers that commutes with replacing the buffer. -/
theorem BufferBlind.modify {g : State → State} (hf : Framed (modify g : Op Unit))
    (h : ∀ s d, g (s.withData d) = (g s).withData d) : BufferBlind (modify g : Op Unit) :=
  ⟨hf, fun d s _ => congrArg (EStateM.Result.ok ()) (h s d)⟩

theorem BufferBlind.onFlag {b : State → Bool} {m : Op Unit} (h : BufferBlind m)
    (hb : ∀ s d, b (s.withData d) = b s) : BufferBlind (onFlag b m) where
  framed := h.framed.onFlag
  same d s ha := by
    unfold Machine.onFlag
    rw [hb s d]
    split
    · exact h.same d s ha
    · rfl

/-! ### The sequencer -/

theorem bufferBlind_payload : BufferBlind payload := Blind.bufferBlind blind_payload

theorem bufferBlind_finishOp : BufferBlind finishOp := .modify framed_finishOp fun _ _ => rfl

theorem bufferBlind_afSeq : BufferBlind afSeq := (blind_afSeq (fun _ h => h.1) fun _ h => h.2).bufferBlind

theorem bufferBlind_endPacket (op : Composite) : BufferBlind (endPacket op) :=
  .bind (bufferBlind_payload.onFlag fun _ _ => rfl) fun _ => bufferBlind_finishOp

theorem bufferBlind_endAf (op : Composite) : BufferBlind (endAf op) :=
  .bind (blind_stuffing fun _ h => h.1).bufferBlind fun _ =>
    .bind (.modify (framed_fields fun _ => ⟨rfl, rfl, rfl, rfl, rfl, rfl⟩) fun _ _ => rfl) fun _ =>
      bufferBlind_endPacket op

theorem bufferBlind_endAfx (op : Composite) : BufferBlind (endAfx op) :=
  .bind (blind_afxPadding fun _ h => h.2).bufferBlind fun _ =>
    .bind (.modify (framed_fields fun _ => ⟨rfl, rfl, rfl, rfl, rfl, rfl⟩) fun _ _ => rfl) fun _ => by
      split
      · exact bufferBlind_finishOp
      · exact bufferBlind_endAf op

theorem bufferBlind_endStructure (op : Composite) : ∀ r, BufferBlind (endStructure op r)
  | .tsh => bufferBlind_endPacket op
  | .afHead | .pcr | .opcr | .spl | .tpd => bufferBlind_endAf op
  | .afxHead | .ltw | .pwr | .sms => bufferBlind_endAfx op

theorem nextRegion_withData (op : Composite) (r : Region) (s : State) (d : Memory) :
    nextRegion op r (s.withData d) = nextRegion op r s := by cases r <;> rfl

theorem bufferBlind_parkAt (op : Composite) (r : Region) : BufferBlind (modify (State.parkAt op r) : Op Unit) :=
  .modify (framed_parkAt op r) fun _ _ => by cases r <;> rfl

theorem bufferBlind_parkOr (op : Composite) (next : Option Region) {rest : Op Unit} (h : BufferBlind rest) :
    BufferBlind (parkOr op next rest) := by
  cases next with
  | some r => exact bufferBlind_parkAt op r
  | none => exact h

theorem bufferBlind_advance (op : Composite) (r : Region) : BufferBlind (advance op r) where
  framed := framed_advance op r
  same d s ha := by
    unfold advance
    rw [nextRegion_withData]
    exact (bufferBlind_parkOr op _ (bufferBlind_endStructure op r)).same d s ha

/-! ### The composite operations -/

theorem bufferBlind_hdrOp : BufferBlind hdrOp :=
  .bind (.modify (framed_fields fun _ => ⟨rfl, rfl, rfl, rfl, rfl, rfl⟩) fun _ _ => rfl) fun _ =>
    .bind (blind_hdrGroup none).bufferBlind fun _ => bufferBlind_finishOp

theorem bufferBlind_afOp : BufferBlind afOp := .bind bufferBlind_afSeq fun _ => bufferBlind_finishOp

theorem bufferBlind_afxOp : BufferBlind afxOp :=
  .bind (blind_afxSeq none fun _ h => h.2).bufferBlind fun _ =>
    .bind (.modify (framed_fields fun _ => ⟨rfl, rfl, rfl, rfl, rfl, rfl⟩) fun _ _ => rfl) fun _ => bufferBlind_finishOp

theorem bufferBlind_decodeTail :
    BufferBlind (do hdrGroup none; onFlag (·.p.afp) afSeq; onFlag (·.p.plp) payload; finishOp) :=
  .bind (blind_hdrGroup none).bufferBlind fun _ => .bind (bufferBlind_afSeq.onFlag fun _ _ => rfl) fun _ =>
    .bind (bufferBlind_payload.onFlag fun _ _ => rfl) fun _ => bufferBlind_finishOp

/-! ### What the host sees of them -/

section

variable {s t : State} {d : Memory}

theorem settleComposite_withData {m : Op Unit} (hm : BufferBlind m) (ha : Agrees d s)
    (h : settleComposite m s = .next t) : settleComposite m (s.withData d) = .next (t.withData d) := by
  unfold settleComposite at h ⊢
  rw [hm.same d s ha]
  cases hs : m s with
  | ok v u => rw [hs] at h; cases h; rfl
  | error e u => rw [hs] at h; cases h; rfl

/-- A cursor command: its read sees none of the hidden fields, and the host registers it writes are not the buffer. -/
theorem settleRaw_withData {α : Type} {v : α → BitVec 16} {m : Op α} (hm : Blind EndsSeen m) (ha : Agrees d s)
    (h : settleRaw v m s = .next t) : settleRaw v m (s.withData d) = .next (t.withData d) := by
  unfold settleRaw at h ⊢
  rw [hm.bufferBlind.same d s ha]
  cases hs : m s with
  | ok v u => rw [hs] at h; cases h; rfl
  | error e u => rw [hs] at h; cases h; rfl

/-- One region of the packet: its reads, then on to the next region or to the end of the structure. -/
theorem runRegion_withData {op : Composite} {r : Region} {reads : Op Unit} (hm : Blind EndsSeen reads)
    (ha : Agrees d s) (h : runRegion op r reads s = .next t) :
    runRegion op r reads (s.withData d) = .next (t.withData d) :=
  settleComposite_withData (hm.bufferBlind.bind fun _ => bufferBlind_advance op r) ha h

/-- `DECODE` clears and rewinds without a look at the buffer. -/
theorem execDecode_withData {n : BitVec 5} (ha : Agrees d s) (h : execDecode n s = .next t) :
    execDecode n (s.withData d) = .next (t.withData d) := by
  unfold execDecode settleComposite at h ⊢
  rw [decodeOp_eq_tail] at h ⊢
  exact settleComposite_withData (s := s.clearAll.seek (0, 0)) bufferBlind_decodeTail ha h

theorem exec_withData {i : Instr} (ha : Agrees d s) (h : exec i s = .next t) :
    exec i (s.withData d) = .next (t.withData d) := by
  cases i with
  | openCur _ => cases h; rfl
  | pbit _ => exact settleRaw_withData blind_pbit ha h
  | pbits _ => exact settleRaw_withData (blind_pbits _) ha h
  | pbyte _ => exact settleRaw_withData blind_pbyte ha h
  | pwide _ => exact settleRaw_withData (blind_pwide _) ha h
  | hdr _ => exact settleComposite_withData bufferBlind_hdrOp ha h
  | af _ => exact settleComposite_withData bufferBlind_afOp ha h
  | afx _ => exact settleComposite_withData bufferBlind_afxOp ha h
  | decode n => exact execDecode_withData (n := n) ha h
  | tspNone _ | tspPayload _ | tspAf _ | tspAfPayload _ => exact runRegion_withData (blind_hdrGroup _) ha h
  | afHead _ => exact runRegion_withData (blind_afHeadGroup _ fun _ h => h.1) ha h
  | afPcr _ => exact runRegion_withData (blind_pcrGroup _ fun _ h => h.1) ha h
  | afOpcr _ => exact runRegion_withData (blind_opcrGroup _ fun _ h => h.1) ha h
  | afSplice _ => exact runRegion_withData (blind_splGroup _ fun _ h => h.1) ha h
  | afPrivate _ _ => exact runRegion_withData (blind_tpdGroup _ fun _ h => h.1) ha h
  | afxHead _ => exact runRegion_withData (blind_afxHeadGroup _ _ fun _ h => h.2) ha h
  | afxLtw _ _ => exact runRegion_withData (blind_ltwGroup _ fun _ h => h.2) ha h
  | afxPwr _ _ => exact runRegion_withData (blind_pwrGroup _ fun _ h => h.2) ha h
  | afxSms _ => exact runRegion_withData (blind_smsGroup _ fun _ h => h.2) ha h
  | reserved9 _ | reservedA _ | reservedB _ | reservedC _ | reservedD _ | reservedE _ | reservedF _ => cases h; rfl

end

/-- Settles O51: every primitive checks `LEN` before it reads, and nothing else looks at the buffer. -/
theorem bytesPastTheEndDecideNothing : Obligations.BytesPastTheEndDecideNothing :=
  fun _ _ _ _ ha h => exec_withData ha h

end Sys2Proof.Machine

/-! # Encodings, and what a header and a field add up to (O1, O2, O3, O13, O17, O21) -/

namespace Sys2Proof.Machine

/-! ### Decoding undoes encoding (30_encoding.md R91 to R100, R110) -/

/-- The command word of an operation decodes to it. -/
theorem decodeCmd_of_encode {i : Instr} {w : Cmd} (h : encode i = .cmd w) : decodeCmd w = i := by
  cases i with
  | openCur n | pbit n | pbits n | pbyte n | pwide n | hdr n | af n | afx n | decode n
  | reserved9 n | reservedA n | reservedB n | reservedC n | reservedD n | reservedE n | reservedF n =>
    cases h
    rw [decodeCmd, slice_op, slice_n]
    rfl
  | _ => cases h

/-- Settles O1: an instruction is encoded as a command word or as a region, and either decodes back. -/
theorem encodedInstructionsDecodeBack : Obligations.EncodedInstructionsDecodeBack := by
  intro i rest hw
  cases hc : encode i with
  | cmd w =>
    show Except.ok (decodeCmd w, []) = _
    rw [decodeCmd_of_encode hc]
    rfl
  | wire r bytes => exact decodeWire_encode hw hc rest

/-! ### Encoding undoes decoding: command words (R110, R111) -/

theorem slice_op_append_slice_n (w : Cmd) : (slice 8 5 w ++ slice 4 0 w : Cmd) = w := by
  apply BitVec.eq_of_toNat_eq
  simp only [toNat_append_eq, toNat_slice]
  omega

/-- A command word is the encoding of its own two fields. -/
theorem encodeCmd_of_op {w : Cmd} {op : BitVec 4} (h : (slice 8 5 w).toNat = op.toNat) :
    encodeCmd op (slice 4 0 w) = .cmd w := by
  have hop : op = slice 8 5 w := BitVec.eq_of_toNat_eq h.symm
  rw [encodeCmd, hop, slice_op_append_slice_n]

/-- Every command word decodes to a well-formed instruction that it encodes. -/
theorem encode_decodeCmd (w : Cmd) : encode (decodeCmd w) = .cmd w ∧ (decodeCmd w).wellFormed = true := by
  have hlt : (slice 8 5 w).toNat < 16 := (slice 8 5 w).isLt
  unfold decodeCmd
  dsimp only
  split
  case h_16 =>
    simp only [imp_false] at *
    have hop : (slice 8 5 w).toNat = 0xF := by omega
    exact ⟨encodeCmd_of_op hop, rfl⟩
  all_goals exact ⟨encodeCmd_of_op ‹_›, rfl⟩

/-! ### Encoding undoes decoding: regions (R90 to R100, R108, R109) -/

theorem encode_headerInstr (h : Tsh) (afp plp : Bool) :
    encode (headerInstr h afp plp) = .wire .tsh (tshBytes h afp plp) := by
  cases afp <;> cases plp <;> rfl

theorem headerInstr_wellFormed (h : Tsh) (afp plp : Bool) : (headerInstr h afp plp).wellFormed = true := by
  cases afp <;> cases plp <;> rfl

theorem encode_decodeTsh (a b c d : Byte) : encode (decodeTsh (a ++ b ++ c ++ d)) = .wire .tsh [a, b, c, d] := by
  obtain ⟨ha, hb, hc, hd⟩ := bytes_of_join4 a b c d
  rw [decodeTsh_eq_headerInstr, encode_headerInstr, tshBytes, encodeTsh_tshFields _ _ _ rfl rfl]
  simp only [ha, hb, hc, hd]

theorem clockBytes_join (a b c d e f : Byte) : clockBytes (a ++ b ++ c ++ d ++ e ++ f) = [a, b, c, d, e, f] := by
  obtain ⟨ha, hb, hc, hd, he, hf⟩ := bytes_of_join6 a b c d e f
  simp only [clockBytes, ha, hb, hc, hd, he, hf]

theorem ltwBytes_join (a b : Byte) :
    ltwBytes ((a ++ b : BitVec 16).getLsbD 15) (slice 14 0 (a ++ b : BitVec 16)) = [a, b] := by
  obtain ⟨ha, hb⟩ := bytes_of_join2 a b
  simp only [ltwBytes, ltw_join, ha, hb]

theorem pwrBytes_join (a b c : Byte) :
    pwrBytes (slice 23 22 (a ++ b ++ c : BitVec 24)) (slice 21 0 (a ++ b ++ c : BitVec 24)) = [a, b, c] := by
  obtain ⟨ha, hb, hc⟩ := bytes_of_join3 a b c
  simp only [pwrBytes, pwr_join, ha, hb, hc]

theorem smsBytes_join (a b c d e : Byte) : smsBytes (decodeSms (a ++ b ++ c ++ d ++ e)) = [a, b, c, d, e] := by
  obtain ⟨ha, hb, hc, hd, he⟩ := bytes_of_join5 a b c d e
  simp only [smsBytes, sms_join, ha, hb, hc, hd, he]

/-- Bytes that the decoder accepts are the encoding of a well-formed instruction and what stands after the region. -/
theorem encode_of_decodeWire {r : Region} {bytes rest : List Byte} {i : Instr}
    (h : decodeWire r bytes = .ok (i, rest)) :
    rest = bytes.drop (regionSize r bytes) ∧ i.wellFormed = true ∧
      encode i = .wire r (bytes.take (regionSize r bytes)) := by
  unfold decodeWire at h
  -- the branches of the decoder, one for each region in wire order, and last the region cut short
  split at h
  case h_1 a b c d tail =>
    cases h
    refine ⟨rfl, ?_, encode_decodeTsh a b c d⟩
    rw [decodeTsh_eq_headerInstr, headerInstr_wellFormed]
  case h_2 a b tail =>
    cases h
    exact ⟨rfl, rfl, by rw [encode, decodeAfHead_len, afFlagsByte_decode]; rfl⟩
  case h_3 a b c d e f tail | h_4 a b c d e f tail =>
    cases h
    exact ⟨rfl, rfl, by rw [encode, clockBytes_join]; rfl⟩
  case h_5 a tail =>
    cases h
    exact ⟨rfl, rfl, rfl⟩
  case h_6 n tail =>
    have hsize : regionSize .tpd (n :: tail) = n.toNat + 1 := Nat.add_comm ..
    split at h
    · next hn =>
      cases h
      rw [hsize]
      exact ⟨rfl, decide_eq_true (List.length_take_of_le hn), rfl⟩
    · cases h
  case h_7 a b tail =>
    cases h
    exact ⟨rfl, rfl, by rw [encode, decodeAfxHead_len, afxFlagsByte_decode]; rfl⟩
  case h_8 a b tail =>
    cases h
    exact ⟨rfl, rfl, by rw [encode, ltwBytes_join]; rfl⟩
  case h_9 a b c tail =>
    cases h
    exact ⟨rfl, rfl, by rw [encode, pwrBytes_join]; rfl⟩
  case h_10 a b c d e tail =>
    cases h
    exact ⟨rfl, rfl, by rw [encode, smsBytes_join]; rfl⟩
  case h_11 => cases h

/-- The decoder accepts every list of bytes that holds the region in full: there is no illegal region (R109). -/
theorem decodeWire_of_size_le : ∀ {r : Region} {bytes : List Byte}, regionSize r bytes ≤ bytes.length →
    ∃ v, decodeWire r bytes = .ok v
  | .tsh, _ :: _ :: _ :: _ :: _, _ => ⟨_, rfl⟩
  | .afHead, _ :: _ :: _, _ => ⟨_, rfl⟩
  | .pcr, _ :: _ :: _ :: _ :: _ :: _ :: _, _ => ⟨_, rfl⟩
  | .opcr, _ :: _ :: _ :: _ :: _ :: _ :: _, _ => ⟨_, rfl⟩
  | .spl, _ :: _, _ => ⟨_, rfl⟩
  | .tpd, n :: tail, h =>
    have hn : n.toNat ≤ tail.length := by
      simp only [regionSize, List.headD_cons, List.length_cons] at h
      omega
    ⟨_, if_pos hn⟩
  | .afxHead, _ :: _ :: _, _ => ⟨_, rfl⟩
  | .ltw, _ :: _ :: _, _ => ⟨_, rfl⟩
  | .pwr, _ :: _ :: _ :: _, _ => ⟨_, rfl⟩
  | .sms, _ :: _ :: _ :: _ :: _ :: _, _ => ⟨_, rfl⟩

/-- The one reason that the decoder gives: the region it was asked for is cut short. -/
theorem decodeWire_reject {r : Region} {bytes : List Byte} {e : DecodeReject} (h : decodeWire r bytes = .error e) :
    e = .truncated r := by
  unfold decodeWire at h
  split at h
  -- the branch of a TPD, whose bytes may end before its length byte says
  case h_6 =>
    split at h <;> cases h
    rfl
  all_goals cases h
  rfl

/-- Settles O2: the decoder accepts exactly the regions that are all there, and what it accepts is encoded as it
stood. -/
theorem everyEncodingDecodesWithoutLoss : Obligations.EveryEncodingDecodesWithoutLoss := by
  refine ⟨encode_decodeCmd, fun r bytes h => ?_, fun r bytes h => ?_⟩
  · obtain ⟨⟨i, rest⟩, hd⟩ := decodeWire_of_size_le h
    obtain ⟨rfl, hw, he⟩ := encode_of_decodeWire hd
    exact ⟨i, hd, hw, he⟩
  · show decodeWire r bytes = _
    cases hd : decodeWire r bytes with
    | ok v => exact absurd (regionSize_le_of_decodeWire hd) (Nat.not_le.mpr h)
    | error e => rw [decodeWire_reject hd]

/-! ### Written words, and the reserved commands (R110, R111) -/

/-- Settles O3: twelve closed words, evaluated. -/
theorem writtenWordsDecode : Obligations.WrittenWordsDecode := by
  unfold Obligations.WrittenWordsDecode
  decide

/-- A command word whose `op` is 0x9 or more is ignored. -/
theorem exec_decodeCmd_reserved {w : Cmd} (h : 0x9 ≤ (slice 8 5 w).toNat) (s : State) :
    exec (decodeCmd w) s = .next s := by
  unfold decodeCmd
  dsimp only
  split
  case h_1 | h_2 | h_3 | h_4 | h_5 | h_6 | h_7 | h_8 | h_9 => omega
  all_goals rfl

/-- Settles O13: no reserved command has an effect, and seven operations do not look at `n`. -/
theorem reservedCommandsAreIgnored : Obligations.ReservedCommandsAreIgnored :=
  fun _ _ s => ⟨⟨rfl, rfl, rfl, rfl, rfl, rfl, rfl⟩, fun _ h => exec_decodeCmd_reserved h s,
    rfl, rfl, rfl, rfl, rfl, rfl, rfl⟩

/-! ### What follows a header (R92, 41_packet_decoder.md R161 to R163) -/

/-- The state after a header's nine reads: its fields written, the cursor past its four bytes (R161). -/
def State.headerRead (s : State) (h : Tsh) (afp plp : Bool) : State := (s.seek (s.bp + 4, s.bo)).putHdr h afp plp

/-- A header region within the buffer writes its fields, and goes on as the sequencer says. -/
theorem execTsh_continues {s : State} (h : Tsh) (afp plp : Bool) (h0 : s.bo = 0) (hl : s.bp + 4 ≤ s.len) :
    Continues (s.running .decode) .tsh (s.headerRead h afp plp) (execTsh h afp plp s) := by
  refine runRegion_ok ?_ h0 hl
  rw [hdrGroup_given h0 hl, State.headerRead, h0]

/-- Under `DECODE` a header with `AFP` set goes on to the adaptation field. -/
theorem execTsh_parks {s : State} (h : Tsh) (plp : Bool) (h0 : s.bo = 0) (hl : s.bp + 4 ≤ s.len)
    (hop : s.running .decode = .decode) :
    execTsh h true plp s = .next ((s.headerRead h true plp).parkAt .decode .afHead) := by
  obtain ⟨hpark, -, -⟩ := execTsh_continues h true plp h0 hl
  rw [hop] at hpark
  exact hpark .afHead rfl

/-- Any other header ends the operation. -/
theorem execTsh_ends {s : State} (h : Tsh) (afp plp : Bool) (h0 : s.bo = 0) (hl : s.bp + 4 ≤ s.len)
    (hend : ¬ (s.running .decode = .decode ∧ afp = true)) :
    execTsh h afp plp s = .next ((s.headerRead h afp plp).packetEnded (s.running .decode)) := by
  obtain ⟨-, hended, -⟩ := execTsh_continues h afp plp h0 hl
  exact hended (if_neg hend) (Nat.zero_le _)

/-- In an operation other than `DECODE` the end of a packet names no payload. -/
theorem packetEnded_of_ne_decode {t : State} {op : Composite} (h : op ≠ .decode) : t.packetEnded op =
    { t with st := .doneOk, err := none, afEnd := 0, afxEnd := 0, seq := none } := by
  rw [State.packetEnded, if_neg fun k => h k.1]

/-- Settles O17: each variant is a header that parks the sequencer at the field or ends the packet. -/
theorem headerVariantsSelectWhatFollows : Obligations.HeaderVariantsSelectWhatFollows := by
  intro h s h0 hl fields t ended field
  refine ⟨fun hop => ⟨?_, ?_, ?_, ?_⟩, fun hop => ?_⟩
  · refine (execTsh_ends h false false h0 hl (by simp)).trans ?_
    rw [hop]
    rfl
  · refine (execTsh_ends h false true h0 hl (by simp)).trans ?_
    rw [hop]
    rfl
  · exact execTsh_parks h false h0 hl hop
  · exact execTsh_parks h true h0 hl hop
  · have hend : ∀ afp plp, execTsh h afp plp s = .next { ended with p := { fields with afp := afp, plp := plp } } :=
      fun afp plp => (execTsh_ends h afp plp h0 hl fun k => hop k.1).trans (by rw [packetEnded_of_ne_decode hop]; rfl)
    exact ⟨hend false false, hend false true, hend true false, hend true true⟩

/-! ### The lengths of an adaptation field (R103, 10_state.md R33) -/

/-- An absent region takes no room, so that its length byte may as well count as 0. -/
theorem room_orZero (present : Bool) (n : Byte) :
    room present (1 + (orZero present n).toNat) = room present (1 + n.toNat) := by
  cases present <;> rfl

/-- The extension's length byte, where one is flagged. -/
theorem room_layoutAX_afxl (s : State) (o : Nat) : room (s.layoutF o).afx (1 + (s.layoutAX o).afxl.toNat) =
    room (s.layoutF o).afx (1 + (s.memRead (s.afxAt o)).toNat) := by
  cases hx : (s.layoutF o).afx with
  | false => rfl
  | true => rw [State.layoutAX, if_pos hx, layoutX_afxl]

/-- The stuffing starts after the flags byte and the flagged regions. -/
theorem stfAt_eq (s : State) (o : Nat) :
    s.stfAt o = o + 2 + room (s.layoutF o).pcr 6 + room (s.layoutF o).opcr 6 + room (s.layoutF o).spl 1 +
      room (s.layoutF o).tpd (1 + (s.layoutA o).tpdl.toNat) +
      room (s.layoutF o).afx (1 + (s.layoutAX o).afxl.toNat) := by
  have htpd : room (s.layoutF o).tpd (1 + (s.layoutA o).tpdl.toNat) =
    room (s.layoutF o).tpd (1 + (s.memRead (s.tpdAt o)).toNat) := room_orZero _ _
  rw [htpd, room_layoutAX_afxl]
  rfl

theorem fieldEnd_eq_afl (s : State) (o : Nat) : s.fieldEnd o = o + 1 + (s.layoutA o).afl.toNat := by
  rw [State.fieldEnd, length_of_head]
  rfl

/-- `STF_LEN` is what the field has left after its flagged regions, at most 254 bytes. -/
theorem layoutA_stfLen (s : State) (o : Nat) :
    (s.layoutA o).stfLen.toNat = s.fieldEnd o - s.stfAt o ∧ (s.layoutA o).stfLen.toNat ≤ 254 := by
  have hafl := (s.layoutA o).afl.isLt
  have hend := fieldEnd_eq_afl s o
  have hstf := stfAt_ge s o
  have hlen : (s.layoutA o).stfLen.toNat = s.fieldEnd o - s.stfAt o := Nat.mod_eq_of_lt (by omega)
  omega

/-- Stuffing that is there starts after the flagged regions. -/
theorem layoutA_stfOff {s : State} {o : Nat} (h : (s.layoutA o).stfV = true) : (s.layoutA o).stfOff = s.stfAt o :=
  if_pos (of_decide_eq_true h)

/-- Settles O21: a successful `AF` leaves the layout of a field that fits. -/
theorem fieldLengthsAddUp : Obligations.FieldLengthsAddUp := by
  intro n s t h0 h herr
  obtain ⟨hfits, rfl⟩ := execAf_committed h0 h herr
  simp only [State.fieldFits, State.fieldHolds, Bool.and_eq_true, decide_eq_true_eq] at hfits
  obtain ⟨⟨hle, -⟩, -⟩ := hfits
  obtain ⟨hlen, hmax⟩ := layoutA_stfLen s s.bp
  obtain ⟨-, -, -, -, -, hiff, hoff⟩ := layoutA_tidy s s.bp (stfAt_ge s s.bp)
  have hend := fieldEnd_eq_afl s s.bp
  have hstf := stfAt_eq s s.bp
  refine ⟨?_, hend, hiff, fun hv => ?_, hoff, hmax⟩
  · show 1 + room (s.layoutF s.bp).pcr 6 + room (s.layoutF s.bp).opcr 6 + room (s.layoutF s.bp).spl 1 +
      room (s.layoutF s.bp).tpd (1 + (s.layoutA s.bp).tpdl.toNat) +
      room (s.layoutF s.bp).afx (1 + (s.layoutAX s.bp).afxl.toNat) + (s.layoutA s.bp).stfLen.toNat =
      (s.layoutA s.bp).afl.toNat
    omega
  · show (s.layoutA s.bp).stfOff + (s.layoutA s.bp).stfLen.toNat = s.fieldEnd s.bp
    rw [layoutA_stfOff hv]
    omega

end Sys2Proof.Machine

/-! # The cursor commands (O4 to O12, O41, O54) -/

namespace Sys2Proof.Machine

/-! ### The packet as one bit string (20_memory.md R64) -/

theorem bitsAt_lt (s : State) (A n : Nat) : s.bitsAt A n < 2 ^ n := by
  induction n with
  | zero => exact Nat.one_pos
  | succ n ih =>
    have hbit := (s.bitAt (A + n)).toNat_lt
    rw [State.bitsAt, Nat.pow_succ]
    omega

/-- The bits of the packet are those of its buffer, wherever the cursor stands. -/
theorem State.bitsAt_of_data {s t : State} (h : t.data = s.data) (A n : Nat) : t.bitsAt A n = s.bitsAt A n := by
  induction n with
  | zero => rfl
  | succ n ih => rw [State.bitsAt, State.bitsAt, ih, State.bitAt, State.bitAt, State.memRead_of_data h]

/-- The eight bits from a byte boundary on are the byte. -/
theorem bitsAt_whole_byte (s : State) (p : Nat) : s.bitsAt (8 * p) 8 = (s.memRead p).toNat := by
  rw [← Nat.add_zero (8 * p), bitsAt_byte s p 0 8 (Nat.le_refl 8), ext_eq, Nat.pow_zero, Nat.div_one]
  exact Nat.mod_eq_of_lt (s.memRead p).isLt

/-- The bits from the cursor on, as far as they lie in its byte. -/
theorem bitsAt_cursor {s : State} {n : Nat} (h : s.bo.val + n ≤ 8) :
    s.bitsAt s.bitAddr n = ext (s.memRead s.bp) s.bo n :=
  bitsAt_byte s s.bp s.bo n h

/-- The bits from the cursor on that end in the next byte: the rest of the one, then the high bits of the other. -/
theorem bitsAt_cursor_wide {s : State} {n : Nat} (h1 : 9 ≤ n + s.bo.val) (h2 : n + s.bo.val ≤ 16) :
    s.bitsAt s.bitAddr n =
      ext (s.memRead s.bp) s.bo (8 - s.bo.val) <<< (n - (8 - s.bo.val)) |||
        ext (s.memRead (s.bp + 1)) 0 (n - (8 - s.bo.val)) := by
  have hb := s.bo.isLt
  obtain ⟨k, hk⟩ : ∃ k, n = 8 - s.bo.val + k := ⟨n - (8 - s.bo.val), by omega⟩
  have hnext : s.bitAddr + (8 - s.bo.val) = 8 * (s.bp + 1) + 0 := by unfold State.bitAddr; omega
  rw [hk, bitsAt_append, bitsAt_cursor (by omega), hnext, bitsAt_byte s (s.bp + 1) 0 k (by omega),
    Nat.add_sub_cancel_left, shift_or _ _ _ (ext_lt _ _ _)]

/-! ### The cursor after a read (10_state.md R26) -/

/-- A read that ends at bit `r` of byte `q` leaves the cursor there. -/
theorem readBits_cursor {s : State} {n q r : Nat} (h : s.bitAddr + n = 8 * q + r) (hr : r < 8) :
    (s.readBits n).bp = q ∧ (s.readBits n).bo = ⟨r, hr⟩ := by
  refine ⟨?_, Fin.ext ?_⟩
  · show (s.bitAddr + n) / 8 = q
    omega
  · show (s.bitAddr + n) % 8 = r
    omega

/-- At most 16 bits fit `RVAL` as they are. -/
theorem readBits_rval_toNat (s : State) {n : Nat} (h : n ≤ 16) : (s.readBits n).rval.toNat = s.bitsAt s.bitAddr n :=
  Nat.mod_eq_of_lt ((bitsAt_lt s _ n).trans_le (Nat.pow_le_pow_right (by decide) h))

/-- One bit string: two reads side by side are one read, in value and in cursor (40_cursor.md R138). -/
theorem readBits_readBits (s : State) {n m : Nat} (h : n + m ≤ 16) :
    (s.readBits (n + m)).rval.toNat =
      (s.readBits n).rval.toNat * 2 ^ m + ((s.readBits n).readBits m).rval.toNat ∧
    (s.readBits (n + m)).bp = ((s.readBits n).readBits m).bp ∧
    (s.readBits (n + m)).bo = ((s.readBits n).readBits m).bo := by
  have haddr : (s.readBits n).bitAddr + m = s.bitAddr + (n + m) := by rw [readBits_bitAddr, Nat.add_assoc]
  refine ⟨?_, ?_, ?_⟩
  · rw [readBits_rval_toNat s h, readBits_rval_toNat s (by omega), readBits_rval_toNat _ (by omega), readBits_bitAddr,
      State.bitsAt_of_data (s := s) (t := s.readBits n) rfl, bitsAt_append]
  · exact (congrArg (· / 8) haddr).symm
  · exact (congrArg (Fin.ofNat 8) haddr).symm

/-! ### A cursor command in its two outcomes (40_cursor.md R141) -/

/-- A primitive that raises where it stands. -/
theorem settleRaw_raises {α : Type} {value : α → BitVec 16} {m : Op α} {s : State} {e : DecodeError}
    (h : m s = .error e s) : settleRaw value m s = .next (s.rawFailed e) := by
  rw [settleRaw, h]
  rfl

/-- A primitive that moves the cursor over the bits whose value it gives. -/
theorem settleRaw_reads {α : Type} {value : α → BitVec 16} {m : Op α} {s : State} {v : α} {p b k n : Nat}
    (h : m s = .ok v (s.seek (adv p b k))) (hk : b + k ≤ 8) (haddr : 8 * p + b + k = s.bitAddr + n)
    (hv : value v = BitVec.ofNat 16 (s.bitsAt s.bitAddr n)) : settleRaw value m s = .next (s.readBits n) := by
  rw [adv_eq p b k hk, haddr] at h
  rw [settleRaw, h]
  dsimp only
  rw [hv]
  rfl

/-! Each primitive in its cases, in the order of its tests (60_exceptions.md R239). -/

theorem exec_pbit_reads (c : BitVec 5) {s : State} (h : s.bp < s.len) : exec (.pbit c) s = .next (s.readBits 1) := by
  have hb := s.bo.isLt
  refine settleRaw_reads (pbit_ok h) (by omega) rfl ?_
  rw [bitsAt_cursor (by omega), ext_succ _ _ 0 (by omega), ext_zero, Nat.add_zero]
  cases (s.memRead s.bp).getLsbD (7 - s.bo.val) <;> rfl

theorem exec_pbit_end (c : BitVec 5) {s : State} (h : s.len ≤ s.bp) :
    exec (.pbit c) s = .next (s.rawFailed .outOfData) :=
  settleRaw_raises (pbit_end h)

theorem exec_pbits_reads {n : BitVec 5} {s : State} (h1 : 1 ≤ n.toNat) (h8 : s.bo.val + n.toNat ≤ 8)
    (h : s.bp < s.len) : exec (.pbits n) s = .next (s.readBits n.toNat) := by
  refine settleRaw_reads (pbits_ok h1 h8 h) h8 rfl (BitVec.eq_of_toNat_eq ?_)
  have hlt : s.bitsAt s.bitAddr n.toNat < 2 ^ 8 :=
    (bitsAt_lt s _ _).trans_le (Nat.pow_le_pow_right (by decide) (by omega))
  rw [← bitsAt_cursor h8, BitVec.toNat_setWidth, BitVec.toNat_ofNat, Nat.mod_eq_of_lt hlt, BitVec.toNat_ofNat]

theorem exec_pbits_count {n : BitVec 5} {s : State} (h : n.toNat = 0 ∨ 8 < n.toNat) :
    exec (.pbits n) s = .next (s.rawFailed .invalidBitCount) :=
  settleRaw_raises (pbits_count h)

theorem exec_pbits_span {n : BitVec 5} {s : State} (h1 : 1 ≤ n.toNat) (h8 : n.toNat ≤ 8) (h : 8 < s.bo.val + n.toNat) :
    exec (.pbits n) s = .next (s.rawFailed .insufficientBitsInByte) :=
  settleRaw_raises (pbits_span h1 h8 h)

theorem exec_pbits_end {n : BitVec 5} {s : State} (h1 : 1 ≤ n.toNat) (h8 : s.bo.val + n.toNat ≤ 8) (h : s.len ≤ s.bp) :
    exec (.pbits n) s = .next (s.rawFailed .outOfData) :=
  settleRaw_raises (pbits_end h1 h8 h)

theorem exec_pbyte_reads (c : BitVec 5) {s : State} (h0 : s.bo = 0) (h : s.bp < s.len) :
    exec (.pbyte c) s = .next (s.readBits 8) := by
  have haddr : s.bitAddr = 8 * s.bp := by rw [State.bitAddr, h0]; rfl
  refine settleRaw_reads (p := s.bp) (b := 0) (k := 8) (pbyte_ok h0 h) (Nat.le_refl 8) (by rw [haddr])
    (BitVec.eq_of_toNat_eq ?_)
  rw [haddr, bitsAt_whole_byte, BitVec.toNat_setWidth, BitVec.toNat_ofNat]

theorem exec_pbyte_unaligned (c : BitVec 5) {s : State} (h0 : s.bo ≠ 0) :
    exec (.pbyte c) s = .next (s.rawFailed .notByteAligned) :=
  settleRaw_raises (pbyte_unaligned h0)

theorem exec_pbyte_end (c : BitVec 5) {s : State} (h0 : s.bo = 0) (h : s.len ≤ s.bp) :
    exec (.pbyte c) s = .next (s.rawFailed .outOfData) :=
  settleRaw_raises (pbyte_end h0 h)

theorem exec_pwide_reads {n : BitVec 5} {s : State} (h1 : 9 ≤ n.toNat + s.bo.val) (h2 : n.toNat + s.bo.val ≤ 16)
    (h : s.bp + 1 < s.len) : exec (.pwide n) s = .next (s.readBits n.toNat) := by
  refine settleRaw_reads (pwide_ok h1 h2 h) (by omega) (by unfold State.bitAddr; omega) ?_
  rw [bitsAt_cursor_wide h1 h2]
  rfl

theorem exec_pwide_count {n : BitVec 5} {s : State} (h : n.toNat + s.bo.val ≤ 8 ∨ 16 < n.toNat + s.bo.val) :
    exec (.pwide n) s = .next (s.rawFailed .invalidBitCount) :=
  settleRaw_raises (pwide_count (.inr (.inr h)))

theorem exec_pwide_end {n : BitVec 5} {s : State} (h1 : 9 ≤ n.toNat + s.bo.val) (h2 : n.toNat + s.bo.val ≤ 16)
    (h : s.len ≤ s.bp + 1) : exec (.pwide n) s = .next (s.rawFailed .outOfData) :=
  settleRaw_raises (pwide_end h1 h2 h)

/-- Settles O4, by the definition of `OPEN`. -/
theorem openRewindsTheCursor : Obligations.OpenRewindsTheCursor :=
  fun _ _ => rfl

/-- Settles O5, by the two outcomes of `PBIT`. -/
theorem pbitReadsTheNextBit : Obligations.PbitReadsTheNextBit :=
  fun n _ => ⟨exec_pbit_reads n, exec_pbit_end n⟩

/-- Settles O6, by the four outcomes of `PBITS`. -/
theorem pbitsReadsWithinOneByte : Obligations.PbitsReadsWithinOneByte :=
  fun _ _ => ⟨fun ⟨h1, h8, h⟩ => exec_pbits_reads h1 h8 h, exec_pbits_count,
    fun ⟨h1, h8, h⟩ => exec_pbits_span h1 h8 h, fun ⟨h1, h8, h⟩ => exec_pbits_end h1 h8 h⟩

/-- Settles O7, by the three outcomes of `PBYTE`. -/
theorem pbyteReadsAnAlignedByte : Obligations.PbyteReadsAnAlignedByte := by
  refine fun n s => ⟨fun ⟨h0, h⟩ => ?_, exec_pbyte_unaligned n, fun ⟨h0, h⟩ => exec_pbyte_end n h0 h⟩
  show settleRaw _ pbyte s = _
  rw [settleRaw, pbyte_ok h0 h, h0]
  rfl

/-- Settles O8, by the three outcomes of `PWIDE`. -/
theorem pwideReadsAcrossOneBoundary : Obligations.PwideReadsAcrossOneBoundary :=
  fun _ _ => ⟨fun ⟨h1, h2, h⟩ => exec_pwide_reads h1 h2 h, exec_pwide_count,
    fun ⟨h1, h2, h⟩ => exec_pwide_end h1 h2 h⟩

/-! ### No partial advance (40_cursor.md R136) -/

/-- The answer of a primitive that reads `k` bits or raises. -/
def ReadsOrRaises (k : Nat) (s : State) (answer : Answer) : Prop :=
  answer = .next (s.readBits k) ∨ ∃ e, answer = .next (s.rawFailed e)

theorem ReadsOrRaises.cursor_kept {k : Nat} {s : State} {answer : Answer} (h : ReadsOrRaises k s answer) :
    ∃ t, answer = .next t ∧ (t.err ≠ none → t.bp = s.bp ∧ t.bo = s.bo) := by
  rcases h with h | ⟨e, h⟩
  · exact ⟨_, h, fun herr => absurd rfl herr⟩
  · exact ⟨_, h, fun _ => ⟨rfl, rfl⟩⟩

theorem ReadsOrRaises.eq_readBits {k : Nat} {s t : State} {answer : Answer} (h : ReadsOrRaises k s answer)
    (ht : answer = .next t) (herr : t.err = none) : t = s.readBits k := by
  rcases h with h | ⟨e, h⟩ <;> cases h.symm.trans ht
  · rfl
  · cases herr

theorem ReadsOrRaises.advances {k : Nat} {s t : State} {answer : Answer} (h : ReadsOrRaises k s answer)
    (ht : answer = .next t) (herr : t.err = none) : t.bitAddr = s.bitAddr + k := by
  rw [h.eq_readBits ht herr, readBits_bitAddr]

theorem exec_pbit_cases (c : BitVec 5) (s : State) : ReadsOrRaises 1 s (exec (.pbit c) s) := by
  rcases Nat.lt_or_ge s.bp s.len with h | h
  · exact .inl (exec_pbit_reads c h)
  · exact .inr ⟨_, exec_pbit_end c h⟩

theorem exec_pbits_cases (n : BitVec 5) (s : State) : ReadsOrRaises n.toNat s (exec (.pbits n) s) := by
  by_cases hcount : n.toNat = 0 ∨ 8 < n.toNat
  · exact .inr ⟨_, exec_pbits_count hcount⟩
  rcases Nat.lt_or_ge 8 (s.bo.val + n.toNat) with hspan | hspan
  · exact .inr ⟨_, exec_pbits_span (by omega) (by omega) hspan⟩
  rcases Nat.lt_or_ge s.bp s.len with h | h
  · exact .inl (exec_pbits_reads (by omega) hspan h)
  · exact .inr ⟨_, exec_pbits_end (by omega) hspan h⟩

theorem exec_pbyte_cases (c : BitVec 5) (s : State) : ReadsOrRaises 8 s (exec (.pbyte c) s) := by
  by_cases h0 : s.bo = 0
  · rcases Nat.lt_or_ge s.bp s.len with h | h
    · exact .inl (exec_pbyte_reads c h0 h)
    · exact .inr ⟨_, exec_pbyte_end c h0 h⟩
  · exact .inr ⟨_, exec_pbyte_unaligned c h0⟩

/-- `PWIDE n` raises unless it ends in the next byte and that byte is in the buffer. -/
theorem exec_pwide_raises_or_fits (n : BitVec 5) (s : State) :
    (∃ e, exec (.pwide n) s = .next (s.rawFailed e)) ∨
    (9 ≤ n.toNat + s.bo.val ∧ n.toNat + s.bo.val ≤ 16 ∧ s.bp + 1 < s.len) := by
  by_cases hcount : n.toNat + s.bo.val ≤ 8 ∨ 16 < n.toNat + s.bo.val
  · exact .inl ⟨_, exec_pwide_count hcount⟩
  rcases Nat.lt_or_ge (s.bp + 1) s.len with h | h
  · exact .inr ⟨by omega, by omega, h⟩
  · exact .inl ⟨_, exec_pwide_end (by omega) (by omega) h⟩

theorem exec_pwide_cases (n : BitVec 5) (s : State) : ReadsOrRaises n.toNat s (exec (.pwide n) s) := by
  rcases exec_pwide_raises_or_fits n s with h | ⟨h1, h2, h⟩
  · exact .inr h
  · exact .inl (exec_pwide_reads h1 h2 h)

/-- Settles O9: each primitive reads its bits or raises where it stands. -/
theorem primitivesNeverPartlyAdvance : Obligations.PrimitivesNeverPartlyAdvance := by
  refine fun n s => ⟨fun i hi => ?_, fun _ => (exec_pbit_cases n s).advances, fun _ => (exec_pbits_cases n s).advances,
    fun _ => (exec_pbyte_cases n s).advances, fun _ => (exec_pwide_cases n s).advances⟩
  simp only [List.mem_cons, List.not_mem_nil, or_false] at hi
  rcases hi with rfl | rfl | rfl | rfl
  · exact (exec_pbit_cases n s).cursor_kept
  · exact (exec_pbits_cases n s).cursor_kept
  · exact (exec_pbyte_cases n s).cursor_kept
  · exact (exec_pwide_cases n s).cursor_kept

/-! ### Reads side by side (40_cursor.md R133, R138) -/

/-- At a byte boundary `PBYTE` is `PBITS 8`. -/
theorem exec_pbyte_eq_pbits (c : BitVec 5) {s : State} (h0 : s.bo = 0) : exec (.pbyte c) s = exec (.pbits 8) s := by
  have hspan : s.bo.val + (8 : BitVec 5).toNat ≤ 8 := by rw [h0]; decide
  rcases Nat.lt_or_ge s.bp s.len with h | h
  · rw [exec_pbyte_reads c h0 h, exec_pbits_reads (by decide) hspan h]
    rfl
  · rw [exec_pbyte_end c h0 h, exec_pbits_end (by decide) hspan h]

/-- Settles O10: the first `PBITS` ends at the next byte's boundary, where the second one takes the bits left. -/
theorem wideReadsAreTwoReads : Obligations.WideReadsAreTwoReads := by
  refine ⟨fun s t n m k ht herr hm hk => ?_, fun s n h0 => exec_pbyte_eq_pbits n h0⟩
  rcases exec_pwide_raises_or_fits n s with ⟨e, h⟩ | ⟨h1, h2, h⟩
  · cases h.symm.trans ht
    cases herr
  have hb := s.bo.isLt
  have hsum : n.toNat = m.toNat + k.toNat := by omega
  obtain ⟨hbp, hbo⟩ := readBits_cursor (s := s) (n := m.toNat) (q := s.bp + 1) (r := 0)
    (by unfold State.bitAddr; omega) (by decide)
  have hfirst : exec (.pbits m) s = .next (s.readBits m.toNat) :=
    exec_pbits_reads (by omega) (by omega) (by omega)
  have hsecond : exec (.pbits k) (s.readBits m.toNat) = .next ((s.readBits m.toNat).readBits k.toNat) :=
    exec_pbits_reads (by omega) (by rw [hbo]; show 0 + k.toNat ≤ 8; omega) (by rw [hbp]; exact h)
  rw [(exec_pwide_cases n s).eq_readBits ht herr, hsum]
  exact ⟨_, _, hfirst, hsecond, rfl, rfl, readBits_readBits s (by omega)⟩

/-- Settles O11: the two reads side by side are the read of the whole byte. -/
theorem splitReadsRebuildTheByte : Obligations.SplitReadsRebuildTheByte := by
  intro s n m h0 h h1 h7 hm
  have haddr : s.bitAddr = 8 * s.bp := by rw [State.bitAddr, h0]; rfl
  have hsum : n.toNat + m.toNat = 8 := by omega
  obtain ⟨hbp, hbo⟩ := readBits_cursor (s := s) (n := n.toNat) (q := s.bp) (r := n.toNat) (by omega) (by omega)
  obtain ⟨hnext, hstart⟩ := readBits_cursor (s := s) (n := 8) (q := s.bp + 1) (r := 0) (by omega) (by decide)
  have hfirst : exec (.pbits n) s = .next (s.readBits n.toNat) :=
    exec_pbits_reads h1 (by rw [h0]; show 0 + n.toNat ≤ 8; omega) h
  have hsecond : exec (.pbits m) (s.readBits n.toNat) = .next ((s.readBits n.toNat).readBits m.toNat) :=
    exec_pbits_reads (by omega) (by rw [hbo]; show n.toNat + m.toNat ≤ 8; omega) (by rw [hbp]; exact h)
  obtain ⟨hval, hend, hbit⟩ := readBits_readBits s (n := n.toNat) (m := m.toNat) (by omega)
  rw [hsum] at hval hend hbit
  have hlow : ((s.readBits n.toNat).readBits m.toNat).rval.toNat < 2 ^ m.toNat := by
    rw [readBits_rval_toNat _ (by omega)]
    exact bitsAt_lt _ _ _
  refine ⟨_, _, hfirst, hsecond, ?_, hend.symm.trans hnext, hbit.symm.trans hstart, rfl, rfl⟩
  rw [← Nat.shiftLeft_eq, shift_or _ _ _ hlow, ← hval, readBits_rval_toNat s (by decide), haddr, bitsAt_whole_byte]

/-! ### The buffer byte by byte (40_cursor.md R134) -/

/-- The state after `k` bytes from a byte boundary were read by `PBYTE`: the last one is in `RVAL`. -/
def State.bytesRead (s : State) : Nat → State
  | 0 => s
  | k + 1 => { s with bp := s.bp + k + 1, rval := (s.memRead (s.bp + k)).setWidth 16, err := none, st := .doneOk }

/-- One byte and then `k` are `k + 1`. -/
theorem bytesRead_one_bytesRead (s : State) (k : Nat) : (s.bytesRead 1).bytesRead k = s.bytesRead (k + 1) := by
  cases k with
  | zero => rfl
  | succ k =>
    have hbp : s.bp + 1 + k = s.bp + (k + 1) := by omega
    simp only [State.bytesRead, State.memRead, Nat.add_zero, hbp]

/-- The state after `OPEN` (R131). -/
def State.opened (s : State) : State := { s with bp := 0, bo := 0, rval := 0, err := none, st := .doneOk }

/-- A sequence of instructions goes on from where its first one ended. -/
theorem execAll_cons_of_next {i : Instr} {rest : List Instr} {s t : State} (h : exec i s = .next t) :
    execAll (i :: rest) s = execAll rest t := by
  rw [execAll, h]

theorem execAll_replicate_pbyte (c : BitVec 5) {k : Nat} : ∀ {s : State}, s.bo = 0 → s.bp + k ≤ s.len →
    execAll (List.replicate k (.pbyte c)) s = .next (s.bytesRead k) := by
  induction k with
  | zero => exact fun _ _ => rfl
  | succ k ih =>
    intro s h0 hl
    obtain ⟨hread, -⟩ := pbyteReadsAnAlignedByte c s
    rw [List.replicate_succ, execAll_cons_of_next (t := s.bytesRead 1) (hread ⟨h0, by omega⟩),
      ih (s := s.bytesRead 1) h0 (show s.bp + 1 + k ≤ s.len by omega), bytesRead_one_bytesRead]

/-- Settles O12, by induction on the number of bytes. -/
theorem pbyteReadsTheBufferInOrder : Obligations.PbyteReadsTheBufferInOrder := by
  intro s k hk
  have hopen : exec (.openCur 0) s = .next s.opened := openRewindsTheCursor 0 s
  have hrun : execAll (List.replicate k (.pbyte 0)) s.opened = .next (s.opened.bytesRead k) :=
    execAll_replicate_pbyte 0 rfl (show 0 + k ≤ s.len by omega)
  refine ⟨_, (execAll_cons_of_next hopen).trans hrun, ?_⟩
  cases k with
  | zero => exact ⟨rfl, rfl, rfl, fun j hj => absurd hj (Nat.zero_ne_add_one j),
      fun hlen => exec_pbyte_end (s := s.opened) 0 rfl (Eq.ge hlen)⟩
  | succ k =>
    have hbp : (s.opened.bytesRead (k + 1)).bp = k + 1 := congrArg (· + 1) (Nat.zero_add k)
    refine ⟨hbp, rfl, rfl, fun j hj => ?_, fun hlen => exec_pbyte_end 0 rfl (hlen.ge.trans hbp.ge)⟩
    cases hj
    show (s.memRead (0 + k)).setWidth 16 = _
    rw [Nat.zero_add]

/-! ### The region at the cursor (40_cursor.md R140) -/

/-- Settles O41: what the decoder answers at the cursor is the instruction of the layout tables, whose fields are those
that the primitives read. -/
theorem decodedRegionsAreTheCursorsReads : Obligations.DecodedRegionsAreTheCursorsReads := by
  intro s op r i hs hf
  obtain ⟨h0, hl, rfl⟩ := fetchRegion_eq_instrAt hf
  exact exec_instrAt hs h0 hl

/-! ### Who writes which register (10_state.md R46) -/

/-- Only cursor commands write `RVAL` (R40). -/
theorem exec_rval {i : Instr} {s t : State}
    (hi : ∀ m, i ≠ .openCur m ∧ i ≠ .pbit m ∧ i ≠ .pbits m ∧ i ≠ .pbyte m ∧ i ≠ .pwide m)
    (h : exec i s = .next t) : t.rval = s.rval := by
  cases i with
  | openCur n | pbit n | pbits n | pbyte n | pwide n => exact absurd (hi n) (by simp)
  | hdr n => exact keeps_rval framed_hdrOp h
  | af n => exact keeps_rval framed_afOp h
  | afx n => exact keeps_rval framed_afxOp h
  | decode n =>
    rcases execDecode_cases n s with ⟨-, -, hn⟩ | ⟨-, -, -, hn⟩ | ⟨e, c, hn, -⟩ <;> cases hn.symm.trans h <;> rfl
  | tspNone g | tspPayload g | tspAf g | tspAfPayload g => exact keeps_rval (framed_region _ _ (framed_hdrGroup _)) h
  | afHead g => exact keeps_rval (framed_region _ _ (framed_afHeadGroup _)) h
  | afPcr v => exact keeps_rval (framed_region _ _ (framed_pcrGroup _)) h
  | afOpcr v => exact keeps_rval (framed_region _ _ (framed_opcrGroup _)) h
  | afSplice v => exact keeps_rval (framed_region _ _ (framed_splGroup _)) h
  | afPrivate v bytes => exact keeps_rval (framed_region _ _ (framed_tpdGroup _)) h
  | afxHead g => exact keeps_rval (framed_region _ _ (framed_afxHeadGroup _ _)) h
  | afxLtw v o => exact keeps_rval (framed_region _ _ (framed_ltwGroup _)) h
  | afxPwr q v => exact keeps_rval (framed_region _ _ (framed_pwrGroup _)) h
  | afxSms g => exact keeps_rval (framed_region _ _ (framed_smsGroup _)) h
  | _ n => cases h; rfl

/-- A header that is read moves the cursor and writes the header registers, and nothing else. -/
theorem hdrGroup_writes {o : Option (Tsh × Bool × Bool)} {s t : State} (h : hdrGroup o s = .ok () t) :
    ∃ c g afp plp, t = (s.seek c).putHdr g afp plp := by
  obtain ⟨c, hc, -⟩ := readHdr_seeks.given (v := o) s
  rw [hdrGroup, bind_apply] at h
  split at h
  · next v u hu =>
    rw [hu, endOf_ok] at hc
    subst hc
    cases h
    exact ⟨c, _, _, _, rfl⟩
  · cases h

theorem execHdr_latches {n : BitVec 5} {s t : State} (h : exec (.hdr n) s = .next t) (herr : t.err = none) :
    t.f = s.f := by
  rcases settleComposite_cases framed_hdrOp s with ⟨u, hu, hn, -⟩ | ⟨e, u, -, hn, -⟩ <;> cases hn.symm.trans h
  · rw [hdrOp, bind_ok (modify_apply _ _), bind_apply] at hu
    split at hu
    · next v w hw =>
      obtain ⟨c, g, afp, plp, rfl⟩ := hdrGroup_writes hw
      cases hu
      rfl
    · cases hu
  · cases herr

/-- `AF` started inside a byte is refused at its first read (60_exceptions.md R232). -/
theorem execAf_unaligned (n : BitVec 5) {s : State} (h0 : s.bo ≠ 0) :
    exec (.af n) s = .next (s.failedAt .notByteAligned (s.bp, s.bo)) := by
  have hhead : afHeadGroup none s.clearAf = .error .notByteAligned s.clearAf := by
    rw [afHeadGroup, Option.map_none, given_none, bind_error (pbyte_unaligned (s := s.clearAf) h0)]
  have hseq : afSeq s = .error .notByteAligned s.clearAf := by rw [afSeq, bind_ok (modify_apply _ _), bind_error hhead]
  have hop : afOp s = .error .notByteAligned s.clearAf := bind_error hseq
  exact settleComposite_error (t := s.clearAf) framed_afOp hop

/-- `AFX` started inside a byte is refused at its first read (60_exceptions.md R232). -/
theorem execAfx_unaligned (n : BitVec 5) {s : State} (h0 : s.bo ≠ 0) :
    exec (.afx n) s = .next (s.failedAt .notByteAligned (s.bp, s.bo)) := by
  have hhead : afxHeadGroup none none s.clearX = .error .notByteAligned s.clearX := by
    rw [afxHeadGroup, needWithin, bind_ok (pure_apply _ _), Option.map_none, given_none,
      bind_error (pbyte_unaligned (s := s.clearX) h0)]
  have hseq : afxSeq none s = .error .notByteAligned s.clearX := by
    rw [afxSeq, bind_ok (modify_apply _ _), bind_error hhead]
  have hop : afxOp s = .error .notByteAligned s.clearX := bind_error hseq
  exact settleComposite_error (t := s.clearX) framed_afxOp hop

/-- The state that a stand-alone `AFX` has reached when its extension is read: group X written, `AFX_V` set. -/
def State.afterExtension (s : State) : State :=
  { s.extAt (s.fieldEnd s.bp) (s.layoutX s.bp) with a := { s.a with afxV := true } }

/-- `AFX` from a byte boundary in its two outcomes: the extension fits and its layout is committed, or an error is
taken. -/
theorem execAfx_cases (n : BitVec 5) {s : State} (h0 : s.bo = 0) :
    (s.extFits s.bp = true ∧ exec (.afx n) s = .next s.afterExtension.finish) ∨
    ∃ e c, exec (.afx n) s = .next (s.failedAt e c) := by
  have hlimit : Within none (s.fieldEnd s.bp) := fun _ k => nomatch k
  have hfits : s.extFits s.bp = true ↔ s.padAt s.bp ≤ s.fieldEnd s.bp ∧ s.fieldEnd s.bp ≤ s.len := by
    rw [State.extFits, State.extHolds, Bool.and_eq_true, decide_eq_true_eq, decide_eq_true_eq]
  by_cases hf : s.extFits s.bp = true
  · obtain ⟨hpad, hl⟩ := hfits.mp hf
    exact .inl ⟨hf, settleComposite_ok (bind_ok (afxSeq_ok h0 hpad hlimit hl))⟩
  · obtain ⟨t, ⟨he, -⟩ | ⟨he, -⟩⟩ := afxSeq_error (limit := none) h0 (fun _ k => nomatch k)
      (fun ⟨hpad, _, hl⟩ => hf (hfits.mpr ⟨hpad, hl⟩))
    · exact .inr ⟨_, _, settleComposite_error framed_afxOp (bind_error he)⟩
    · exact .inr ⟨_, _, settleComposite_error framed_afxOp (bind_error he)⟩

theorem execAf_groupP {n : BitVec 5} {s t : State} (h : exec (.af n) s = .next t) (herr : t.err = none) :
    t.p = { s.p with afV := true } := by
  by_cases h0 : s.bo = 0
  · obtain ⟨-, rfl⟩ := execAf_committed h0 h herr
    rfl
  · cases (execAf_unaligned n h0).symm.trans h
    cases herr

theorem execAfx_groups {n : BitVec 5} {s t : State} (h : exec (.afx n) s = .next t) (herr : t.err = none) :
    t.p = s.p ∧ t.a = { s.a with afxV := true } ∧ t.f = s.f := by
  by_cases h0 : s.bo = 0
  · rcases execAfx_cases n h0 with ⟨-, hn⟩ | ⟨e, c, hn⟩ <;> cases hn.symm.trans h
    · exact ⟨rfl, rfl, rfl⟩
    · cases herr
  · cases (execAfx_unaligned n h0).symm.trans h
    cases herr

/-- Settles O54: the primitives only move the cursor, and each composite operation ends in its layout or in an error. -/
theorem instructionsWriteTheirOwnRegisters : Obligations.InstructionsWriteTheirOwnRegisters := by
  refine fun n s t => ⟨fun i hi h => ?_, fun _ => exec_rval, execHdr_latches, execAf_groupP, execAfx_groups⟩
  simp only [List.mem_cons, List.not_mem_nil, or_false] at hi
  rcases hi with rfl | rfl | rfl | rfl | rfl
  · exact settleRaw_keeps (v := fun _ => 0) rewind_seek h
  · exact settleRaw_keeps pbit_seek h
  · exact settleRaw_keeps (pbits_seek n.toNat) h
  · exact settleRaw_keeps pbyte_seek h
  · exact settleRaw_keeps (pwide_seek n.toNat) h

end Sys2Proof.Machine

/-! # The packet decoder (O14, O15, O25, O26, O29, O30, O31, O33) -/

namespace Sys2Proof.Machine

/-! ### The header alone (41_packet_decoder.md R161) -/

/-- The state in which a stand-alone `HDR` ends when its four bytes are there. -/
def State.headerExtracted (s : State) : State :=
  { s.clearGroups with bp := s.bp + 4, bo := 0, p := s.layoutP s.bp }

theorem execHdr_ok (n : BitVec 5) {s : State} (h0 : s.bo = 0) (hl : s.bp + 4 ≤ s.len) :
    exec (.hdr n) s = .next s.headerExtracted.finish := by
  have hread : hdrGroup none s.clearGroups = .ok () s.headerExtracted := hdrGroup_ok (s := s.clearGroups) h0 hl
  have hop : hdrOp s = .ok () s.headerExtracted.finish := by
    rw [hdrOp, bind_ok (modify_apply _ _), bind_ok hread]
    rfl
  exact settleComposite_ok hop

/-- Settles O14: the nine reads give the layout's group P, over cleared groups A and X. -/
theorem hdrExtractsTheHeader : Obligations.HdrExtractsTheHeader := by
  intro n s h0 hl
  rw [execHdr_ok n h0 hl, State.headerExtracted, ← h0]
  rfl

theorem execHdr_short (n : BitVec 5) {s : State} (h0 : s.bo = 0) (hl : s.len < s.bp + 4) :
    exec (.hdr n) s = .next (s.failedAt .outOfData (cutAt .tsh s.bp s.len)) := by
  have hread : hdrGroup none s.clearGroups = .error .outOfData (s.clearGroups.seek (cutAt .tsh s.bp s.len)) :=
    hdrGroup_short (s := s.clearGroups) h0 hl none
  have hop : hdrOp s = .error .outOfData (s.clearGroups.seek (cutAt .tsh s.bp s.len)) := by
    rw [hdrOp, bind_ok (modify_apply _ _), bind_error hread]
  exact settleComposite_error framed_hdrOp hop

/-- A header that lacks its third byte is cut at the read of the PID. -/
theorem cutAt_tsh_pid (o : Nat) : cutAt .tsh o (o + 2) = (o + 1, 3) := if_pos rfl

/-- Any other header is cut at the end of the buffer, or where it starts if that is later. -/
theorem cutAt_tsh {o len : Nat} (h : len ≠ o + 2) : cutAt .tsh o len = (max o len, 0) := if_neg h

/-- Settles O15: a header cut short raises at its first read that lacks a byte. -/
theorem hdrCutShortFails : Obligations.HdrCutShortFails := by
  intro n s h0
  have hcut : ∀ len, s.len = len → len < s.bp + 4 →
      exec (.hdr n) s = .next (s.failedAt .outOfData (cutAt .tsh s.bp len)) :=
    fun len h hl => h ▸ execHdr_short n h0 (h ▸ hl)
  refine ⟨fun h => ?_, fun h => ?_, fun h => ?_, fun h => ?_⟩
  · rw [hcut s.len rfl (by omega), cutAt_tsh (by omega), Nat.max_eq_left h]
  · rw [hcut _ h (by omega), cutAt_tsh (by omega), Nat.max_eq_right (by omega)]
  · rw [hcut _ h (by omega), cutAt_tsh_pid]
  · rw [hcut _ h (by omega), cutAt_tsh (by omega), Nat.max_eq_right (by omega)]

/-! ### The packet (R162 to R164, R168) -/

/-- The end of a packet, from a state in which no payload is named: `PL_V` takes the value of `PLP`. -/
theorem packetEnded_decode_eq {t : State} {q : GroupP} (hp : t.p = { q with plV := false, plOff := 0, plLen := 0 }) :
    t.packetEnded .decode =
      { t with
        p := { q with
          plV := q.plp, plOff := if q.plp then t.bp else 0, plLen := if q.plp then t.len - t.bp else 0 }
        st := .doneOk, err := none, afEnd := 0, afxEnd := 0, seq := none } := by
  have hflag : t.p.plp = q.plp := by rw [hp]
  have hended : (t.packetEnded .decode).p = { q with
      plV := q.plp, plOff := if q.plp then t.bp else 0, plLen := if q.plp then t.len - t.bp else 0 } := by
    rcases Bool.eq_false_or_eq_true q.plp with hplp | hplp
    · rw [packetEnded_p_of_plp (hflag.trans hplp), hp, hplp]
      rfl
    · rw [packetEnded_p_of_not_plp (hflag.trans hplp), hp, hplp]
      rfl
  rw [← hended]
  rfl

theorem afterHeader_ended (s : State) : s.afterHeader.packetEnded .decode =
    { s.afterHeader with
      p := { s.layoutP 0 with
        plV := (s.layoutP 0).plp, plOff := if (s.layoutP 0).plp then 4 else 0,
        plLen := if (s.layoutP 0).plp then s.len - 4 else 0 }
      st := .doneOk, err := none, afEnd := 0, afxEnd := 0, seq := none } :=
  packetEnded_decode_eq (t := s.afterHeader) (q := s.layoutP 0) rfl

theorem afterHeaderAndField_ended (s : State) : s.afterHeaderAndField.packetEnded .decode =
    { s.afterHeaderAndField with
      p := { s.layoutP 0 with
        afV := true, plV := (s.layoutP 0).plp, plOff := if (s.layoutP 0).plp then s.fieldEnd 4 else 0,
        plLen := if (s.layoutP 0).plp then s.len - s.fieldEnd 4 else 0 }
      st := .doneOk, err := none, afEnd := 0, afxEnd := 0, seq := none } :=
  packetEnded_decode_eq (t := s.afterHeaderAndField) (q := { s.layoutP 0 with afV := true }) rfl

/-- Settles O25: after the header, or after the header and its field, the end of the packet names the payload. -/
theorem decodeDecodesThePacket : Obligations.DecodeDecodesThePacket := by
  intro n s hl hfits h start
  cases ha : (s.layoutP 0).afp with
  | false =>
    have hexec : exec (.decode n) s = .next _ := settleComposite_ok (decodeOp_plain hl ha)
    rw [hexec, afterHeader_ended]
    simp only [start, h, ha, Bool.false_eq_true, if_false]
    rfl
  | true =>
    have hexec : exec (.decode n) s = .next _ := settleComposite_ok (decodeOp_field hl ha (hfits ha))
    rw [hexec, afterHeaderAndField_ended]
    simp only [start, h, ha, if_true]
    rfl

/-- Settles O26: the header is cut short, or it is all there and its field fails. -/
theorem decodeRejectsOtherPackets : Obligations.DecodeRejectsOtherPackets := by
  intro n s
  refine ⟨fun hl => ?_, fun hl ha hf => ?_⟩
  · have hcut : cutAt .tsh 0 s.len = if s.len = 2 then (1, 3) else (s.len, 0) := by
      rw [cutAt, Nat.zero_max]
    obtain ⟨hn, -⟩ := execDecode_error n (decodeOp_short hl)
    rw [← hcut]
    exact hn
  · obtain ⟨t, ⟨he, hc, hstop, hholds⟩ | ⟨he, hc, hstop, hend⟩⟩ := decodeOp_badField hl ha hf
    · obtain ⟨hn, -⟩ := execDecode_error n he
      rw [hc] at hn
      refine ⟨fun _ => hn, fun k => ?_⟩
      rcases k with hh | hlt
      · rw [hholds] at hh; cases hh
      · exact absurd hstop (Nat.not_le.mpr hlt)
    · obtain ⟨hn, -⟩ := execDecode_error n he
      rw [hc] at hn
      exact ⟨fun ⟨hh, hle⟩ => absurd hle (Nat.not_le.mpr (hstop hh)), fun _ => ⟨hend, hn⟩⟩

/-! ### The result as a record (R166) -/

theorem present_isSome {α : Type} (v : Bool) (x : α) : (present v x).isSome = v := by
  cases v <;> rfl

theorem present_eq_some {α : Type} {v : Bool} {x y : α} : present v x = some y ↔ v = true ∧ x = y := by
  cases v <;> simp [present]

/-- A successful `DECODE` ends just past the header, or just past the adaptation field if there is one. -/
theorem execDecode_bp {n : BitVec 5} {s t : State} (h : exec (.decode n) s = .next t) (herr : t.err = none) :
    t.bp = match t.packetRecord.adaptationField with
      | some field => 5 + field.fieldLength.toNat
      | none => 4 := by
  obtain ⟨-, ⟨-, rfl⟩ | ⟨-, -, rfl⟩⟩ := execDecode_committed h herr
  · rw [afterHeader_ended]
    rfl
  · rw [afterHeaderAndField_ended]
    exact fieldEnd_eq_afl s 4

/-- Settles O29: the valid bits of the record are the flags, and the payload reaches from the cursor to the end. -/
theorem decodeReturnsThePacket : Obligations.DecodeReturnsThePacket := by
  intro n s t h
  obtain ⟨hdata, hlen, -⟩ := exec_keeps h
  refine ⟨fun e he => by rw [State.result, he], fun herr => ?_⟩
  obtain ⟨hdecode, -⟩ := presenceFollowsTheHeader n s t
  obtain ⟨haf, hpl⟩ := hdecode h herr
  refine ⟨t.packetRecord, by rw [State.result, herr], (present_isSome _ _).trans haf, (present_isSome _ _).trans hpl, ?_⟩
  intro bytes hbytes start
  obtain ⟨hplV, hpayload⟩ := present_eq_some.mp hbytes
  obtain ⟨-, -, -, -, -, -, -, -, hreach, -⟩ := presenceFollowsTheFlags n s t h herr
  obtain ⟨hend, hoff⟩ := hreach hplV
  have hstart : t.p.plOff = start := hoff.trans (execDecode_bp h herr)
  have hcount : t.p.plLen = s.len - start := by omega
  refine ⟨by omega, ?_⟩
  rw [← hpayload, hstart, hcount, bytesAt_eq_map]
  exact List.map_congr_left fun k _ => State.memRead_of_data hdata (start + k)

/-! ### Staged decoding (95_test_vectors.md P8) -/

theorem State.fieldFits_of_data {s t : State} (h : t.data = s.data) (hl : t.len = s.len) (o : Nat) :
    t.fieldFits o = s.fieldFits o := by
  simp only [State.fieldFits, State.fieldHolds_of_data h, State.fieldEnd_of_data h, hl]

theorem execAf_ok (n : BitVec 5) {s : State} (h0 : s.bo = 0) (hf : s.fieldFits s.bp = true) :
    exec (.af n) s = .next s.afterField.finish := by
  simp only [State.fieldFits, Bool.and_eq_true, decide_eq_true_eq] at hf
  obtain ⟨hholds, hend⟩ := hf
  exact settleComposite_ok (bind_ok (afSeq_ok h0 hholds hend))

/-- From a state that holds the packet and its header, the cursor past the header, `AF` ends as `DECODE` does but for the
payload. -/
theorem execAf_after_header (n : BitVec 5) {s u : State} (hd : u.data = s.data) (hl : u.len = s.len) (hbp : u.bp = 4)
    (h0 : u.bo = 0) (hp : u.p = s.layoutP 0) (hf : s.fieldFits 4 = true) :
    exec (.af n) u = .next { s.afterHeaderAndField.finish with rval := u.rval, script := u.script } := by
  have hfits : u.fieldFits u.bp = true := by rw [hbp, State.fieldFits_of_data hd hl, hf]
  rw [execAf_ok n h0 hfits]
  simp only [State.finish, State.leaveSequencer, State.afterField, State.fieldAt, hd, hl, hbp, hp,
    State.fieldEnd_of_data hd, State.layoutA_of_data hd, State.layoutAX_of_data hd, State.layoutF_of_data hd]
  rfl

/-- Settles O30: `OPEN` and `HDR` bring `AF` to the field that `DECODE` reads, and name no payload after it. -/
theorem stagedDecodeAgrees : Obligations.StagedDecodeAgrees := by
  intro s t h herr hafp
  obtain ⟨hl, ⟨hplain, rfl⟩ | ⟨-, hfits, rfl⟩⟩ := execDecode_committed h herr
  · rw [afterHeader_ended] at hafp
    cases hplain.symm.trans hafp
  · have hopen : exec (.openCur 0) s = .next s.opened := openRewindsTheCursor 0 s
    have hhdr : exec (.hdr 0) s.opened = .next s.opened.headerExtracted.finish :=
      execHdr_ok 0 rfl (show 0 + 4 ≤ s.len by omega)
    have hp : s.opened.headerExtracted.finish.p = s.layoutP 0 := State.layoutP_of_data (t := s.opened) rfl 0
    have haf := execAf_after_header 0 (s := s) (u := s.opened.headerExtracted.finish) rfl rfl rfl rfl hp hfits
    rw [execAll_cons_of_next hopen, execAll_cons_of_next hhdr, execAll_cons_of_next haf, afterHeaderAndField_ended]
    rfl

/-! ### Nothing of the last packet (R165) -/

/-- What `DECODE` does not see of a state beyond its packet: `ST`, `ERR`, `RVAL`, the host's program and what the
sequencer has left. -/
def State.hidden (s : State) : Hidden :=
  { data := s.data, st := s.st, err := s.err, rval := s.rval, seq := s.seq, script := s.script,
    afEnd := some s.afEnd, afxEnd := some s.afxEnd }

theorem State.under_finish (k : Hidden) (t : State) :
    (t.under k).finish = { t.finish with data := k.data, rval := k.rval, script := k.script } := rfl

theorem State.under_takeError (k : Hidden) (e : DecodeError) (t : State) :
    (t.under k).takeError .composite e =
      { t.takeError .composite e with data := k.data, rval := k.rval, script := k.script } := rfl

/-- Once everything is cleared and the cursor is rewound, two states with the same packet differ in what is hidden from
`DECODE`. -/
theorem cleared_eq_under {s s' : State} (hl : s'.len = s.len) :
    s'.clearAll.seek (0, 0) = (s.clearAll.seek (0, 0)).under s'.hidden := by
  simp only [State.seek, State.clearAll, State.under, State.hidden, hl, Option.getD_some]

/-- `DECODE` in two states with the same packet: the outcomes differ in `RVAL` and in the host's program. -/
theorem execDecode_congr (n m : BitVec 5) {s s' t : State} (hd : s'.data = s.data) (hl : s'.len = s.len)
    (h : exec (.decode n) s = .next t) :
    exec (.decode m) s' = .next { t with rval := s'.rval, script := s'.script } := by
  have hagree : Agrees s'.hidden.data (s.clearAll.seek (0, 0)) := fun a _ => congrArg (Memory.read · a) hd
  obtain ⟨hok, herr⟩ := forgets_decodeBody.same s'.hidden (s.clearAll.seek (0, 0)) trivial hagree
  have hdata : t.data = s'.data := (exec_keeps h).data.trans hd.symm
  have hrun : settleComposite decodeOp s = .next t := h
  show settleComposite decodeOp s' = _
  rw [decode_body] at hrun ⊢
  rw [cleared_eq_under hl]
  split at hrun
  · next u hu =>
    obtain ⟨x, y, -, hu'⟩ := hok _ _ hu
    cases hrun
    rw [hu', hdata]
    exact congrArg Host.Outcome.next (State.under_finish _ u)
  · next e u hu =>
    obtain ⟨x, y, hu'⟩ := herr _ _ hu
    cases hrun
    rw [hu', hdata]
    exact congrArg Host.Outcome.next (State.under_takeError _ e u)

/-- Settles O31: what `DECODE` reads after clearing everything depends on the packet alone. -/
theorem decodeForgetsTheLastPacket : Obligations.DecodeForgetsTheLastPacket := by
  intro n m s s' t t' hd hl h h'
  cases h'.symm.trans (execDecode_congr n m hd hl h)
  rfl

/-! ### Commit or failure (R168, 60_exceptions.md R241, R242) -/

/-- A part of an operation whose success ends the operation with `ST` DONE_OK and no error. -/
def Commits (m : Op Unit) : Prop := ∀ s t, m s = .ok () t → t.st = .doneOk ∧ t.err = none

theorem Commits.bind {α : Type} {m : Op α} {g : α → Op Unit} (h : ∀ v, Commits (g v)) : Commits (m >>= g) := by
  intro s t e
  rw [bind_apply] at e
  split at e
  · exact h _ _ _ e
  · cases e

theorem finishOp_commits : Commits finishOp := by
  intro s t h
  cases h
  exact ⟨rfl, rfl⟩

/-- How a composite operation started in `s` ends in `t`: it has committed, or it has failed with the cursor inside the
buffer and not before where it started. -/
def CommittedOrFailed (s t : State) : Prop :=
  (t.st = .doneOk ∧ t.err = none ∧ t.rval = s.rval) ∨
    ∃ e c, t = s.failedAt e c ∧ c.1 ≤ s.len ∧ s.bitAddr ≤ 8 * c.1 + c.2.val

theorem settleComposite_committed_or_failed {m : Op Unit} (hframe : Framed m) (hcommits : Commits m) {s : State}
    (hs : CursorOk s) : ∃ t, settleComposite m s = .next t ∧ CommittedOrFailed s t := by
  obtain ⟨hinside, -⟩ := hs
  rcases settleComposite_cases hframe s with ⟨t, ht, hn, hf⟩ | ⟨e, t, -, hn, hf⟩
  · obtain ⟨hst, herr⟩ := hcommits s t ht
    exact ⟨t, hn, .inl ⟨hst, herr, hf.rval⟩⟩
  · exact ⟨_, hn, .inr ⟨e, _, rfl, hf.len ▸ hf.inside hinside, hf.forward⟩⟩

/-- The bound below the cursor is needed only where the operation starts at the cursor. -/
theorem CommittedOrFailed.bound_if {s t : State} (h : CommittedOrFailed s t) (atCursor : Prop) :
    (t.st = .doneOk ∧ t.err = none ∧ t.rval = s.rval) ∨
      ∃ e c, t = s.failedAt e c ∧ c.1 ≤ s.len ∧ (atCursor → s.bitAddr ≤ 8 * c.1 + c.2.val) :=
  h.imp_right fun ⟨e, c, ht, hl, hle⟩ => ⟨e, c, ht, hl, fun _ => hle⟩

theorem hdrOp_commits : Commits hdrOp := .bind fun _ => .bind fun _ => finishOp_commits

theorem afOp_commits : Commits afOp := .bind fun _ => finishOp_commits

theorem afxOp_commits : Commits afxOp := .bind fun _ => .bind fun _ => finishOp_commits

/-- What `DECODE` does once everything is cleared and the cursor is rewound commits at its end. -/
theorem decodeTail_commits : Commits (do hdrGroup none; onFlag (·.p.afp) afSeq; onFlag (·.p.plp) payload; finishOp) :=
  .bind fun _ => .bind fun _ => .bind fun _ => finishOp_commits

/-- `DECODE` ends as an operation that starts at the first bit, whatever the cursor was. -/
theorem execDecode_committed_or_failed (n : BitVec 5) (s : State) :
    ∃ t, exec (.decode n) s = .next t ∧ CommittedOrFailed (s.clearAll.seek (0, 0)) t := by
  have hstart : CursorOk (s.clearAll.seek (0, 0)) := ⟨Nat.zero_le _, fun k => absurd rfl k⟩
  obtain ⟨t, hn, ht⟩ := settleComposite_committed_or_failed framed_decodeTail decodeTail_commits hstart
  rw [settleComposite, ← decodeOp_eq_tail] at hn
  exact ⟨t, hn, ht⟩

/-- Settles O33: each composite operation is framed and commits at its end. -/
theorem compositesCommitOrClear : Obligations.CompositesCommitOrClear := by
  intro n s hs i hi
  simp only [List.mem_cons, List.not_mem_nil, or_false] at hi
  rcases hi with rfl | rfl | rfl | rfl
  · obtain ⟨t, hn, ht⟩ := settleComposite_committed_or_failed framed_hdrOp hdrOp_commits hs
    exact ⟨t, hn, ht.bound_if _⟩
  · obtain ⟨t, hn, ht⟩ := settleComposite_committed_or_failed framed_afOp afOp_commits hs
    exact ⟨t, hn, ht.bound_if _⟩
  · obtain ⟨t, hn, ht⟩ := settleComposite_committed_or_failed framed_afxOp afxOp_commits hs
    exact ⟨t, hn, ht.bound_if _⟩
  · obtain ⟨t, hn, ht⟩ := execDecode_committed_or_failed n s
    exact ⟨t, hn, ht.imp_right fun ⟨e, c, ht, hl, _⟩ => ⟨e, c, ht, hl, fun k => absurd rfl k⟩⟩

end Sys2Proof.Machine

/-! # The adaptation field and its regions (O18, O19, O20, O35, O36, O37, O40) -/

namespace Sys2Proof.Machine

/-! ### The order of the regions (42_adaptation_field.md R182, 43_af_extension.md R220) -/

/-- The first region of a list, in wire order, whose flag is set. -/
def firstFlagged (groups : List (Region × Bool)) : Option Region := (groups.find? (·.2)).map (·.1)

@[simp] theorem firstFlagged_nil : firstFlagged [] = none := rfl

@[simp] theorem firstFlagged_cons (r : Region) (flag : Bool) (later : List (Region × Bool)) :
    firstFlagged ((r, flag) :: later) = if flag then some r else firstFlagged later := by
  cases flag <;> rfl

/-- After the head (`k = 0`) and after each group, the field goes on with the groups from place `k` on. -/
theorem nextRegion_in_field (op : Composite) (s : State) {k : Nat} {r : Region}
    (h : [Region.afHead, .pcr, .opcr, .spl, .tpd][k]? = some r) :
    nextRegion op r s = firstFlagged
      ([(Region.pcr, s.f.pcr), (.opcr, s.f.opcr), (.spl, s.f.spl), (.tpd, s.f.tpd), (.afxHead, s.f.afx)].drop k) := by
  match k, h with
  | 0, rfl => simp [nextRegion, Latches.fromPcr, Latches.fromOpcr, Latches.fromSpl, Latches.fromTpd, Latches.fromAfx]
  | 1, rfl => simp [nextRegion, Latches.fromOpcr, Latches.fromSpl, Latches.fromTpd, Latches.fromAfx]
  | 2, rfl => simp [nextRegion, Latches.fromSpl, Latches.fromTpd, Latches.fromAfx]
  | 3, rfl => simp [nextRegion, Latches.fromTpd, Latches.fromAfx]
  | 4, rfl => simp [nextRegion, Latches.fromAfx]

/-- The same for the extension. -/
theorem nextRegion_in_extension (op : Composite) (s : State) {k : Nat} {r : Region}
    (h : [Region.afxHead, .ltw, .pwr, .sms][k]? = some r) :
    nextRegion op r s = firstFlagged ([(Region.ltw, s.x.ltwf), (.pwr, s.x.pwrf), (.sms, s.x.smsf)].drop k) := by
  match k, h with
  | 0, rfl => simp [nextRegion, GroupX.fromLtw, GroupX.fromPwr, GroupX.fromSms]
  | 1, rfl => simp [nextRegion, GroupX.fromPwr, GroupX.fromSms]
  | 2, rfl => simp [nextRegion, GroupX.fromSms]
  | 3, rfl => simp [nextRegion]

/-- After the header comes the adaptation field, under `DECODE` with `AFP` set (30_encoding.md R92). -/
theorem nextRegion_after_header (op : Composite) (s : State) :
    nextRegion op .tsh s = some .afHead ↔ op = .decode ∧ s.p.afp = true := by
  simp [nextRegion]

/-- Settles O40: from place `k` on, the first flagged group of the field and of the extension. -/
theorem regionsFollowInWireOrder : Obligations.RegionsFollowInWireOrder := by
  intro op s field ext
  exact ⟨fun _ _ => nextRegion_in_field op s, fun _ _ => nextRegion_in_extension op s, nextRegion_after_header op s⟩

/-! ### The field as one operation (42_adaptation_field.md R182 to R193) -/

/-- Settles O18: the reads of a field that fits leave its layout, and the end of `AF` the rest. -/
theorem afDecodesTheField : Obligations.AfDecodesTheField := by
  intro n s h0 hf
  rw [execAf_ok n h0 hf, State.afterField, State.fieldAt, ← h0]
  rfl

/-- An error of the reads of the field is the error of `AF`. -/
theorem execAf_error (n : BitVec 5) {s t : State} {e : DecodeError} (h : afSeq s = .error e t) :
    exec (.af n) s = .next (s.failedAt e (t.bp, t.bo)) :=
  settleComposite_error framed_afOp (bind_error h)

/-- Settles O19: of the two ways in which the reads of a field that does not fit fail, each excludes the other's
premise. -/
theorem afRejectsOtherFields : Obligations.AfRejectsOtherFields := by
  intro n s h0 hf
  have hbad : ¬(s.fieldHolds s.bp = true ∧ s.fieldEnd s.bp ≤ s.len) := by
    simpa [State.fieldFits] using hf
  obtain ⟨t, ⟨he, hc, hstop, hholds⟩ | ⟨he, hc, hstop, hend⟩⟩ := afSeq_error h0 hbad
  · have hn := execAf_error n he
    rw [hc] at hn
    exact ⟨fun _ => hn, fun k => k.elim (fun hh => absurd hh hholds) fun hlt => absurd hstop (Nat.not_le.mpr hlt)⟩
  · have hn := execAf_error n he
    rw [hc] at hn
    exact ⟨fun ⟨hh, hle⟩ => absurd hle (Nat.not_le.mpr (hstop (Bool.eq_false_iff.mp hh))), fun _ => ⟨hend, hn⟩⟩

/-- Settles O20: the head raises at the budget check of its flags byte. -/
theorem zeroFieldLengthOverruns : Obligations.ZeroFieldLengthOverruns := by
  intro n s h0 hl hz
  have hlen : (s.memRead s.bp).toNat = 0 := by rw [hz]; rfl
  have hhead : afHeadGroup none s.clearAf = .error .adaptationFieldOverrun (s.clearAf.seek (s.bp + 1, 0)) :=
    afHeadGroup_zero (s := s.clearAf) h0 hl hlen
  have hseq : afSeq s = .error .adaptationFieldOverrun (s.clearAf.seek (s.bp + 1, 0)) := by
    rw [afSeq, bind_ok (modify_apply _ _), bind_error hhead]
  exact execAf_error n hseq

/-! ### Regions that do not fit their budget (42_adaptation_field.md R181, R191; 43_af_extension.md R212, R213) -/

/-- Private data whose length byte fits the budget and whose bytes do not. -/
theorem tpdGroup_given_overrunBytes {s : State} {n : Byte} {bytes : List Byte} (h0 : s.bo = 0) (hl : s.bp < s.len)
    (hb : s.bp + 1 ≤ s.afEnd) (h : s.afEnd < s.bp + 1 + n.toNat) :
    tpdGroup (some (n, bytes)) s = .error .adaptationFieldOverrun (s.seek (s.bp + 1, 0)) := by
  rw [tpdGroup, bind_ok (show needAf 1 s = _ from need_fits hb), Option.map_some,
    bind_ok (given_ok (pbyte_ok h0 hl)), needAf_overrun (by simpa using h)]

/-- Settles O35: each group's budget check is its first operation, and that of the private bytes follows their length. -/
theorem groupsOverBudgetAreNotRead : Obligations.GroupsOverBudgetAreNotRead := by
  intro s
  refine ⟨fun h v => ⟨?_, ?_⟩, fun h c n bytes => ⟨?_, ?_⟩, fun h0 hl hb n bytes h => ?_, fun h v o => ?_,
    fun h q v => ?_, fun h f => ?_⟩
  · exact runRegion_error (pcrGroup_overrun h _) (Frame.refl s)
  · exact runRegion_error (opcrGroup_overrun h _) (Frame.refl s)
  · exact runRegion_error (splGroup_overrun h _) (Frame.refl s)
  · exact runRegion_error (tpdGroup_overrun h _) (Frame.refl s)
  · have hread := tpdGroup_given_overrunBytes (bytes := bytes) h0 hl hb h
    exact runRegion_error hread ((framed_tpdGroup _).error hread)
  · exact runRegion_error (ltwGroup_overrun h _) (Frame.refl s)
  · exact runRegion_error (pwrGroup_overrun h _) (Frame.refl s)
  · exact runRegion_error (smsGroup_overrun h _) (Frame.refl s)

/-- `field_length == 0` in a head that the decoder has read. -/
theorem afHeadGroup_given_zero {s : State} {h : AfHead} (h0 : s.bo = 0) (hl : s.bp < s.len) (hz : h.len = 0) :
    afHeadGroup (some h) s = .error .adaptationFieldOverrun (s.seek (s.bp + 1, 0)) := by
  rw [afHeadGroup, Option.map_some, bind_ok (given_ok (pbyte_ok h0 hl)),
    bind_ok (show endAfter h.len (s.seek (s.bp + 1, 0)) = .ok _ _ from rfl),
    bind_error (given_error (readAfFlags_overrun (by simp [hz])))]

/-- An extension whose end passes the limit, in a head that the decoder has read. -/
theorem afxHeadGroup_given_tooLong {s : State} {stop : Nat} {h : AfxHead} (h0 : s.bo = 0) (hl : s.bp < s.len)
    (hb : s.bp + 1 ≤ stop) (hlong : stop < s.bp + 1 + h.len.toNat) :
    afxHeadGroup (some h) (some stop) s = .error .adaptationFieldOverrun (s.seek (s.bp + 1, 0)) := by
  have hend : extensionEnd h.len (some stop) (s.seek (s.bp + 1, 0)) =
      .error .adaptationFieldOverrun (s.seek (s.bp + 1, 0)) := if_pos hlong
  rw [afxHeadGroup, bind_ok (needWithin_ok (fun _ e => by cases e; exact hb)), Option.map_some,
    bind_ok (given_ok (pbyte_ok h0 hl)), bind_error hend]

/-- An extension of length 0, in a head that the decoder has read. -/
theorem afxHeadGroup_given_zero {s : State} {limit : Option Nat} {h : AfxHead} (h0 : s.bo = 0) (hl : s.bp < s.len)
    (hw : Within limit (s.bp + 1)) (hz : h.len = 0) :
    afxHeadGroup (some h) limit s = .error .adaptationFieldOverrun (s.seek (s.bp + 1, 0)) := by
  have hend : Within limit ((s.seek (s.bp + 1, 0)).bp + h.len.toNat) := by simpa [hz] using hw
  rw [afxHeadGroup, bind_ok (needWithin_ok hw), Option.map_some, bind_ok (given_ok (pbyte_ok h0 hl)),
    bind_ok (extensionEnd_ok hend), bind_error (given_error (readAfxFlags_overrun (by simp [hz])))]

/-- Inside an adaptation field the limit of an extension is `AF_END` (43_af_extension.md R210). -/
theorem limit_of_ne_afx {s : State} {op : Composite} (h : op ≠ .afx) : s.limit op = some s.afEnd := if_neg h

/-- Settles O36: the heads raise at the budget check of their flags byte, and at the limit of the extension. -/
theorem headsCheckTheirLengths : Obligations.HeadsCheckTheirLengths := by
  intro s h0
  refine ⟨fun hl h hz => ?_, fun hop hb h => ?_, fun hop hl hb h hlong => ?_, fun hl hroom h hz => ?_⟩
  · have hread := afHeadGroup_given_zero h0 hl hz
    exact runRegion_error hread ((framed_afHeadGroup _).error hread)
  · have hread : afxHeadGroup (some h) (s.limit (s.running .afx)) s = .error .adaptationFieldOverrun s := by
      rw [limit_of_ne_afx hop, afxHeadGroup_noRoom hb]
    rw [← h0]
    exact runRegion_error hread (Frame.refl s)
  · have hread := afxHeadGroup_given_tooLong h0 hl hb hlong
    rw [← limit_of_ne_afx hop] at hread
    exact runRegion_error hread ((framed_afxHeadGroup _ _).error hread)
  · have hread := afxHeadGroup_given_zero h0 hl (within_limit hroom) hz
    exact runRegion_error hread ((framed_afxHeadGroup _ _).error hread)

/-! ### Regions within budget and buffer (42_adaptation_field.md R183 to R188) -/

/-- From a byte boundary to a byte boundary only `BP` moves. -/
theorem State.seek_of_aligned {s : State} (h0 : s.bo = 0) (o : Nat) : s.seek (o, 0) = { s with bp := o } := by
  rw [← h0]; rfl

/-- Settles O37: each region's reads write its registers, and the sequencer goes on from there. -/
theorem fieldRegionsAreRead : Obligations.FieldRegionsAreRead := by
  intro s h0
  have hseek := State.seek_of_aligned h0
  refine ⟨fun h hn hl => ?_, fun v hb hl => ⟨?_, ?_⟩, fun c hb hl => ?_, fun n bytes hb hl => ?_⟩
  · exact runRegion_ok (by rw [afHeadGroup_given h0 hn hl, hseek]; rfl) h0 hl
  · exact runRegion_ok (by rw [pcrGroup_given h0 hb hl, hseek]) h0 hl
  · exact runRegion_ok (by rw [opcrGroup_given h0 hb hl, hseek]) h0 hl
  · exact runRegion_ok (by rw [splGroup_given h0 hb hl, hseek]) h0 hl
  · exact runRegion_ok (by rw [tpdGroup_given h0 hb hl, hseek]) h0 hl

end Sys2Proof.Machine

/-! # The extension and its regions (O23, O24, O38) -/

namespace Sys2Proof.Machine

/-! ### The extension that stands alone (43_af_extension.md R210, R211, R218) -/

/-- A stand-alone `AFX` has no limit, so every offset is within it (R210). -/
theorem within_none (e : Nat) : Within none e := fun _ k => nomatch k

theorem extHolds_iff (s : State) (o : Nat) : s.extHolds o = true ↔ s.padAt o ≤ s.fieldEnd o := decide_eq_true_iff

theorem extFits_iff (s : State) (o : Nat) :
    s.extFits o = true ↔ s.extHolds o = true ∧ s.fieldEnd o ≤ s.len := by
  rw [State.extFits, Bool.and_eq_true, decide_eq_true_eq]

theorem execAfx_ok (n : BitVec 5) {s : State} (h0 : s.bo = 0) (hf : s.extFits s.bp = true) :
    exec (.afx n) s = .next s.afterExtension.finish := by
  obtain ⟨hholds, hend⟩ := (extFits_iff s s.bp).mp hf
  exact settleComposite_ok (bind_ok (afxSeq_ok h0 ((extHolds_iff s s.bp).mp hholds) (within_none _) hend))

/-- Settles O23: the reads of an extension that fits leave its layout, and the end of `AFX` the rest. -/
theorem afxDecodesTheExtension : Obligations.AfxDecodesTheExtension := by
  intro n s h0 hf
  rw [execAfx_ok n h0 hf, State.afterExtension, State.extAt, ← h0]
  rfl

/-- An error of the reads of the extension is the error of `AFX`. -/
theorem execAfx_error (n : BitVec 5) {s t : State} {e : DecodeError} (h : afxSeq none s = .error e t) :
    exec (.afx n) s = .next (s.failedAt e (t.bp, t.bo)) :=
  settleComposite_error framed_afxOp (bind_error h)

/-- Without a limit, the reads of an extension that does not fit are stopped at a budget check, or by the end of the
buffer before they come to one that fails. -/
theorem afxSeq_none_error {s : State} (h0 : s.bo = 0) (hf : s.extFits s.bp = false) :
    ∃ t, (afxSeq none s = .error .adaptationFieldOverrun t ∧ (t.bp, t.bo) = (s.extStop s.bp, 0) ∧
        s.extStop s.bp ≤ s.len ∧ s.extHolds s.bp = false) ∨
      (afxSeq none s = .error .outOfData t ∧ (t.bp, t.bo) = s.extCut s.bp ∧
        (s.extHolds s.bp = false → s.len < s.extStop s.bp) ∧ s.len < s.fieldEnd s.bp) := by
  have hbad : ¬(s.padAt s.bp ≤ s.fieldEnd s.bp ∧ Within none (s.fieldEnd s.bp) ∧ s.fieldEnd s.bp ≤ s.len) :=
    fun ⟨hpad, _, hl⟩ => Bool.eq_false_iff.mp hf ((extFits_iff _ _).mpr ⟨(extHolds_iff _ _).mpr hpad, hl⟩)
  have hholds : s.extHolds s.bp = false ↔ ¬(s.padAt s.bp ≤ s.fieldEnd s.bp ∧ Within none (s.fieldEnd s.bp)) := by
    rw [← Bool.not_eq_true, extHolds_iff, and_iff_left (within_none _)]
  obtain ⟨t, ⟨he, hc, hstop, hover⟩ | ⟨he, hc, hstop, hend, -⟩⟩ :=
    afxSeq_error (limit := none) h0 (fun _ k => nomatch k) hbad
  · exact ⟨t, .inl ⟨he, hc, hstop, hholds.mpr hover⟩⟩
  · exact ⟨t, .inr ⟨he, hc, fun hover => hstop (hholds.mp hover), hend⟩⟩

/-- Settles O24: of the two ways in which the reads of an extension that does not fit fail, each excludes the other's
premise. -/
theorem afxRejectsOtherExtensions : Obligations.AfxRejectsOtherExtensions := by
  intro n s h0 hf
  obtain ⟨t, ⟨he, hc, hstop, hbad⟩ | ⟨he, hc, hstop, hend⟩⟩ := afxSeq_none_error h0 hf
  · have hn := execAfx_error n he
    rw [hc] at hn
    refine ⟨fun _ => hn, fun k => ?_⟩
    rcases k with hh | hlt
    · cases hbad.symm.trans hh
    · exact absurd hstop (Nat.not_le.mpr hlt)
  · have hn := execAfx_error n he
    rw [hc] at hn
    exact ⟨fun ⟨hbad, hle⟩ => absurd hle (Nat.not_le.mpr (hstop hbad)), fun _ => ⟨hend, hn⟩⟩

/-! ### Regions of the extension within budget and buffer (43_af_extension.md R212 to R216) -/

/-- Settles O38: each region's reads write its registers, and the sequencer goes on from there. -/
theorem extensionRegionsAreRead : Obligations.ExtensionRegionsAreRead := by
  intro s h0
  have hseek := State.seek_of_aligned h0
  refine ⟨fun h hn hl hroom => ?_, fun valid offset hb hl => ?_, fun reserved rate hb hl => ?_, fun g hb hl => ?_⟩
  · exact runRegion_ok (by rw [afxHeadGroup_given h0 hn (within_limit hroom) hl, hseek]; rfl) h0 hl
  · exact runRegion_ok (by rw [ltwGroup_given h0 hb hl, hseek]) h0 hl
  · exact runRegion_ok (by rw [pwrGroup_given h0 hb hl, hseek]) h0 hl
  · exact runRegion_ok (by rw [smsGroup_given h0 hb hl, hseek]; rfl) h0 hl

end Sys2Proof.Machine

/-! # Errors and steps (O32, O39, O16, O34, O45) -/

namespace Sys2Proof.Machine

/-! ### The error codes (60_exceptions.md R237) -/

/-- Settles O34: an error's code is that of one of the five errors. -/
theorem errorsHaveTheirCodes : Obligations.ErrorsHaveTheirCodes := by
  refine ⟨rfl, rfl, rfl, rfl, rfl, rfl, fun e => ?_⟩
  cases e with
  | none => decide
  | some e => cases e <;> decide

/-! ### Starts inside a byte (60_exceptions.md R232) -/

/-- `HDR` started inside a byte is refused at its first read. -/
theorem execHdr_unaligned (n : BitVec 5) {s : State} (h0 : s.bo ≠ 0) :
    exec (.hdr n) s = .next (s.failedAt .notByteAligned (s.bp, s.bo)) := by
  have hread : readHdr s.clearGroups = .error .notByteAligned s.clearGroups :=
    bind_error (pbyte_unaligned (s := s.clearGroups) h0)
  have hgroup : hdrGroup none s.clearGroups = .error .notByteAligned s.clearGroups := by
    rw [hdrGroup, bind_error (given_error hread)]
  have hop : hdrOp s = .error .notByteAligned s.clearGroups := by
    rw [hdrOp, bind_ok (modify_apply _ _), bind_error hgroup]
  exact settleComposite_error (t := s.clearGroups) framed_hdrOp hop

/-- Settles O16: each of the three operations begins with a byte read, which tests the alignment first. -/
theorem unalignedStartsAreRefused : Obligations.UnalignedStartsAreRefused := by
  intro n s h0 i hi
  simp only [List.mem_cons, List.not_mem_nil, or_false] at hi
  rcases hi with rfl | rfl | rfl
  · exact execHdr_unaligned n h0
  · exact execAf_unaligned n h0
  · exact execAfx_unaligned n h0

/-! ### The errors of the composite operations (60_exceptions.md R245) -/

/-- `HDR` reads a whole header, or the buffer cuts it short. -/
theorem execHdr_err {n : BitVec 5} {s t : State} (h0 : s.bo = 0) (h : exec (.hdr n) s = .next t) :
    t.err = none ∨ t.err = some .outOfData := by
  by_cases hl : s.bp + 4 ≤ s.len
  · cases (execHdr_ok n h0 hl).symm.trans h
    exact .inl rfl
  · cases (execHdr_short n h0 (Nat.lt_of_not_le hl)).symm.trans h
    exact .inr rfl

/-- The errors left to an operation that reads an adaptation field or its extension. -/
def FieldErrors (e : Option DecodeError) : Prop := e = none ∨ e = some .outOfData ∨ e = some .adaptationFieldOverrun

/-- `AF` reads a field that fits, or fails in one of the two ways in which its reads can (42_adaptation_field.md
R193). -/
theorem execAf_err {n : BitVec 5} {s t : State} (h0 : s.bo = 0) (h : exec (.af n) s = .next t) : FieldErrors t.err := by
  by_cases hf : s.fieldFits s.bp = true
  · cases (execAf_ok n h0 hf).symm.trans h
    exact .inl rfl
  · have hbad : ¬(s.fieldHolds s.bp = true ∧ s.fieldEnd s.bp ≤ s.len) := by simpa [State.fieldFits] using hf
    obtain ⟨u, ⟨he, -⟩ | ⟨he, -⟩⟩ := afSeq_error h0 hbad <;> cases (execAf_error n he).symm.trans h
    · exact .inr (.inr rfl)
    · exact .inr (.inl rfl)

/-- `AFX` reads an extension that fits, or fails in one of the two ways in which its reads can (43_af_extension.md
R219). -/
theorem execAfx_err {n : BitVec 5} {s t : State} (h0 : s.bo = 0) (h : exec (.afx n) s = .next t) :
    FieldErrors t.err := by
  cases hf : s.extFits s.bp with
  | true =>
    cases (execAfx_ok n h0 hf).symm.trans h
    exact .inl rfl
  | false =>
    obtain ⟨u, ⟨he, -⟩ | ⟨he, -⟩⟩ := afxSeq_none_error h0 hf <;> cases (execAfx_error n he).symm.trans h
    · exact .inr (.inr rfl)
    · exact .inr (.inl rfl)

/-- `DECODE` ends a packet, or takes one of the two errors (41_packet_decoder.md R167). -/
theorem execDecode_err {n : BitVec 5} {s t : State} (h : exec (.decode n) s = .next t) : FieldErrors t.err := by
  rcases execDecode_cases n s with ⟨-, -, hn⟩ | ⟨-, -, -, hn⟩ | ⟨e, c, hn, rfl | rfl, -⟩ <;> cases hn.symm.trans h
  · exact .inl rfl
  · exact .inl rfl
  · exact .inr (.inl rfl)
  · exact .inr (.inr rfl)

/-- Settles O32: from a byte boundary every read of a composite operation is aligned and of a legal count, so that only
the bounds and the budgets are left to fail. -/
theorem compositesRaiseTwoErrors : Obligations.CompositesRaiseTwoErrors := by
  refine fun n s t => ⟨execDecode_err, execHdr_err, fun h0 i hi h => ?_⟩
  simp only [List.mem_cons, List.not_mem_nil, or_false] at hi
  rcases hi with rfl | rfl
  · exact execAf_err h0 h
  · exact execAfx_err h0 h

/-! ### Regions that the buffer cuts short (60_exceptions.md R231, R242) -/

/-- At the end of the buffer, byte-aligned, the cursor is where a read byte by byte would end. -/
theorem State.seek_buffer_end {s : State} (h0 : s.bo = 0) (h : s.len = s.bp) : s.seek (s.len, 0) = s := by
  rw [h, State.seek_aligned h0]

/-- A head that the decoder has read and that the buffer cuts short: the length byte is missing, or the flags byte
behind a length that leaves room for it. -/
theorem afHeadGroup_given_short {s : State} {h : AfHead} (h0 : s.bo = 0) (hle : s.bp ≤ s.len) (hl : s.len < s.bp + 2)
    (hn : 1 ≤ h.len.toNat ∨ s.len = s.bp) : afHeadGroup (some h) s = .error .outOfData (s.seek (s.len, 0)) := by
  rcases Nat.eq_or_lt_of_le hle with hnone | hone
  · rw [State.seek_buffer_end h0 hnone.symm, afHeadGroup, bind_error (given_error (pbyte_end h0 hnone.ge))]
  · have hlen : s.len = s.bp + 1 := by omega
    have hroom : 1 ≤ h.len.toNat := hn.resolve_right (by omega)
    rw [hlen, afHeadGroup, Option.map_some, bind_ok (given_ok (pbyte_ok h0 hone)),
      bind_ok (show endAfter h.len (s.seek (s.bp + 1, 0)) = .ok _ _ from rfl),
      bind_error (given_error (readAfFlags_end (by simpa using hroom) (by simp [hlen])))]

/-- The same for the head of an extension within its limit. -/
theorem afxHeadGroup_given_short {s : State} {limit : Option Nat} {h : AfxHead} (h0 : s.bo = 0) (hle : s.bp ≤ s.len)
    (hl : s.len < s.bp + 2) (hn : 1 ≤ h.len.toNat ∨ s.len = s.bp) (hw : Within limit (s.bp + 1 + h.len.toNat)) :
    afxHeadGroup (some h) limit s = .error .outOfData (s.seek (s.len, 0)) := by
  have hfirst : Within limit (s.bp + 1) := fun stop k => Nat.le_of_add_right_le (hw stop k)
  rw [afxHeadGroup, bind_ok (needWithin_ok hfirst)]
  rcases Nat.eq_or_lt_of_le hle with hnone | hone
  · rw [State.seek_buffer_end h0 hnone.symm, bind_error (given_error (pbyte_end h0 hnone.ge))]
  · have hlen : s.len = s.bp + 1 := by omega
    have hroom : 1 ≤ h.len.toNat := hn.resolve_right (by omega)
    rw [hlen, Option.map_some, bind_ok (given_ok (pbyte_ok h0 hone)),
      bind_ok (extensionEnd_ok (s := s.seek (s.bp + 1, 0)) hw),
      bind_error (given_error (readAfxFlags_end (by simpa using hroom) (by simp [hlen])))]

/-- Private data that the decoder has read, that fits its budget and that the buffer cuts short: the length byte is
missing, or one of the bytes it counts. -/
theorem tpdGroup_given_short {s : State} {n : Byte} {bytes : List Byte} (h0 : s.bo = 0) (hle : s.bp ≤ s.len)
    (hb : s.bp + 1 + n.toNat ≤ s.afEnd) (hl : s.len < s.bp + 1 + n.toNat) :
    tpdGroup (some (n, bytes)) s = .error .outOfData (s.seek (s.len, 0)) := by
  rcases Nat.eq_or_lt_of_le hle with hnone | hone
  · rw [State.seek_buffer_end h0 hnone.symm, tpdGroup_noLength h0 (by omega) hnone.ge]
  · have hbytes : pullBytes n.toNat (s.seek (s.bp + 1, 0)) = .error .outOfData (s.seek (s.len, 0)) :=
      pullBytes_short rfl hone hl
    rw [tpdGroup, bind_ok (show needAf 1 s = _ from need_fits (by omega)), Option.map_some,
      bind_ok (given_ok (pbyte_ok h0 hone)),
      bind_ok (show needAf n.toNat (s.seek (s.bp + 1, 0)) = .ok () _ from need_fits hb),
      bind_error (given_error hbytes)]

/-- A region whose reads are cut short ends its operation with the cursor where they stopped. -/
theorem runRegion_cut {op : Composite} {r : Region} {reads : Op Unit} {s : State} {c : Nat × Fin 8}
    (hm : Framed reads) (h : reads s = .error .outOfData (s.seek c)) :
    runRegion op r reads s = .next (s.failedAt .outOfData c) :=
  runRegion_error h (hm.error h)

/-- Settles O39: the reads of each region stop at the primitive that lacks a byte, and the region takes their error. -/
theorem regionsCutShortRaiseOutOfData : Obligations.RegionsCutShortRaiseOutOfData := by
  intro s h0 hle
  have hmax : max s.bp s.len = s.len := Nat.max_eq_right hle
  refine ⟨fun hl h i hi => ?_, fun hl h hn => ?_, fun hb hl v i hi => ?_, fun hb hl c n bytes i hi => ?_,
    fun n bytes hb hl => ?_, fun hl h hn hroom => ?_, fun hb hl v o => ?_, fun hb hl q v => ?_, fun hb hl g => ?_⟩
  · have hcut := fun afp plp => hdrGroup_short h0 hl (some (h, afp, plp))
    simp only [cutAt, hmax] at hcut
    simp only [List.mem_cons, List.not_mem_nil, or_false] at hi
    rcases hi with rfl | rfl | rfl | rfl <;> exact runRegion_cut (framed_hdrGroup _) (hcut _ _)
  · exact runRegion_cut (framed_afHeadGroup _) (afHeadGroup_given_short h0 hle hl hn)
  · simp only [List.mem_cons, List.not_mem_nil, or_false] at hi
    rcases hi with rfl | rfl
    · exact runRegion_cut (framed_pcrGroup _) (pcrGroup_short h0 hle hb hl _)
    · exact runRegion_cut (framed_opcrGroup _) (opcrGroup_short h0 hle hb hl _)
  · have hnone : s.len = s.bp := by omega
    have hhere : s.seek (s.len, 0) = s := State.seek_buffer_end h0 hnone
    simp only [List.mem_cons, List.not_mem_nil, or_false] at hi
    rcases hi with rfl | rfl
    · exact runRegion_cut (framed_splGroup _) (by rw [hhere, splGroup_short h0 hb hnone.le])
    · exact runRegion_cut (framed_tpdGroup _) (by rw [hhere, tpdGroup_noLength h0 hb hnone.le])
  · exact runRegion_cut (framed_tpdGroup _) (tpdGroup_given_short h0 hle hb hl)
  · exact runRegion_cut (framed_afxHeadGroup _ _) (afxHeadGroup_given_short h0 hle hl hn (within_limit hroom))
  · exact runRegion_cut (framed_ltwGroup _) (by rw [ltwGroup_short h0 hb hl, cutAt, hmax])
  · exact runRegion_cut (framed_pwrGroup _) (by rw [pwrGroup_short h0 hb hl, cutAt, hmax])
  · exact runRegion_cut (framed_smsGroup _) (by rw [smsGroup_short h0 hb hl, cutAt, hmax])

/-! ### Every step goes on (60_exceptions.md R241, R243; 70_reset_and_hazards.md R270) -/

theorem stepRegion_next (op : Composite) (r : Region) (s : State) : ∃ t, stepRegion op r s = .next t := by
  unfold stepRegion
  split
  · exact exec_next _ _
  · exact settleComposite_next _ _

theorem stepIssue_next (w : Cmd) (s : State) : ∃ t, stepIssue w s = .next t := by
  unfold stepIssue
  split
  · exact ⟨_, rfl⟩
  · exact exec_next _ _

theorem stepAction_next (act : HostAction) (s : State) : ∃ t, stepAction act s = .next t := by
  cases act with
  | data offset bytes => exact ⟨_, rfl⟩
  | len n => exact ⟨_, rfl⟩
  | cmd w => exact exec_next _ _
  | issue w => exact stepIssue_next w s
  | reset => exact ⟨_, rfl⟩
  | wait => exact ⟨_, rfl⟩

/-- A step is a reset, a region of the running operation, the host's next action, or a wait. -/
theorem step_safe (s : State) : SafeStep s := by
  unfold SafeStep step
  split
  · exact ⟨_, rfl⟩
  · exact stepRegion_next _ _ _
  · exact stepRegion_next _ _ _
  · exact ⟨_, rfl⟩
  · exact stepAction_next _ _

/-- With the sequencer idle and nothing for the host to do, the block waits. -/
theorem step_waits {s : State} (hseq : s.seq = none) (hscript : s.script = []) : step s = .next s := by
  rw [step, hseq, hscript]

/-- Settles O45: no step has an answer but a next state, and an idle block's step is its wait. -/
theorem everyStepGoesOn : Obligations.EveryStepGoesOn := fun s => ⟨step_safe s, step_waits⟩

end Sys2Proof.Machine

/-! # Reset, the ends of operations and the host's duty (O58, O55, O46) -/

namespace Sys2Proof.Machine

/-! ### The reset (70_reset_and_hazards.md R270) -/

/-- A reset that the host has next is taken whether or not an operation runs. -/
theorem step_reset {s : State} {rest : List HostAction} (hscript : s.script = .reset :: rest) :
    step s = .next s.dropAction.hardReset := by
  cases hseq : s.seq with
  | none => rw [step, hseq, hscript]; rfl
  | some place => rw [step, hseq, hscript]

/-- Settles O46: the step is the reset, which leaves the sequencer idle. -/
theorem resetAppliesAtAnyTime : Obligations.ResetAppliesAtAnyTime := by
  intro s rest hscript
  refine ⟨?_, fun hrest => step_waits rfl hrest⟩
  rw [step_reset hscript, State.dropAction, hscript, List.tail_cons]
  rfl

/-! ### The end of an operation (70_reset_and_hazards.md R281, 10_state.md R38, R39, R42) -/

/-- `ST` and `ERR` say how an operation ended: DONE_OK with no error, or DONE_ERR with one. -/
def SaysItsEnd (t : State) : Prop := (t.st = .doneOk ∧ t.err = none) ∨ (t.st = .doneErr ∧ t.err ≠ none)

/-- An operation has ended: `ST` and `ERR` say how, and nothing of the sequencer or the budgets is left. -/
def EndedDone (t : State) : Prop := SaysItsEnd t ∧ t.seq = none ∧ t.afEnd = 0 ∧ t.afxEnd = 0

theorem takeError_saysItsEnd (kind : CommandKind) (e : DecodeError) (s : State) : SaysItsEnd (s.takeError kind e) := by
  cases kind <;> exact .inr ⟨rfl, Option.some_ne_none e⟩

theorem settleRaw_saysItsEnd {α : Type} {v : α → BitVec 16} {m : Op α} {s t : State}
    (h : settleRaw v m s = .next t) : SaysItsEnd t := by
  unfold settleRaw at h
  split at h <;> cases h
  · exact .inl ⟨rfl, rfl⟩
  · exact takeError_saysItsEnd ..

/-- A cursor command on an idle block has ended: it writes nothing of the sequencer and the budgets (40_cursor.md
R141). -/
theorem settleRaw_endedDone {α : Type} {v : α → BitVec 16} {m : Op α} (hseek : ∀ s, ∃ c, endOf (m s) = s.seek c)
    {s t : State} (hidle : s.seq = none ∧ s.afEnd = 0 ∧ s.afxEnd = 0) (h : settleRaw v m s = .next t) :
    EndedDone t := by
  obtain ⟨-, -, -, -, eaf, eafx, eseq⟩ := settleRaw_keeps hseek h
  obtain ⟨hseq, haf, hafx⟩ := hidle
  exact ⟨settleRaw_saysItsEnd h, eseq.trans hseq, eaf.trans haf, eafx.trans hafx⟩

/-- A composite operation whose success ends it has ended either way: a failure leaves the sequencer too (R168). -/
theorem settleComposite_endedDone {m : Op Unit} (hcommits : Commits m) (hover : EndsOver m) {s t : State}
    (h : settleComposite m s = .next t) : EndedDone t := by
  unfold settleComposite at h
  split at h <;> cases h
  case h_1 hm =>
    obtain ⟨hseq, haf, hafx, -⟩ := hover _ _ hm
    exact ⟨.inl (hcommits _ _ hm), hseq, haf, hafx⟩
  case h_2 => exact ⟨takeError_saysItsEnd .., rfl, rfl, rfl⟩

theorem decodeOp_commits : Commits decodeOp := .bind fun _ => .bind fun _ => decodeTail_commits

theorem hdrOp_endsOver : EndsOver hdrOp := .bind fun _ => .bind fun _ => finishOp_endsOver

theorem afOp_endsOver : EndsOver afOp := .bind fun _ => finishOp_endsOver

theorem afxOp_endsOver : EndsOver afxOp := .bind fun _ => .bind fun _ => finishOp_endsOver

theorem decodeOp_endsOver : EndsOver decodeOp :=
  .bind fun _ => .bind fun _ => .bind fun _ => .bind fun _ => .bind fun _ => finishOp_endsOver

/-- Settles O55: each command is a cursor command, or a composite operation that ends in `finishOp` or in an error. -/
theorem operationsEndDone : Obligations.OperationsEndDone := by
  intro i s t hstart hseq haf hafx h
  have hidle : s.seq = none ∧ s.afEnd = 0 ∧ s.afxEnd = 0 := ⟨hseq, haf, hafx⟩
  cases i with
  | openCur n => exact settleRaw_endedDone (v := fun _ => 0) rewind_seek hidle h
  | pbit n => exact settleRaw_endedDone pbit_seek hidle h
  | pbits n => exact settleRaw_endedDone (pbits_seek n.toNat) hidle h
  | pbyte n => exact settleRaw_endedDone pbyte_seek hidle h
  | pwide n => exact settleRaw_endedDone (pwide_seek n.toNat) hidle h
  | hdr n => exact settleComposite_endedDone hdrOp_commits hdrOp_endsOver h
  | af n => exact settleComposite_endedDone afOp_commits afOp_endsOver h
  | afx n => exact settleComposite_endedDone afxOp_commits afxOp_endsOver h
  | decode n => exact settleComposite_endedDone decodeOp_commits decodeOp_endsOver h
  | _ => cases hstart

/-! ### The host's duty (70_reset_and_hazards.md R272, R273) -/

/-- A host about to run `program` does its duty: the cursor is bound, or the program binds it before using it. -/
def DoesItsDuty (program : List HostAction) (s : State) : Prop :=
  (CursorOk s ∧ admitted true program = true) ∨ admitted false program = true

theorem admittedInv_of_idle {s : State} (hseq : s.seq = none) : AdmittedInv s ↔ DoesItsDuty s.script s := by
  rw [AdmittedInv, DoesItsDuty, hseq, eq_self, true_and]

/-- Command `w` may be given in `s`, whose program is what follows it: it binds the cursor, or the cursor is bound, or it
has nothing to do with the cursor. -/
def MayCommand (w : Cmd) (s : State) : Prop :=
  (bindsCursor (decodeCmd w) = true ∧ admitted true s.script = true) ∨
  (CursorOk s ∧ admitted true s.script = true) ∨
  (bindsCursor (decodeCmd w) = false ∧ usesCursor (decodeCmd w) = false ∧ admitted false s.script = true)

/-- The duty of a host that gives a command next, with the cursor bound or not. -/
theorem admitted_command {bound : Bool} {w : Cmd} {rest : List HostAction}
    (h : admitted bound (.cmd w :: rest) = true) :
    (bindsCursor (decodeCmd w) = true ∧ admitted true rest = true) ∨
    (bindsCursor (decodeCmd w) = false ∧ (bound = true ∨ usesCursor (decodeCmd w) = false) ∧
      admitted bound rest = true) := by
  rw [admitted] at h
  cases hb : bindsCursor (decodeCmd w) with
  | true => exact .inl ⟨rfl, by simpa [hb] using h⟩
  | false => exact .inr ⟨rfl, by simpa [hb] using h⟩

/-- A command to watch is under the same duty as the same command run whole. -/
theorem admitted_issue (bound : Bool) (w : Cmd) (rest : List HostAction) :
    admitted bound (.issue w :: rest) = admitted bound (.cmd w :: rest) := rfl

theorem DoesItsDuty.mayCommand {w : Cmd} {s : State} (h : DoesItsDuty (.cmd w :: s.script) s) : MayCommand w s := by
  rcases h with ⟨hcur, ha⟩ | ha
  · rcases admitted_command ha with hbinds | ⟨-, -, hrest⟩
    · exact .inl hbinds
    · exact .inr (.inl ⟨hcur, hrest⟩)
  · rcases admitted_command ha with hbinds | ⟨hb, hu, hrest⟩
    · exact .inl hbinds
    · exact .inr (.inr ⟨hb, hu.resolve_left Bool.false_ne_true, hrest⟩)

/-- A command that the host may give leaves it to do its duty. -/
theorem exec_admittedInv {w : Cmd} {s t : State} (hseq : s.seq = none) (hmay : MayCommand w s)
    (h : exec (decodeCmd w) s = .next t) : AdmittedInv t := by
  obtain ⟨hmoves, -, hbinds⟩ := exec_moves h
  have hscript : t.script = s.script := (exec_keeps h).script
  rcases hmay with ⟨hb, hrest⟩ | ⟨hcur, hrest⟩ | ⟨hb, hu, hrest⟩
  · exact .inl ⟨hbinds hb, hscript ▸ hrest⟩
  · exact .inl ⟨hmoves.cursor hcur, hscript ▸ hrest⟩
  · cases (exec_of_unused hb hu s).1.symm.trans h
    exact .inr ⟨hseq, hrest⟩

/-- `DECODE` alone of the composite operations binds the cursor (10_state.md R41). -/
theorem compositeOf_bindsCursor {i : Instr} {op : Composite} (hop : compositeOf i = some op)
    (hb : bindsCursor i = true) : op = .decode := by
  cases i with
  | decode n => cases hop; rfl
  | openCur n => cases hop
  | _ => cases hb

/-- A watched operation that the host may start starts with the cursor bound. -/
theorem start_admittedInv {w : Cmd} {op : Composite} {s : State} (hop : compositeOf (decodeCmd w) = some op)
    (hmay : MayCommand w s) : AdmittedInv (s.start op) := by
  have hstart : (op = .decode ∨ CursorOk s) ∧ admitted true s.script = true := by
    rcases hmay with ⟨hb, hrest⟩ | ⟨hcur, hrest⟩ | ⟨hb, hu, -⟩
    · exact ⟨.inl (compositeOf_bindsCursor hop hb), hrest⟩
    · exact ⟨.inr hcur, hrest⟩
    · cases (exec_of_unused hb hu s).2.symm.trans hop
  obtain ⟨hfrom, hrest⟩ := hstart
  obtain ⟨hcur, hscript⟩ := start_cursor op s hfrom
  exact .inl ⟨hcur, hscript ▸ hrest⟩

theorem stepIssue_admittedInv {w : Cmd} {s t : State} (hseq : s.seq = none) (hmay : MayCommand w s)
    (h : stepIssue w s = .next t) : AdmittedInv t := by
  unfold stepIssue at h
  split at h
  case h_1 op hop => cases h; exact start_admittedInv hop hmay
  case h_2 => exact exec_admittedInv hseq hmay h

/-- The host's next action, while the sequencer is idle: `s` is the state with the action taken off its program. -/
theorem stepAction_admittedInv {act : HostAction} {s t : State} (hseq : s.seq = none)
    (hduty : DoesItsDuty (act :: s.script) s) (h : stepAction act s = .next t) : AdmittedInv t := by
  cases act with
  | data offset bytes => cases h; exact .inr ⟨hseq, hduty.elim (·.2) id⟩
  | len n => cases h; exact .inr ⟨hseq, hduty.elim (·.2) id⟩
  | reset => cases h; exact .inr ⟨rfl, hduty.elim (·.2) id⟩
  | wait => cases h; exact (admittedInv_of_idle hseq).mpr hduty
  | cmd w => exact exec_admittedInv hseq hduty.mayCommand h
  | issue w =>
    rw [DoesItsDuty, admitted_issue, admitted_issue] at hduty
    exact stepIssue_admittedInv hseq (DoesItsDuty.mayCommand hduty) h

/-- A region of the running operation keeps the cursor inside the buffer. -/
theorem stepRegion_admittedInv {op : Composite} {r : Region} {s t : State} (hcur : CursorOk s)
    (ha : admitted true s.script = true) (h : stepRegion op r s = .next t) : AdmittedInv t := by
  obtain ⟨hkeeps, hmoves⟩ := stepRegion_moves h
  exact .inl ⟨hmoves.cursor hcur, hkeeps.script ▸ ha⟩

/-- While an operation runs the cursor is bound. -/
theorem AdmittedInv.bound {s : State} {place : Composite × Region} (hi : AdmittedInv s) (hseq : s.seq = some place) :
    CursorOk s ∧ admitted true s.script = true :=
  hi.resolve_right fun ⟨hnone, _⟩ => by cases hseq.symm.trans hnone

theorem dropAction_script {s : State} {act : HostAction} {rest : List HostAction} (h : s.script = act :: rest) :
    s.dropAction.script = rest := by
  rw [State.dropAction, h, List.tail_cons]

/-- Settles O58: a step is a reset, a region of the running operation, which finds the cursor bound, or the host's next
action. -/
theorem admittedHostsKeepTheCursorBound : Obligations.AdmittedHostsKeepTheCursorBound := by
  intro s t hi h
  unfold step at h
  split at h
  case h_1 hseq hscript =>
    obtain ⟨-, ha⟩ := hi.bound hseq
    rw [hscript] at ha
    cases h
    exact .inr ⟨rfl, (dropAction_script hscript).symm ▸ ha⟩
  case h_2 hseq hscript =>
    obtain ⟨hcur, ha⟩ := hi.bound hseq
    rw [hscript] at ha
    exact stepRegion_admittedInv (s := s.dropAction) hcur ((dropAction_script hscript).symm ▸ ha) h
  case h_3 hseq _ _ =>
    obtain ⟨hcur, ha⟩ := hi.bound hseq
    exact stepRegion_admittedInv hcur ha h
  case h_4 => cases h; exact hi
  case h_5 hseq hscript =>
    have hduty := (admittedInv_of_idle hseq).mp hi
    rw [hscript, ← dropAction_script hscript] at hduty
    exact stepAction_admittedInv (s := s.dropAction) hseq hduty h

end Sys2Proof.Machine
